-- ==== Sys2Proof/Word.lean ====
section
/-! DEFINITION. The two word types of the block (00_scope.md R8, R10): bytes and 16-bit words, with the wrap-around
arithmetic of R11 being that of `BitVec`. -/

namespace Sys2Proof

/-- `u8` (00_scope.md R10). `+` and `-` on it are `+8` and `-8` of R11. -/
abbrev Byte := BitVec 8

/-- `u16` (00_scope.md R10). `+` and `-` on it are `+16` and `-16` of R11. -/
abbrev Word := BitVec 16

end Sys2Proof
end

