-- ==== Sys2Proof/Operand.lean ====
section
/-! DEFINITION. The addressing modes (00_scope.md R17, 40_addressing.md R100) and the operand shapes of the
instructions, with the operand bytes of 30_encoding.md R80 and R82 in them. -/

namespace Sys2Proof

/-- The addressing modes of 00_scope.md R17. -/
inductive Mode where
  | imp | acc | imm | zp | zpx | zpy | abs | absx | absy | ind | indx | indy | rel
deriving DecidableEq, Repr

/-- An operand with an effective address (40_addressing.md R103 to R112), holding its operand bytes; a 16-bit operand is
the assembled `hi:lo` (30_encoding.md R82). The relative mode (R113) stands as the displacement byte of the branches. -/
inductive Operand where
  /-- R103: the operand byte itself, which is the byte at the operand's effective address. -/
  | imm (value : Byte)
  | zp (base : Byte)
  | zpx (base : Byte)
  | zpy (base : Byte)
  | abs (addr : Word)
  | absx (addr : Word)
  | absy (addr : Word)
  | ind (pointer : Word)
  | indx (base : Byte)
  | indy (base : Byte)
deriving DecidableEq, Repr

/-- What a shift or rotate works on: the accumulator (40_addressing.md R101) or the byte at an effective address. -/
inductive Target where
  | acc
  | mem (o : Operand)
deriving DecidableEq, Repr

/-- The addressing mode of an operand. -/
def Operand.mode : Operand → Mode
  | .imm _ => .imm
  | .zp _ => .zp
  | .zpx _ => .zpx
  | .zpy _ => .zpy
  | .abs _ => .abs
  | .absx _ => .absx
  | .absy _ => .absy
  | .ind _ => .ind
  | .indx _ => .indx
  | .indy _ => .indy

/-- The addressing mode of a shift or rotate. -/
def Target.mode : Target → Mode
  | .acc => .acc
  | .mem o => o.mode

end Sys2Proof
end

