-- ==== Sys2Proof/Syntax.lean ====
section
/-! DEFINITION. The instructions: one constructor for each mnemonic of spec/opcode_table.json, over its operand
(30_encoding.md R83). Where several opcode bytes have one mnemonic and one mode (JAM, the no-ops, the `Unknown` bytes)
the constructor carries the opcode byte. -/

namespace Sys2Proof

/-- The instruction set of 30_encoding.md R83, by the rule that gives each its meaning. -/
inductive Instr where
  -- 41_load_store_transfer.md R120 to R131
  | lda (o : Operand)
  | ldx (o : Operand)
  | ldy (o : Operand)
  | sta (o : Operand)
  | stx (o : Operand)
  | sty (o : Operand)
  | tax
  | tay
  | txa
  | tya
  | tsx
  | txs
  -- 42_alu.md R142 to R157
  | adc (o : Operand)
  | sbc (o : Operand)
  | and (o : Operand)
  | ora (o : Operand)
  | eor (o : Operand)
  | cmp (o : Operand)
  | cpx (o : Operand)
  | cpy (o : Operand)
  | bit (o : Operand)
  | inc (o : Operand)
  | dec (o : Operand)
  | inx
  | iny
  | dex
  | dey
  -- 43_shift_rotate.md R166 to R169
  | asl (t : Target)
  | lsr (t : Target)
  | rol (t : Target)
  | ror (t : Target)
  -- 44_control_stack_flags.md R176 to R197; `d` is the displacement byte
  | bpl (d : Byte)
  | bmi (d : Byte)
  | bvc (d : Byte)
  | bvs (d : Byte)
  | bcc (d : Byte)
  | bcs (d : Byte)
  | bne (d : Byte)
  | beq (d : Byte)
  | jmp (o : Operand)
  | jsr (target : Word)
  | rts
  | pha
  | pla
  | php
  | plp
  | clc
  | sec
  | cli
  | sei
  | cld
  | sed
  | clv
  -- 45_undocumented.md R201 to R211
  | slo (o : Operand)
  | rla (o : Operand)
  | sre (o : Operand)
  | rra (o : Operand)
  | isc (o : Operand)
  | dcp (o : Operand)
  | sax (o : Operand)
  | lax (o : Operand)
  /-- R209 (no operand) and R210 (an operand that is read and discarded). -/
  | nop (opcode : Byte) (o : Option Operand)
  | jam (opcode : Byte)
  -- 60_exceptions.md R221, R226 to R228
  | brk
  | rti
  | unknown (opcode : Byte)
deriving DecidableEq, Repr

end Sys2Proof
end

