-- ==== Sys2Proof/WellFormed.lean ====
section
/-! DEFINITION. Which instruction terms are instructions of the block: the mode is one the instruction has an encoding
in, and a carried opcode byte is one of the bytes of 30_encoding.md R84 to R86. -/

namespace Sys2Proof

/-- The eight modes of ADC, SBC, AND, ORA, EOR, CMP and LDA (41_load_store_transfer.md R120, 42_alu.md R142 to R148). -/
def readModes : List Mode := [.imm, .zp, .zpx, .abs, .absx, .absy, .indx, .indy]

/-- The seven modes of STA (R123) and of each combined instruction (45_undocumented.md R200). -/
def memoryModes : List Mode := [.zp, .zpx, .abs, .absx, .absy, .indx, .indy]

/-- The memory modes of ASL, LSR, ROL, ROR, INC and DEC (42_alu.md R152, 43_shift_rotate.md R166). -/
def rmwModes : List Mode := [.zp, .zpx, .abs, .absx]

/-- 30_encoding.md R85: the halt-class opcodes. -/
def jamOpcodes : List Byte :=
  [0x02#8, 0x12#8, 0x22#8, 0x32#8, 0x42#8, 0x52#8, 0x62#8, 0x72#8, 0x92#8, 0xB2#8, 0xD2#8, 0xF2#8]

/-- 30_encoding.md R84: the opcodes the block does not decode. -/
def unknownOpcodes : List Byte :=
  [0x0B#8, 0x2B#8, 0x4B#8, 0x6B#8, 0x8B#8, 0xAB#8, 0xCB#8, 0xEB#8, 0x93#8, 0x9F#8, 0x9B#8, 0x9C#8, 0x9E#8, 0xBB#8]

/-- 30_encoding.md R86: the no-op opcodes of a mode. -/
def nopOpcodes : Mode → List Byte
  | .imp => [0xEA#8, 0x1A#8, 0x3A#8, 0x5A#8, 0x7A#8, 0xDA#8, 0xFA#8]
  | .imm => [0x80#8, 0x82#8, 0x89#8, 0xC2#8, 0xE2#8]
  | .zp => [0x04#8, 0x44#8, 0x64#8]
  | .zpx => [0x14#8, 0x34#8, 0x54#8, 0x74#8, 0xD4#8, 0xF4#8]
  | .abs => [0x0C#8]
  | .absx => [0x1C#8, 0x3C#8, 0x5C#8, 0x7C#8, 0xDC#8, 0xFC#8]
  | .acc | .zpy | .absy | .ind | .indx | .indy | .rel => []

/-- The mode of a no-op's operand; none is the implied form (45_undocumented.md R209, R210). -/
def nopMode : Option Operand → Mode
  | none => .imp
  | some o => o.mode

/-- The instruction has an encoding (30_encoding.md R83). -/
def Instr.wf : Instr → Bool
  | .lda o | .adc o | .sbc o | .and o | .ora o | .eor o | .cmp o => readModes.contains o.mode
  | .ldx o => [Mode.imm, .zp, .zpy, .abs, .absy].contains o.mode
  | .ldy o => [Mode.imm, .zp, .zpx, .abs, .absx].contains o.mode
  | .sta o | .slo o | .rla o | .sre o | .rra o | .isc o | .dcp o => memoryModes.contains o.mode
  | .stx o => [Mode.zp, .zpy, .abs].contains o.mode
  | .sty o => [Mode.zp, .zpx, .abs].contains o.mode
  | .cpx o | .cpy o => [Mode.imm, .zp, .abs].contains o.mode
  | .bit o => [Mode.zp, .abs].contains o.mode
  | .inc o | .dec o => rmwModes.contains o.mode
  | .asl t | .lsr t | .rol t | .ror t => (Mode.acc :: rmwModes).contains t.mode
  | .jmp o => [Mode.abs, .ind].contains o.mode
  | .sax o => [Mode.zp, .zpy, .abs, .indx].contains o.mode
  | .lax o => [Mode.zp, .zpy, .abs, .absy, .indx, .indy].contains o.mode
  | .nop opcode o => (nopOpcodes (nopMode o)).contains opcode
  | .jam opcode => jamOpcodes.contains opcode
  | .unknown opcode => unknownOpcodes.contains opcode
  | .tax | .tay | .txa | .tya | .tsx | .txs | .inx | .iny | .dex | .dey | .rts | .pha | .pla | .php | .plp
  | .clc | .sec | .cli | .sei | .cld | .sed | .clv | .brk | .rti => true
  | .bpl _ | .bmi _ | .bvc _ | .bvs _ | .bcc _ | .bcs _ | .bne _ | .beq _ | .jsr _ => true

end Sys2Proof
end

