-- ==== Sys2Proof/Decode.lean ====
section
/-! DEFINITION. The decoder of 30_encoding.md R83: a table indexed by the opcode byte, laid out as the rule lays it out
(row = high nibble, column = low nibble), and after it the encoder, from the same rule's second table (by mnemonic). -/

namespace Sys2Proof

/-- The number of operand bytes of a mode (30_encoding.md R88). -/
def Mode.operandBytes : Mode → Nat
  | .imp | .acc => 0
  | .imm | .zp | .zpx | .zpy | .indx | .indy | .rel => 1
  | .abs | .absx | .absy | .ind => 2

/-- `hi:lo` (00_scope.md R10). -/
def word (hi lo : Byte) : Word := BitVec.ofNat 16 (hi.toNat * 256 + lo.toNat)

/-- `w[7:0]` (00_scope.md R10). -/
def lowByte (w : Word) : Byte := BitVec.ofNat 8 (w.toNat % 256)

/-- `w[15:8]` (00_scope.md R10). -/
def highByte (w : Word) : Byte := BitVec.ofNat 8 (w.toNat / 256)

/-- One entry of the dispatch table: the addressing mode, and the instruction made from the operand bytes (the first is
the low byte of a 16-bit operand; a mode with fewer operand bytes does not use the rest). -/
structure Entry where
  mode : Mode
  make : Byte → Byte → Instr

namespace Entry

/-- No operand byte: the implied mode (40_addressing.md R102). -/
def imp (i : Instr) : Entry := ⟨.imp, fun _ _ => i⟩
/-- No operand byte: the accumulator mode (R101). -/
def acc (f : Target → Instr) : Entry := ⟨.acc, fun _ _ => f .acc⟩
/-- One operand byte, the value (R103). -/
def imm (f : Operand → Instr) : Entry := ⟨.imm, fun b _ => f (.imm b)⟩
/-- One operand byte (R104). -/
def zp (f : Operand → Instr) : Entry := ⟨.zp, fun b _ => f (.zp b)⟩
/-- One operand byte (R105). -/
def zpx (f : Operand → Instr) : Entry := ⟨.zpx, fun b _ => f (.zpx b)⟩
/-- One operand byte (R106). -/
def zpy (f : Operand → Instr) : Entry := ⟨.zpy, fun b _ => f (.zpy b)⟩
/-- Two operand bytes, the low one first (R107). -/
def abs (f : Operand → Instr) : Entry := ⟨.abs, fun lo hi => f (.abs (word hi lo))⟩
/-- Two operand bytes, the low one first (R108). -/
def absx (f : Operand → Instr) : Entry := ⟨.absx, fun lo hi => f (.absx (word hi lo))⟩
/-- Two operand bytes, the low one first (R109). -/
def absy (f : Operand → Instr) : Entry := ⟨.absy, fun lo hi => f (.absy (word hi lo))⟩
/-- Two operand bytes, the low one first (R110). -/
def ind (f : Operand → Instr) : Entry := ⟨.ind, fun lo hi => f (.ind (word hi lo))⟩
/-- One operand byte (R111). -/
def indx (f : Operand → Instr) : Entry := ⟨.indx, fun b _ => f (.indx b)⟩
/-- One operand byte (R112). -/
def indy (f : Operand → Instr) : Entry := ⟨.indy, fun b _ => f (.indy b)⟩
/-- One operand byte, the displacement (R113). -/
def rel (f : Byte → Instr) : Entry := ⟨.rel, fun b _ => f b⟩
/-- JSR's two operand bytes, the low one first (44_control_stack_flags.md R185). -/
def call (f : Word → Instr) : Entry := ⟨.abs, fun lo hi => f (word hi lo)⟩
/-- A shift or rotate of memory. -/
def onMem (f : Target → Instr) : Operand → Instr := fun o => f (.mem o)
/-- A no-op that reads an operand (45_undocumented.md R210). -/
def nopOf (opcode : Byte) : Operand → Instr := fun o => .nop opcode (some o)
/-- An opcode the block does not decode: it has no operand byte (30_encoding.md R84, R88). -/
def unk (opcode : Byte) : Entry := ⟨.imp, fun _ _ => .unknown opcode⟩

end Entry

open Entry

/-- Row 0x of 30_encoding.md R83. -/
def opcodeRow0 : List Entry :=
  [imp .brk, indx .ora, imp (.jam 0x02#8), indx .slo, zp (nopOf 0x04#8), zp .ora, zp (onMem .asl), zp .slo,
   imp .php, imm .ora, acc .asl, unk 0x0B#8, abs (nopOf 0x0C#8), abs .ora, abs (onMem .asl), abs .slo]

/-- Row 1x of 30_encoding.md R83. -/
def opcodeRow1 : List Entry :=
  [rel .bpl, indy .ora, imp (.jam 0x12#8), indy .slo, zpx (nopOf 0x14#8), zpx .ora, zpx (onMem .asl), zpx .slo,
   imp .clc, absy .ora, imp (.nop 0x1A#8 none), absy .slo, absx (nopOf 0x1C#8), absx .ora, absx (onMem .asl), absx .slo]

/-- Row 2x of 30_encoding.md R83. -/
def opcodeRow2 : List Entry :=
  [call .jsr, indx .and, imp (.jam 0x22#8), indx .rla, zp .bit, zp .and, zp (onMem .rol), zp .rla,
   imp .plp, imm .and, acc .rol, unk 0x2B#8, abs .bit, abs .and, abs (onMem .rol), abs .rla]

/-- Row 3x of 30_encoding.md R83. -/
def opcodeRow3 : List Entry :=
  [rel .bmi, indy .and, imp (.jam 0x32#8), indy .rla, zpx (nopOf 0x34#8), zpx .and, zpx (onMem .rol), zpx .rla,
   imp .sec, absy .and, imp (.nop 0x3A#8 none), absy .rla, absx (nopOf 0x3C#8), absx .and, absx (onMem .rol), absx .rla]

/-- Row 4x of 30_encoding.md R83. -/
def opcodeRow4 : List Entry :=
  [imp .rti, indx .eor, imp (.jam 0x42#8), indx .sre, zp (nopOf 0x44#8), zp .eor, zp (onMem .lsr), zp .sre,
   imp .pha, imm .eor, acc .lsr, unk 0x4B#8, abs .jmp, abs .eor, abs (onMem .lsr), abs .sre]

/-- Row 5x of 30_encoding.md R83. -/
def opcodeRow5 : List Entry :=
  [rel .bvc, indy .eor, imp (.jam 0x52#8), indy .sre, zpx (nopOf 0x54#8), zpx .eor, zpx (onMem .lsr), zpx .sre,
   imp .cli, absy .eor, imp (.nop 0x5A#8 none), absy .sre, absx (nopOf 0x5C#8), absx .eor, absx (onMem .lsr), absx .sre]

/-- Row 6x of 30_encoding.md R83. -/
def opcodeRow6 : List Entry :=
  [imp .rts, indx .adc, imp (.jam 0x62#8), indx .rra, zp (nopOf 0x64#8), zp .adc, zp (onMem .ror), zp .rra,
   imp .pla, imm .adc, acc .ror, unk 0x6B#8, ind .jmp, abs .adc, abs (onMem .ror), abs .rra]

/-- Row 7x of 30_encoding.md R83. -/
def opcodeRow7 : List Entry :=
  [rel .bvs, indy .adc, imp (.jam 0x72#8), indy .rra, zpx (nopOf 0x74#8), zpx .adc, zpx (onMem .ror), zpx .rra,
   imp .sei, absy .adc, imp (.nop 0x7A#8 none), absy .rra, absx (nopOf 0x7C#8), absx .adc, absx (onMem .ror), absx .rra]

/-- Row 8x of 30_encoding.md R83. -/
def opcodeRow8 : List Entry :=
  [imm (nopOf 0x80#8), indx .sta, imm (nopOf 0x82#8), indx .sax, zp .sty, zp .sta, zp .stx, zp .sax,
   imp .dey, imm (nopOf 0x89#8), imp .txa, unk 0x8B#8, abs .sty, abs .sta, abs .stx, abs .sax]

/-- Row 9x of 30_encoding.md R83. -/
def opcodeRow9 : List Entry :=
  [rel .bcc, indy .sta, imp (.jam 0x92#8), unk 0x93#8, zpx .sty, zpx .sta, zpy .stx, zpy .sax,
   imp .tya, absy .sta, imp .txs, unk 0x9B#8, unk 0x9C#8, absx .sta, unk 0x9E#8, unk 0x9F#8]

/-- Row Ax of 30_encoding.md R83. -/
def opcodeRowA : List Entry :=
  [imm .ldy, indx .lda, imm .ldx, indx .lax, zp .ldy, zp .lda, zp .ldx, zp .lax,
   imp .tay, imm .lda, imp .tax, unk 0xAB#8, abs .ldy, abs .lda, abs .ldx, abs .lax]

/-- Row Bx of 30_encoding.md R83. -/
def opcodeRowB : List Entry :=
  [rel .bcs, indy .lda, imp (.jam 0xB2#8), indy .lax, zpx .ldy, zpx .lda, zpy .ldx, zpy .lax,
   imp .clv, absy .lda, imp .tsx, unk 0xBB#8, absx .ldy, absx .lda, absy .ldx, absy .lax]

/-- Row Cx of 30_encoding.md R83. -/
def opcodeRowC : List Entry :=
  [imm .cpy, indx .cmp, imm (nopOf 0xC2#8), indx .dcp, zp .cpy, zp .cmp, zp .dec, zp .dcp,
   imp .iny, imm .cmp, imp .dex, unk 0xCB#8, abs .cpy, abs .cmp, abs .dec, abs .dcp]

/-- Row Dx of 30_encoding.md R83. -/
def opcodeRowD : List Entry :=
  [rel .bne, indy .cmp, imp (.jam 0xD2#8), indy .dcp, zpx (nopOf 0xD4#8), zpx .cmp, zpx .dec, zpx .dcp,
   imp .cld, absy .cmp, imp (.nop 0xDA#8 none), absy .dcp, absx (nopOf 0xDC#8), absx .cmp, absx .dec, absx .dcp]

/-- Row Ex of 30_encoding.md R83. -/
def opcodeRowE : List Entry :=
  [imm .cpx, indx .sbc, imm (nopOf 0xE2#8), indx .isc, zp .cpx, zp .sbc, zp .inc, zp .isc,
   imp .inx, imm .sbc, imp (.nop 0xEA#8 none), unk 0xEB#8, abs .cpx, abs .sbc, abs .inc, abs .isc]

/-- Row Fx of 30_encoding.md R83. -/
def opcodeRowF : List Entry :=
  [rel .beq, indy .sbc, imp (.jam 0xF2#8), indy .isc, zpx (nopOf 0xF4#8), zpx .sbc, zpx .inc, zpx .isc,
   imp .sed, absy .sbc, imp (.nop 0xFA#8 none), absy .isc, absx (nopOf 0xFC#8), absx .sbc, absx .inc, absx .isc]

/-- The dispatch table of 30_encoding.md R83, one row a high nibble. -/
def opcodeTable : List (List Entry) :=
  [opcodeRow0, opcodeRow1, opcodeRow2, opcodeRow3, opcodeRow4, opcodeRow5, opcodeRow6, opcodeRow7,
   opcodeRow8, opcodeRow9, opcodeRowA, opcodeRowB, opcodeRowC, opcodeRowD, opcodeRowE, opcodeRowF]

/-- `Decode(op)` of 30_encoding.md R83: the entry of an opcode byte (every byte has one, so the default is not used). -/
def opcodeEntry (op : Byte) : Entry :=
  (opcodeTable.getD (op.toNat / 16) []).getD (op.toNat % 16) (unk op)

/-- Why bytes are not an instruction. Every opcode byte is decoded (an unknown one to `Instr.unknown`), so the only
reason is that bytes are missing. -/
inductive DecodeError where
  | noOpcode
  | missingOperand (op : Byte)
deriving DecidableEq, Repr

/-- The instruction at the head of a byte list and the bytes after it (30_encoding.md R80, R83). -/
def decode : List Byte → Except DecodeError (Instr × List Byte)
  | [] => .error .noOpcode
  | op :: rest =>
    let e := opcodeEntry op
    match e.mode.operandBytes, rest with
    | 0, rest => .ok (e.make 0 0, rest)
    | 1, b :: rest => .ok (e.make b 0, rest)
    | 2, lo :: hi :: rest => .ok (e.make lo hi, rest)
    | _, _ => .error (.missingOperand op)

/-- The bytes of table word `w` of `nbits` bits, at increasing addresses: the first byte is the low eight bits, the bits
above `nbits` are zero, and there are as many bytes as the longest instruction has (30_encoding.md R80). -/
def tableBytes (nbits w : Nat) : List Byte :=
  let v := w % 2 ^ nbits
  [BitVec.ofNat 8 v, BitVec.ofNat 8 (v / 2 ^ 8), BitVec.ofNat 8 (v / 2 ^ 16)]

/-- The instruction the decoder reads from table word `w` of `nbits` bits. -/
def decodeTableWord (nbits w : Nat) : Option Instr :=
  match decode (tableBytes nbits w) with
  | .ok (i, _) => some i
  | .error _ => none

/-! ## The encoder -/

/-- The operand bytes, in the order of increasing addresses (30_encoding.md R80). -/
def Operand.bytes : Operand → List Byte
  | .imm b | .zp b | .zpx b | .zpy b | .indx b | .indy b => [b]
  | .abs w | .absx w | .absy w | .ind w => [lowByte w, highByte w]

/-- The operand bytes of a shift or rotate. -/
def Target.bytes : Target → List Byte
  | .acc => []
  | .mem o => o.bytes

/-- The opcode of an instruction, from the table by mnemonic of 30_encoding.md R83 (none: no such encoding). -/
def Instr.opcode : Instr → Option Byte
  | .lda o => [(.imm, 0xA9#8), (.zp, 0xA5#8), (.zpx, 0xB5#8), (.abs, 0xAD#8), (.absx, 0xBD#8), (.absy, 0xB9#8), (.indx, 0xA1#8), (.indy, 0xB1#8)].lookup o.mode
  | .ldx o => [(.imm, 0xA2#8), (.zp, 0xA6#8), (.zpy, 0xB6#8), (.abs, 0xAE#8), (.absy, 0xBE#8)].lookup o.mode
  | .ldy o => [(.imm, 0xA0#8), (.zp, 0xA4#8), (.zpx, 0xB4#8), (.abs, 0xAC#8), (.absx, 0xBC#8)].lookup o.mode
  | .sta o => [(.zp, 0x85#8), (.zpx, 0x95#8), (.abs, 0x8D#8), (.absx, 0x9D#8), (.absy, 0x99#8), (.indx, 0x81#8), (.indy, 0x91#8)].lookup o.mode
  | .stx o => [(.zp, 0x86#8), (.zpy, 0x96#8), (.abs, 0x8E#8)].lookup o.mode
  | .sty o => [(.zp, 0x84#8), (.zpx, 0x94#8), (.abs, 0x8C#8)].lookup o.mode
  | .adc o => [(.imm, 0x69#8), (.zp, 0x65#8), (.zpx, 0x75#8), (.abs, 0x6D#8), (.absx, 0x7D#8), (.absy, 0x79#8), (.indx, 0x61#8), (.indy, 0x71#8)].lookup o.mode
  | .sbc o => [(.imm, 0xE9#8), (.zp, 0xE5#8), (.zpx, 0xF5#8), (.abs, 0xED#8), (.absx, 0xFD#8), (.absy, 0xF9#8), (.indx, 0xE1#8), (.indy, 0xF1#8)].lookup o.mode
  | .and o => [(.imm, 0x29#8), (.zp, 0x25#8), (.zpx, 0x35#8), (.abs, 0x2D#8), (.absx, 0x3D#8), (.absy, 0x39#8), (.indx, 0x21#8), (.indy, 0x31#8)].lookup o.mode
  | .ora o => [(.imm, 0x09#8), (.zp, 0x05#8), (.zpx, 0x15#8), (.abs, 0x0D#8), (.absx, 0x1D#8), (.absy, 0x19#8), (.indx, 0x01#8), (.indy, 0x11#8)].lookup o.mode
  | .eor o => [(.imm, 0x49#8), (.zp, 0x45#8), (.zpx, 0x55#8), (.abs, 0x4D#8), (.absx, 0x5D#8), (.absy, 0x59#8), (.indx, 0x41#8), (.indy, 0x51#8)].lookup o.mode
  | .cmp o => [(.imm, 0xC9#8), (.zp, 0xC5#8), (.zpx, 0xD5#8), (.abs, 0xCD#8), (.absx, 0xDD#8), (.absy, 0xD9#8), (.indx, 0xC1#8), (.indy, 0xD1#8)].lookup o.mode
  | .cpx o => [(.imm, 0xE0#8), (.zp, 0xE4#8), (.abs, 0xEC#8)].lookup o.mode
  | .cpy o => [(.imm, 0xC0#8), (.zp, 0xC4#8), (.abs, 0xCC#8)].lookup o.mode
  | .bit o => [(.zp, 0x24#8), (.abs, 0x2C#8)].lookup o.mode
  | .inc o => [(.zp, 0xE6#8), (.zpx, 0xF6#8), (.abs, 0xEE#8), (.absx, 0xFE#8)].lookup o.mode
  | .dec o => [(.zp, 0xC6#8), (.zpx, 0xD6#8), (.abs, 0xCE#8), (.absx, 0xDE#8)].lookup o.mode
  | .slo o => [(.zp, 0x07#8), (.zpx, 0x17#8), (.abs, 0x0F#8), (.absx, 0x1F#8), (.absy, 0x1B#8), (.indx, 0x03#8), (.indy, 0x13#8)].lookup o.mode
  | .rla o => [(.zp, 0x27#8), (.zpx, 0x37#8), (.abs, 0x2F#8), (.absx, 0x3F#8), (.absy, 0x3B#8), (.indx, 0x23#8), (.indy, 0x33#8)].lookup o.mode
  | .sre o => [(.zp, 0x47#8), (.zpx, 0x57#8), (.abs, 0x4F#8), (.absx, 0x5F#8), (.absy, 0x5B#8), (.indx, 0x43#8), (.indy, 0x53#8)].lookup o.mode
  | .rra o => [(.zp, 0x67#8), (.zpx, 0x77#8), (.abs, 0x6F#8), (.absx, 0x7F#8), (.absy, 0x7B#8), (.indx, 0x63#8), (.indy, 0x73#8)].lookup o.mode
  | .isc o => [(.zp, 0xE7#8), (.zpx, 0xF7#8), (.abs, 0xEF#8), (.absx, 0xFF#8), (.absy, 0xFB#8), (.indx, 0xE3#8), (.indy, 0xF3#8)].lookup o.mode
  | .dcp o => [(.zp, 0xC7#8), (.zpx, 0xD7#8), (.abs, 0xCF#8), (.absx, 0xDF#8), (.absy, 0xDB#8), (.indx, 0xC3#8), (.indy, 0xD3#8)].lookup o.mode
  | .sax o => [(.zp, 0x87#8), (.zpy, 0x97#8), (.abs, 0x8F#8), (.indx, 0x83#8)].lookup o.mode
  | .lax o => [(.zp, 0xA7#8), (.zpy, 0xB7#8), (.abs, 0xAF#8), (.absy, 0xBF#8), (.indx, 0xA3#8), (.indy, 0xB3#8)].lookup o.mode
  | .asl t => [(.acc, 0x0A#8), (.zp, 0x06#8), (.zpx, 0x16#8), (.abs, 0x0E#8), (.absx, 0x1E#8)].lookup t.mode
  | .lsr t => [(.acc, 0x4A#8), (.zp, 0x46#8), (.zpx, 0x56#8), (.abs, 0x4E#8), (.absx, 0x5E#8)].lookup t.mode
  | .rol t => [(.acc, 0x2A#8), (.zp, 0x26#8), (.zpx, 0x36#8), (.abs, 0x2E#8), (.absx, 0x3E#8)].lookup t.mode
  | .ror t => [(.acc, 0x6A#8), (.zp, 0x66#8), (.zpx, 0x76#8), (.abs, 0x6E#8), (.absx, 0x7E#8)].lookup t.mode
  | .jmp o => [(.abs, 0x4C#8), (.ind, 0x6C#8)].lookup o.mode
  | .bpl _ => some 0x10#8
  | .bmi _ => some 0x30#8
  | .bvc _ => some 0x50#8
  | .bvs _ => some 0x70#8
  | .bcc _ => some 0x90#8
  | .bcs _ => some 0xB0#8
  | .bne _ => some 0xD0#8
  | .beq _ => some 0xF0#8
  | .jsr _ => some 0x20#8
  | .tax => some 0xAA#8
  | .tay => some 0xA8#8
  | .txa => some 0x8A#8
  | .tya => some 0x98#8
  | .tsx => some 0xBA#8
  | .txs => some 0x9A#8
  | .inx => some 0xE8#8
  | .iny => some 0xC8#8
  | .dex => some 0xCA#8
  | .dey => some 0x88#8
  | .rts => some 0x60#8
  | .pha => some 0x48#8
  | .pla => some 0x68#8
  | .php => some 0x08#8
  | .plp => some 0x28#8
  | .clc => some 0x18#8
  | .sec => some 0x38#8
  | .cli => some 0x58#8
  | .sei => some 0x78#8
  | .cld => some 0xD8#8
  | .sed => some 0xF8#8
  | .clv => some 0xB8#8
  | .brk => some 0x00#8
  | .rti => some 0x40#8
  | .nop opcode o => if (nopOpcodes (nopMode o)).contains opcode then some opcode else none
  | .jam opcode => if jamOpcodes.contains opcode then some opcode else none
  | .unknown opcode => if unknownOpcodes.contains opcode then some opcode else none

/-- The operand bytes of an instruction (30_encoding.md R80, R82). -/
def Instr.operandBytes : Instr → List Byte
  | .lda o | .ldx o | .ldy o | .sta o | .stx o | .sty o | .adc o | .sbc o | .and o
  | .ora o | .eor o | .cmp o | .cpx o | .cpy o | .bit o | .inc o | .dec o
  | .slo o | .rla o | .sre o | .rra o | .isc o | .dcp o | .sax o | .lax o | .jmp o => o.bytes
  | .asl t | .lsr t | .rol t | .ror t => t.bytes
  | .bpl d | .bmi d | .bvc d | .bvs d | .bcc d | .bcs d | .bne d | .beq d => [d]
  | .jsr w => [lowByte w, highByte w]
  | .nop _ none => []
  | .nop _ (some o) => o.bytes
  | .tax | .tay | .txa | .tya | .tsx | .txs | .inx | .iny | .dex | .dey
  | .rts | .pha | .pla | .php | .plp | .clc | .sec | .cli | .sei | .cld | .sed | .clv | .brk | .rti
  | .jam _ | .unknown _ => []

/-- The length in bytes: one opcode byte and the operand bytes (30_encoding.md R88). BRK's padding byte under
`BRK_RTI_MODE = Standard` is no part of it (log entry 14). -/
def Instr.length (i : Instr) : Nat := 1 + i.operandBytes.length

/-- The bytes of a well-formed instruction, in the order of increasing addresses (30_encoding.md R80). -/
def encode (i : Instr) : List Byte :=
  match i.opcode with
  | some op => op :: i.operandBytes
  | none => []

end Sys2Proof
end

