-- ==== Sys2Proof/Config.lean ====
section
/-! DEFINITION. The named parameters of 00_scope.md R9, the mapper's data (10_state.md R37, 20_memory.md R64), and the
free values: constants without a body, about which nothing can be proved. -/

namespace Sys2Proof

/-- `TOP_CELL_POLICY` (00_scope.md R9, D5): whether cell 0xFFFF exists. -/
inductive TopCellPolicy where
  | cell
  | fault
deriving DecidableEq, Repr

/-- `BRK_RTI_MODE` (00_scope.md R9, D3): whether opcodes 0x00 and 0x40 are fatal or have the Standard effect. -/
inductive BrkRtiMode where
  | fatal
  | standard
deriving DecidableEq, Repr

/-- `MAPPER_ID_NIBBLE` (00_scope.md R9, D29): which nibble of flags-6 is the low nibble of the mapper id. -/
inductive MapperIdNibble where
  | low
  | high
deriving DecidableEq, Repr

/-- The named parameters of 00_scope.md R9 that are plain values. `INITIAL_RAM` is an argument of
`State.atPowerOn`, and `MAPPER_WRITE` is `Config.mapperWrite`. -/
structure Params where
  topCell : TopCellPolicy
  /-- `ZP_PTR_WRAP` (D7). -/
  zpPtrWrap : Bool
  brkRti : BrkRtiMode
  /-- `POWER_ON_AXY` (D12), its three components. -/
  powerOnA : Byte
  powerOnX : Byte
  powerOnY : Byte
  /-- `POWER_ON_PC` (D13). -/
  powerOnPc : Word
  /-- `CLOCK_BITS` (D15); `none` is the unbounded default. -/
  clockBits : Option Nat
  mapperIdNibble : MapperIdNibble
deriving DecidableEq, Repr

/-- The defaults of 00_scope.md R9. DESIGN CHOICE (log entry 5): `MAPPER_ID_NIBBLE` has no default there; `low`
stands here because a value must, and no statement rests on it. -/
def Params.default : Params where
  topCell := .cell
  zpPtrWrap := false
  brkRti := .fatal
  powerOnA := 0x00#8
  powerOnX := 0x00#8
  powerOnY := 0x00#8
  powerOnPc := 0x0000#16
  clockBits := none
  mapperIdNibble := .low

/-- The kinds of mapper: NROM is the only implementation (10_state.md R37, 00_scope.md R8). -/
inductive MapperKind where
  | nrom
deriving DecidableEq, Repr, Inhabited

/-- A mapper's description record (20_memory.md R64). -/
structure MapperDesc where
  resetVector : Word
  registersStart : Word
  registersEnd : Word
deriving DecidableEq, Repr, Inhabited

/-- An installed mapper: its kind, the byte buffers it owns and its description (10_state.md R37). -/
structure Mapper where
  kind : MapperKind
  prg : List Byte
  chr : List Byte
  desc : MapperDesc
deriving DecidableEq, Repr, Inhabited

/-- `MAPPER_WRITE` (00_scope.md R9, 20_memory.md R66, D28: OPEN): the mapper after its register-write interceptor was
called with the mirrored address and the byte. A free value (log entry 10): no NROM run reaches it. -/
opaque Config.mapperWrite : Mapper → Word → Byte → Mapper

/-- The opcode recorded when the opcode fetch itself raises `TopCellAccess` (60_exceptions.md R222 records "the opcode
... of the instruction in progress", and none has been read). A free value (log entry 9). -/
opaque Config.unfetchedOpcode : Nat → Byte

end Sys2Proof
end

