-- ==== Sys2Proof/Machine/State.lean ====
section
/-! DEFINITION. The state of the block (10_state.md R20 to R42), as plain data, and the state after reset. -/

namespace Sys2Proof.Machine

/-- The storage array `mem` (10_state.md R36): the cells that do not hold `Memory.unlisted`, by rising address. -/
abbrev Memory := List Host.Cell

/-- What an unlisted cell reads as. DESIGN CHOICE (log entry 1): the spec makes the first contents a draw
(`INITIAL_RAM`, 70_reset_and_hazards.md R241), so only `State.reset` rests on this byte; any other contents are a
listed memory, and statements range over every memory. -/
def Memory.unlisted : Byte := 0x00#8

/-- The canonical form from address `lo` upward: addresses rise strictly and stay below 65536, and no cell is listed
with the byte an unlisted cell reads as. -/
def Memory.wfFrom : Nat → Memory → Bool
  | _, [] => true
  | lo, (a, v) :: rest => decide (lo ≤ a) && decide (a < 65536) && (v != Memory.unlisted) && Memory.wfFrom (a + 1) rest

/-- The canonical form of the storage array: equal arrays are equal lists. -/
def Memory.wf (m : Memory) : Bool := Memory.wfFrom 0 m

/-- The bits of the status register (10_state.md R25). -/
inductive Flag where
  | c | z | i | d | b | u | v | n
deriving DecidableEq, Repr

/-- The kinds of fatal condition a step can raise (10_state.md R38). -/
inductive FatalKind where
  /-- 60_exceptions.md R221. -/
  | unimplementedOpcode
  /-- 60_exceptions.md R222. -/
  | topCellAccess
deriving DecidableEq, Repr

/-- The record of a fatal condition (10_state.md R38): its kind, the opcode executed and the address it came from. -/
structure FatalRecord where
  kind : FatalKind
  opcode : Byte
  addr : Word
deriving DecidableEq, Repr

/-- The state of 10_state.md R42, with the host's master clock (R41) and two fields of the model's own: the named
parameters, which nothing writes, and the counter of free values drawn. -/
structure State where
  /-- R20. -/
  a : Byte
  /-- R21. -/
  x : Byte
  /-- R22. -/
  y : Byte
  /-- R23. -/
  sp : Byte
  /-- R24. -/
  pc : Word
  /-- R25. -/
  p : Byte
  /-- R36. -/
  mem : Memory
  /-- R37. -/
  mapper : Option Mapper
  /-- R34. -/
  halted : Bool
  /-- R38. -/
  fault : Option FatalRecord
  /-- R35. -/
  internalClock : Nat
  /-- R41. -/
  masterClock : Nat
  /-- 00_scope.md R9 (log entry 4). -/
  params : Params
  /-- The number of free values drawn (log entry 9). -/
  freeDraws : Nat
deriving DecidableEq, Repr

/-- Why no step exists. A fatal condition met by an instruction is not one of these: it is a next state that records it
(60_exceptions.md R221, R222); these stop the step after it. -/
inductive Fault where
  /-- `step`, when `halted` is set: the defined end of a run (30_encoding.md R94, 60_exceptions.md R235). Safe. -/
  | halted
  /-- `step`, when a fatal condition is recorded (30_encoding.md R94). Safe. -/
  | fatal (record : FatalRecord)
deriving DecidableEq, Repr

/-- Why a step or an instruction has no meaning. -/
inductive Refusal where
  /-- `exec`, for an instruction without a meaning; no arm raises it. Safe. -/
  | notModelled (mnemonic : String)
  /-- `step`, before the first `load_rom` (70_reset_and_hazards.md R247). Safe. -/
  | noMapper
  /-- A meaning, for a term that is no instruction (`Instr.wf` is false); no step raises it. Safe (log entry 21). -/
  | illFormed
  /-- `step`, for bytes the decoder refuses; the fetch reads as many bytes as the opcode's mode has, so none is.
  Safe. -/
  | undecodable (op : Byte)
deriving DecidableEq, Repr

/-- The state after the first `power_on` with the given parameters and first contents of the storage array
(70_reset_and_hazards.md R240, R241): no mapper is installed yet (10_state.md R37). -/
def State.atPowerOn (params : Params) (initialRam : Memory) : State where
  a := params.powerOnA
  x := params.powerOnX
  y := params.powerOnY
  sp := 0xFD#8
  pc := params.powerOnPc
  p := 0x34#8
  mem := initialRam
  mapper := none
  halted := false
  fault := none
  internalClock := 0
  masterClock := 0
  params := params
  freeDraws := 0

/-- The machine right after reset: `State.atPowerOn` with the default parameters (log entries 2, 3, 5) and with nothing
listed in the storage array (log entry 1). -/
def State.reset : State := State.atPowerOn Params.default []

end Sys2Proof.Machine
end

