-- ==== Sys2Proof/Machine/Ops.lean ====
section
/-! DEFINITION. The named operations over memory and registers: the storage array, the bus (20_memory.md R46 to R55), the
stack (R57, R58), the instruction stream (30_encoding.md R81), the fatal condition (60_exceptions.md R221, R222), the
BRK entry and the RTI return (R226, R227), and what every instruction does around its own effect (30_encoding.md R89). -/

namespace Sys2Proof.Machine

/-! ## The storage array (10_state.md R36) -/

/-- The byte of cell `a`. -/
def Memory.read : Memory → Nat → Byte
  | [], _ => Memory.unlisted
  | (k, v) :: rest, a => if k = a then v else Memory.read rest a

/-- Lists byte `v` for cell `a`, keeping the addresses rising. -/
def Memory.insert : Memory → Nat → Byte → Memory
  | [], a, v => [(a, v)]
  | (k, w) :: rest, a, v =>
    if a < k then (a, v) :: (k, w) :: rest
    else if a = k then (a, v) :: rest
    else (k, w) :: Memory.insert rest a v

/-- Stores byte `v` in cell `a`; the byte an unlisted cell reads as is not listed. -/
def Memory.write (m : Memory) (a : Nat) (v : Byte) : Memory :=
  if v = Memory.unlisted then m.filter (fun cell => cell.1 != a) else Memory.insert m a v

/-- Stores bytes at `a`, `a + 1`, …, in that order. -/
def Memory.writeBytes : Memory → Nat → List Byte → Memory
  | m, _, [] => m
  | m, a, v :: rest => Memory.writeBytes (Memory.write m a v) (a + 1) rest

/-! ## Address decoding (20_memory.md R46 to R50, R53) -/

/-- `zext_16` (00_scope.md R10). -/
def zext (b : Byte) : Word := b.setWidth 16

/-- `sext_16` (00_scope.md R10). -/
def sext (b : Byte) : Word := b.signExtend 16

/-- `Mirror(a)` (20_memory.md R46). -/
def mirror (a : Word) : Word :=
  if a ≤ 0x1FFF#16 then a &&& 0x07FF#16
  else if a ≤ 0x3FFF#16 then a &&& 0x2007#16
  else a

/-- `IsStub(m)` (20_memory.md R50). -/
def isStub (m : Word) : Bool :=
  (decide (0x2000#16 ≤ m) && decide (m ≤ 0x2007#16)) || (decide (0x4000#16 ≤ m) && decide (m ≤ 0x401F#16))

/-- `Covers(desc, m)` (20_memory.md R53). -/
def covers (desc : MapperDesc) (m : Word) : Bool :=
  !(desc.registersStart == 0x0000#16 && desc.registersEnd == 0x0000#16) &&
    (decide (desc.registersStart ≤ m) && decide (m ≤ desc.registersEnd))

/-- The installed mapper whose register window covers mirrored address `m` (20_memory.md R52, R53). -/
def State.windowMapper (s : State) (m : Word) : Option Mapper :=
  match s.mapper with
  | some mp => if covers mp.desc m then some mp else none
  | none => none

/-- An access to mirrored address `m` meets the missing top cell (20_memory.md R79). -/
def State.topCellFaults (s : State) (m : Word) : Bool :=
  m == 0xFFFF#16 && decide (s.params.topCell = .fault)

/-! ## Reading through the bus -/

/-- `MemRead(a, 1)` (20_memory.md R51): the byte a bus read of `a` gives; none is `TopCellAccess`. A read changes no
state. -/
def State.peek (s : State) (a : Word) : Option Byte :=
  let m := mirror a
  if isStub m then some 0x00#8
  else if s.topCellFaults m then none
  else some (s.mem.read m.toNat)

/-- `MemRead(a, 2)` (20_memory.md R54): the low byte at `a`, the high byte at `a +16 1`, in that order. -/
def State.peekWord (s : State) (a : Word) : Option Word :=
  (s.peek a).bind fun lo => (s.peek (a + 1)).map fun hi => word hi lo

/-! ## Effects that a fatal condition can cut short -/

/-- The outcome of a part of an instruction: a value and the state reached, or a fatal condition and the state as the
effects before it left it (00_scope.md R14, 60_exceptions.md R222). -/
inductive Access (α : Type) where
  | ok (value : α) (s : State)
  | fatal (kind : FatalKind) (left : State)

/-- One part after another (00_scope.md R15). -/
def Access.andThen {α β : Type} (x : Access α) (f : α → State → Access β) : Access β :=
  match x with
  | .ok v s => f v s
  | .fatal kind left => .fatal kind left

/-- A read as a part of an instruction. -/
def Access.ofRead {α : Type} (r : Option α) (s : State) : Access α :=
  match r with
  | some v => .ok v s
  | none => .fatal .topCellAccess s

/-- A change of registers as a part of an instruction. -/
def Access.set (s : State) : Access Unit := .ok () s

/-- `MemWrite(a, 1, v)` (20_memory.md R52): discarded in a stub window, delegated inside the mapper's register window,
stored otherwise. -/
def busWrite (a : Word) (v : Byte) (s : State) : Access Unit :=
  let m := mirror a
  if isStub m then .ok () s
  else
    match s.windowMapper m with
    | some mp => .ok () { s with mapper := some (Config.mapperWrite mp m v) }
    | none =>
      if s.topCellFaults m then .fatal .topCellAccess s
      else .ok () { s with mem := s.mem.write m.toNat v }

/-- `MemWrite(a, 2, v)` (20_memory.md R55): the low byte, then the high byte. No instruction performs it. -/
def busWriteWord (a : Word) (v : Word) (s : State) : Access Unit :=
  (busWrite a (lowByte v) s).andThen fun _ s => busWrite (a + 1) (highByte v) s

/-! ## The stack (20_memory.md R57 to R59) -/

/-- `Push(v)` (R57). -/
def push (v : Byte) (s : State) : Access Unit :=
  busWrite (zext (s.sp - 1)) v { s with sp := s.sp - 1 }

/-- `Pull()` (R58). -/
def pull (s : State) : Access Byte :=
  (Access.ofRead (s.peek (zext s.sp)) s).andThen fun v s => .ok v { s with sp := s.sp + 1 }

/-- Pushes a word, the high byte first (44_control_stack_flags.md R185). -/
def pushWord (w : Word) (s : State) : Access Unit :=
  (push (highByte w) s).andThen fun _ s => push (lowByte w) s

/-- Pulls a word, the low byte first (44_control_stack_flags.md R186). -/
def pullWord (s : State) : Access Word :=
  (pull s).andThen fun lo s => (pull s).andThen fun hi s => .ok (word hi lo) s

/-! ## The instruction stream (30_encoding.md R81) -/

/-- `Fetch8()`: PC advances after the read, so a read that faults leaves it. -/
def fetch8 (s : State) : Access Byte :=
  (Access.ofRead (s.peek s.pc) s).andThen fun v s => .ok v { s with pc := s.pc + 1 }

/-- `Fetch16()`: PC advances after both reads. -/
def fetch16 (s : State) : Access Word :=
  (Access.ofRead (s.peekWord s.pc) s).andThen fun w s => .ok w { s with pc := s.pc + 2 }

/-! ## The status register as a whole -/

/-- The byte PHP pushes (44_control_stack_flags.md R189). -/
def pushedStatus (p : Byte) : Byte := p ||| 0x30#8

/-- The status after a pull of `v` (44_control_stack_flags.md R190). -/
def pulledStatus (v p : Byte) : Byte := (v &&& 0xEF#8) ||| (p &&& 0x10#8) ||| 0x20#8

/-! ## Fatal conditions, the BRK entry and the RTI return -/

/-- `raise Fatal(kind, op, at)` (00_scope.md R14, 60_exceptions.md R221, R222, R225): the record is made in the state the
effects before it left; nothing else changes, and nothing is pushed or redirected. -/
def State.raiseFatal (left : State) (kind : FatalKind) (op : Byte) (addr : Word) : State :=
  { left with fault := some { kind := kind, opcode := op, addr := addr } }

/-- The BRK entry under `BRK_RTI_MODE = Standard` (60_exceptions.md R226), PC being past the opcode: the padding byte is
fetched, PC and the status are pushed, I is set, and PC is read from 0xFFFE. -/
def enterBreak (s : State) : Access Unit :=
  (fetch8 s).andThen fun _ s =>
  (pushWord s.pc s).andThen fun _ s =>
  (push (pushedStatus s.p) s).andThen fun _ s =>
  let s := { s with p := s.p ||| 0x04#8 }
  (Access.ofRead (s.peekWord 0xFFFE#16) s).andThen fun target s =>
  .set { s with pc := target }

/-- The RTI return under `BRK_RTI_MODE = Standard` (60_exceptions.md R227): the status is pulled as PLP pulls it, then
PC, with no increment. -/
def returnFromBreak (s : State) : Access Unit :=
  (pull s).andThen fun v s =>
  let s := { s with p := pulledStatus v s.p }
  (pullWord s).andThen fun target s =>
  .set { s with pc := target }

/-! ## What every instruction does (30_encoding.md R89, R90) -/

/-- A clock value as `CLOCK_BITS` bits hold it (10_state.md R35, R41). -/
def clockValue (params : Params) (n : Nat) : Nat :=
  match params.clockBits with
  | none => n
  | some bits => n % 2 ^ bits

/-- The completed instruction is counted (30_encoding.md R90). -/
def State.retire (s : State) : State :=
  { s with internalClock := clockValue s.params (s.internalClock + 1) }

/-- PC past the instruction's bytes (10_state.md R24). -/
def State.past (s : State) (i : Instr) : State :=
  { s with pc := s.pc + BitVec.ofNat 16 i.length }

/-- Runs an instruction whose opcode is at PC: PC moves past its bytes, its own effect follows, and the instruction is
counted. A fatal condition is recorded in the state the effects before it left, and the instruction is not counted
(60_exceptions.md R221, R222). -/
def perform (i : Instr) (effect : State → Access Unit) (s : State) : Host.Outcome State Fault Refusal :=
  match i.opcode with
  | none => .refused .illFormed
  | some op =>
    match effect (s.past i) with
    | .ok _ t => .next t.retire
    | .fatal kind left => .next (left.raiseFatal kind op s.pc)

end Sys2Proof.Machine
end

