-- ==== Sys2Proof/Machine/Flags.lean ====
section
/-! DEFINITION. The status bits (10_state.md R25), the flag rules and the arithmetic that sets flags (42_alu.md R140, R141,
R147, 43_shift_rotate.md R165). -/

namespace Sys2Proof.Machine

/-- The bit position of a flag (10_state.md R25). -/
def Flag.index : Flag → Nat
  | .c => 0
  | .z => 1
  | .i => 2
  | .d => 3
  | .b => 4
  | .u => 5
  | .v => 6
  | .n => 7

/-- The status byte with only that flag set. -/
def Flag.mask (f : Flag) : Byte := 1#8 <<< f.index

/-- `P.<flag>` (00_scope.md R12). -/
def State.flag (s : State) (f : Flag) : Bool := s.p.getLsbD f.index

/-- `P.<flag> <- b` (00_scope.md R12): the other bits keep their values. -/
def State.setFlag (s : State) (f : Flag) (b : Bool) : State :=
  { s with p := if b then s.p ||| f.mask else s.p &&& ~~~f.mask }

/-- `SetZN(v)` (42_alu.md R140). -/
def State.setZN (s : State) (v : Byte) : State :=
  (s.setFlag .z (v == 0x00#8)).setFlag .n (v.getLsbD 7)

/-- What the adder gives: the byte, the carry out and the signed overflow. -/
structure Sum where
  byte : Byte
  carry : Bool
  overflow : Bool
deriving DecidableEq, Repr

/-- `AddWithCarry(a, b, c)` (42_alu.md R141): the exact sum, its byte, and what the byte lost. -/
def addWithCarry (a b : Byte) (c : Bool) : Sum :=
  let s := a.toNat + b.toNat + c.toNat
  let r : Byte := BitVec.ofNat 8 s
  { byte := r
    carry := decide (256 ≤ s)
    overflow := a.getLsbD 7 == b.getLsbD 7 && r.getLsbD 7 != a.getLsbD 7 }

/-- ADC of the byte `m` (42_alu.md R142); the decimal flag is not read (R159). -/
def State.addToA (s : State) (m : Byte) : State :=
  let r := addWithCarry s.a m (s.flag .c)
  ((({ s with a := r.byte }).setFlag .c r.carry).setFlag .v r.overflow).setZN r.byte

/-- SBC of the byte `m` (42_alu.md R143): ADC of its complement. -/
def State.subFromA (s : State) (m : Byte) : State := s.addToA (~~~m)

/-- `A <- v; SetZN(A)`, the end of every logic instruction (42_alu.md R144 to R146) and of LDA, TXA, TYA and PLA. -/
def State.resultInA (s : State) (v : Byte) : State := ({ s with a := v }).setZN v

/-- `X <- v; SetZN(X)`. -/
def State.resultInX (s : State) (v : Byte) : State := ({ s with x := v }).setZN v

/-- `Y <- v; SetZN(Y)`. -/
def State.resultInY (s : State) (v : Byte) : State := ({ s with y := v }).setZN v

/-- `Compare(reg, m)` (42_alu.md R147). -/
def State.compare (s : State) (reg m : Byte) : State :=
  (s.setFlag .c (decide (m ≤ reg))).setZN (reg - m)

/-- BIT of the byte `m` (42_alu.md R151). -/
def State.bitTest (s : State) (m : Byte) : State :=
  ((s.setFlag .z (s.a &&& m == 0x00#8)).setFlag .v (m.getLsbD 6)).setFlag .n (m.getLsbD 7)

/-- A carry as a byte. -/
def carryByte (c : Bool) : Byte := if c then 0x01#8 else 0x00#8

/-- `ShiftL(o)` (43_shift_rotate.md R165). -/
def shiftL (o : Byte) (s : State) : Byte × State := (o <<< 1, s.setFlag .c (o.getLsbD 7))

/-- `ShiftR(o)` (43_shift_rotate.md R165). -/
def shiftR (o : Byte) (s : State) : Byte × State := (o >>> 1, s.setFlag .c (o.getLsbD 0))

/-- `RotL(o)` (43_shift_rotate.md R165): the carry is read before it is written. -/
def rotL (o : Byte) (s : State) : Byte × State :=
  (o <<< 1 ||| carryByte (s.flag .c), s.setFlag .c (o.getLsbD 7))

/-- `RotR(o)` (43_shift_rotate.md R165): the carry is read before it is written. -/
def rotR (o : Byte) (s : State) : Byte × State :=
  (o >>> 1 ||| carryByte (s.flag .c) <<< 7, s.setFlag .c (o.getLsbD 0))

/-- `λo. o +8 1` (42_alu.md R152): no flag of its own. -/
def increment (o : Byte) (s : State) : Byte × State := (o + 1, s)

/-- `λo. o -8 1` (42_alu.md R153): no flag of its own. -/
def decrement (o : Byte) (s : State) : Byte × State := (o - 1, s)

end Sys2Proof.Machine
end

