-- ==== Sys2Proof/Machine/Operands.lean ====
section
/-! DEFINITION. The addressing-mode resolver (40_addressing.md R103 to R117) on operands whose bytes have been fetched, PC
being past the instruction. Resolution reads and never writes, so it is a function of the state; none is
`TopCellAccess`. -/

namespace Sys2Proof.Machine

/-- `ZpPtr(p)` (40_addressing.md R117): the low byte at `p`, the high byte at the next address, inside the zero page
under `ZP_PTR_WRAP`. -/
def State.zpPointer (s : State) (p : Byte) : Option Word :=
  (s.peek (zext p)).bind fun lo =>
    (s.peek (if s.params.zpPtrWrap then zext (p + 1) else zext p + 1)).map fun hi => word hi lo

/-- The address the high byte of an indirect jump's target is read from (40_addressing.md R110: the page-boundary
bug). -/
def indirectHighAddr (p : Word) : Word :=
  if lowByte p = 0xFF#8 then p &&& 0xFF00#16 else p + 1

/-- `EA(ind)` (40_addressing.md R110). -/
def State.indirectTarget (s : State) (p : Word) : Option Word :=
  (s.peek p).bind fun lo => (s.peek (indirectHighAddr p)).map fun hi => word hi lo

/-- `EA(mode)` (40_addressing.md R103 to R112). -/
def State.ea (s : State) : Operand → Option Word
  | .imm _ => some (s.pc - 1)
  | .zp b => some (zext b)
  | .zpx b => some (zext (b + s.x))
  | .zpy b => some (zext (b + s.y))
  | .abs w => some w
  | .absx w => some (w + zext s.x)
  | .absy w => some (w + zext s.y)
  | .ind w => s.indirectTarget w
  | .indx b => s.zpPointer (b + s.x)
  | .indy b => (s.zpPointer b).map fun w => w + zext s.y

/-- `Operand(mode)` (40_addressing.md R114); the byte at an immediate operand's address is the operand byte that the
fetch read (log entry 13). -/
def State.operand (s : State) : Operand → Option Byte
  | .imm v => some v
  | o => (s.ea o).bind s.peek

/-- A reading instruction: `let m = Operand(mode)`, then an effect on registers and flags. -/
def reading (o : Operand) (f : Byte → State → State) (s : State) : Access Unit :=
  (Access.ofRead (s.operand o) s).andThen fun m s => .set (f m s)

/-- `Store(mode, v)` (40_addressing.md R116). -/
def storing (o : Operand) (v : Byte) (s : State) : Access Unit :=
  (Access.ofRead (s.ea o) s).andThen fun ea s => busWrite ea v s

/-- `RMW(mode, f)` at an effective address (40_addressing.md R115): one read, `f` with its flag writes, one write. -/
def rmw (o : Operand) (f : Byte → State → Byte × State) (s : State) : Access Byte :=
  (Access.ofRead (s.ea o) s).andThen fun ea s =>
  (Access.ofRead (s.peek ea) s).andThen fun old s =>
  (busWrite ea (f old s).1 (f old s).2).andThen fun _ t => .ok (f old s).1 t

/-- `RMW(mode, f)` (40_addressing.md R115), on the accumulator in the acc mode. -/
def rmwTarget (t : Target) (f : Byte → State → Byte × State) (s : State) : Access Byte :=
  match t with
  | .acc => .ok (f s.a s).1 { (f s.a s).2 with a := (f s.a s).1 }
  | .mem o => rmw o f s

end Sys2Proof.Machine
end

