-- ==== Sys2Proof/Machine/Alu.lean ====
section
/-! DEFINITION. Arithmetic, logic, compare, bit test, increment and decrement (42_alu.md R142 to R157). -/

namespace Sys2Proof.Machine

/-- R142. -/
def execAdc (o : Operand) (s : State) : Host.Outcome State Fault Refusal :=
  perform (.adc o) (reading o fun m s => s.addToA m) s

/-- R143. -/
def execSbc (o : Operand) (s : State) : Host.Outcome State Fault Refusal :=
  perform (.sbc o) (reading o fun m s => s.subFromA m) s

/-- R144. -/
def execAnd (o : Operand) (s : State) : Host.Outcome State Fault Refusal :=
  perform (.and o) (reading o fun m s => s.resultInA (s.a &&& m)) s

/-- R145. -/
def execOra (o : Operand) (s : State) : Host.Outcome State Fault Refusal :=
  perform (.ora o) (reading o fun m s => s.resultInA (s.a ||| m)) s

/-- R146. -/
def execEor (o : Operand) (s : State) : Host.Outcome State Fault Refusal :=
  perform (.eor o) (reading o fun m s => s.resultInA (s.a ^^^ m)) s

/-- R148. -/
def execCmp (o : Operand) (s : State) : Host.Outcome State Fault Refusal :=
  perform (.cmp o) (reading o fun m s => s.compare s.a m) s

/-- R149. -/
def execCpx (o : Operand) (s : State) : Host.Outcome State Fault Refusal :=
  perform (.cpx o) (reading o fun m s => s.compare s.x m) s

/-- R150. -/
def execCpy (o : Operand) (s : State) : Host.Outcome State Fault Refusal :=
  perform (.cpy o) (reading o fun m s => s.compare s.y m) s

/-- R151. -/
def execBit (o : Operand) (s : State) : Host.Outcome State Fault Refusal :=
  perform (.bit o) (reading o fun m s => s.bitTest m) s

/-- R152. -/
def execInc (o : Operand) (s : State) : Host.Outcome State Fault Refusal :=
  perform (.inc o) (fun s => (rmw o increment s).andThen fun r s => .set (s.setZN r)) s

/-- R153. -/
def execDec (o : Operand) (s : State) : Host.Outcome State Fault Refusal :=
  perform (.dec o) (fun s => (rmw o decrement s).andThen fun r s => .set (s.setZN r)) s

/-- R154. -/
def execInx (s : State) : Host.Outcome State Fault Refusal :=
  perform .inx (fun s => .set (s.resultInX (s.x + 1))) s

/-- R155. -/
def execIny (s : State) : Host.Outcome State Fault Refusal :=
  perform .iny (fun s => .set (s.resultInY (s.y + 1))) s

/-- R156. -/
def execDex (s : State) : Host.Outcome State Fault Refusal :=
  perform .dex (fun s => .set (s.resultInX (s.x - 1))) s

/-- R157. -/
def execDey (s : State) : Host.Outcome State Fault Refusal :=
  perform .dey (fun s => .set (s.resultInY (s.y - 1))) s

end Sys2Proof.Machine
end

