-- ==== Sys2Proof/Machine/Control.lean ====
section
/-! DEFINITION. Branches, jumps and subroutines (44_control_stack_flags.md R175 to R186). -/

namespace Sys2Proof.Machine

/-- `Branch(cond)` (R175), PC being past the displacement byte `d`. -/
def branch (d : Byte) (cond : State → Bool) (s : State) : Access Unit :=
  .set (if cond s then { s with pc := s.pc + sext d } else s)

/-- R176. -/
def execBpl (d : Byte) (s : State) : Host.Outcome State Fault Refusal :=
  perform (.bpl d) (branch d fun s => !s.flag .n) s

/-- R177. -/
def execBmi (d : Byte) (s : State) : Host.Outcome State Fault Refusal :=
  perform (.bmi d) (branch d fun s => s.flag .n) s

/-- R178. -/
def execBvc (d : Byte) (s : State) : Host.Outcome State Fault Refusal :=
  perform (.bvc d) (branch d fun s => !s.flag .v) s

/-- R179. -/
def execBvs (d : Byte) (s : State) : Host.Outcome State Fault Refusal :=
  perform (.bvs d) (branch d fun s => s.flag .v) s

/-- R180. -/
def execBcc (d : Byte) (s : State) : Host.Outcome State Fault Refusal :=
  perform (.bcc d) (branch d fun s => !s.flag .c) s

/-- R181. -/
def execBcs (d : Byte) (s : State) : Host.Outcome State Fault Refusal :=
  perform (.bcs d) (branch d fun s => s.flag .c) s

/-- R182. -/
def execBne (d : Byte) (s : State) : Host.Outcome State Fault Refusal :=
  perform (.bne d) (branch d fun s => !s.flag .z) s

/-- R183. -/
def execBeq (d : Byte) (s : State) : Host.Outcome State Fault Refusal :=
  perform (.beq d) (branch d fun s => s.flag .z) s

/-- R184. -/
def execJmp (o : Operand) (s : State) : Host.Outcome State Fault Refusal :=
  perform (.jmp o) (fun s => (Access.ofRead (s.ea o) s).andThen fun ea s => .set { s with pc := ea }) s

/-- R185: the pushed word is PC, past the instruction, minus one. -/
def execJsr (target : Word) (s : State) : Host.Outcome State Fault Refusal :=
  perform (.jsr target) (fun s => (pushWord (s.pc - 1) s).andThen fun _ s => .set { s with pc := target }) s

/-- R186. -/
def execRts (s : State) : Host.Outcome State Fault Refusal :=
  perform .rts (fun s => (pullWord s).andThen fun w s => .set { s with pc := w + 1 }) s

end Sys2Proof.Machine
end

