-- ==== Sys2Proof/Machine/LoadStore.lean ====
section
/-! DEFINITION. Loads, stores and register transfers (41_load_store_transfer.md R120 to R131). -/

namespace Sys2Proof.Machine

/-- R120. -/
def execLda (o : Operand) (s : State) : Host.Outcome State Fault Refusal :=
  perform (.lda o) (reading o fun m s => s.resultInA m) s

/-- R121. -/
def execLdx (o : Operand) (s : State) : Host.Outcome State Fault Refusal :=
  perform (.ldx o) (reading o fun m s => s.resultInX m) s

/-- R122. -/
def execLdy (o : Operand) (s : State) : Host.Outcome State Fault Refusal :=
  perform (.ldy o) (reading o fun m s => s.resultInY m) s

/-- R123. -/
def execSta (o : Operand) (s : State) : Host.Outcome State Fault Refusal :=
  perform (.sta o) (fun s => storing o s.a s) s

/-- R124. -/
def execStx (o : Operand) (s : State) : Host.Outcome State Fault Refusal :=
  perform (.stx o) (fun s => storing o s.x s) s

/-- R125. -/
def execSty (o : Operand) (s : State) : Host.Outcome State Fault Refusal :=
  perform (.sty o) (fun s => storing o s.y s) s

/-- R126. -/
def execTax (s : State) : Host.Outcome State Fault Refusal :=
  perform .tax (fun s => .set (s.resultInX s.a)) s

/-- R127. -/
def execTay (s : State) : Host.Outcome State Fault Refusal :=
  perform .tay (fun s => .set (s.resultInY s.a)) s

/-- R128. -/
def execTxa (s : State) : Host.Outcome State Fault Refusal :=
  perform .txa (fun s => .set (s.resultInA s.x)) s

/-- R129. -/
def execTya (s : State) : Host.Outcome State Fault Refusal :=
  perform .tya (fun s => .set (s.resultInA s.y)) s

/-- R130. -/
def execTsx (s : State) : Host.Outcome State Fault Refusal :=
  perform .tsx (fun s => .set (s.resultInX s.sp)) s

/-- R131: no flag. -/
def execTxs (s : State) : Host.Outcome State Fault Refusal :=
  perform .txs (fun s => .set { s with sp := s.x }) s

end Sys2Proof.Machine
end

