-- ==== Sys2Proof/Machine/Shift.lean ====
section
/-! DEFINITION. Shifts and rotates (43_shift_rotate.md R166 to R169). -/

namespace Sys2Proof.Machine

/-- R166. -/
def execAsl (t : Target) (s : State) : Host.Outcome State Fault Refusal :=
  perform (.asl t) (fun s => (rmwTarget t shiftL s).andThen fun r s => .set (s.setZN r)) s

/-- R167. -/
def execLsr (t : Target) (s : State) : Host.Outcome State Fault Refusal :=
  perform (.lsr t) (fun s => (rmwTarget t shiftR s).andThen fun r s => .set (s.setZN r)) s

/-- R168. -/
def execRol (t : Target) (s : State) : Host.Outcome State Fault Refusal :=
  perform (.rol t) (fun s => (rmwTarget t rotL s).andThen fun r s => .set (s.setZN r)) s

/-- R169. -/
def execRor (t : Target) (s : State) : Host.Outcome State Fault Refusal :=
  perform (.ror t) (fun s => (rmwTarget t rotR s).andThen fun r s => .set (s.setZN r)) s

end Sys2Proof.Machine
end

