-- ==== Sys2Proof/Machine/Stack.lean ====
section
/-! DEFINITION. Stack and flag instructions (44_control_stack_flags.md R187 to R197). -/

namespace Sys2Proof.Machine

/-- R187. -/
def execPha (s : State) : Host.Outcome State Fault Refusal :=
  perform .pha (fun s => push s.a s) s

/-- R188. -/
def execPla (s : State) : Host.Outcome State Fault Refusal :=
  perform .pla (fun s => (pull s).andThen fun v s => .set (s.resultInA v)) s

/-- R189. -/
def execPhp (s : State) : Host.Outcome State Fault Refusal :=
  perform .php (fun s => push (pushedStatus s.p) s) s

/-- R190. -/
def execPlp (s : State) : Host.Outcome State Fault Refusal :=
  perform .plp (fun s => (pull s).andThen fun v s => .set { s with p := pulledStatus v s.p }) s

/-- R191. -/
def execClc (s : State) : Host.Outcome State Fault Refusal :=
  perform .clc (fun s => .set (s.setFlag .c false)) s

/-- R192. -/
def execSec (s : State) : Host.Outcome State Fault Refusal :=
  perform .sec (fun s => .set (s.setFlag .c true)) s

/-- R193. -/
def execCli (s : State) : Host.Outcome State Fault Refusal :=
  perform .cli (fun s => .set (s.setFlag .i false)) s

/-- R194. -/
def execSei (s : State) : Host.Outcome State Fault Refusal :=
  perform .sei (fun s => .set (s.setFlag .i true)) s

/-- R195. -/
def execCld (s : State) : Host.Outcome State Fault Refusal :=
  perform .cld (fun s => .set (s.setFlag .d false)) s

/-- R196. -/
def execSed (s : State) : Host.Outcome State Fault Refusal :=
  perform .sed (fun s => .set (s.setFlag .d true)) s

/-- R197. -/
def execClv (s : State) : Host.Outcome State Fault Refusal :=
  perform .clv (fun s => .set (s.setFlag .v false)) s

end Sys2Proof.Machine
end

