-- ==== Sys2Proof/Machine/System.lean ====
section
/-! DEFINITION. BRK, RTI and the opcodes the block does not decode (60_exceptions.md R221, R226 to R228). -/

namespace Sys2Proof.Machine

/-- R228 under `BRK_RTI_MODE = Fatal`, R226 under `Standard`. -/
def execBrk (s : State) : Host.Outcome State Fault Refusal :=
  perform .brk
    (fun s =>
      match s.params.brkRti with
      | .fatal => .fatal .unimplementedOpcode s
      | .standard => enterBreak s) s

/-- R228 under `BRK_RTI_MODE = Fatal`, R227 under `Standard`. -/
def execRti (s : State) : Host.Outcome State Fault Refusal :=
  perform .rti
    (fun s =>
      match s.params.brkRti with
      | .fatal => .fatal .unimplementedOpcode s
      | .standard => returnFromBreak s) s

/-- R221: the fatal condition is recorded; PC is past the opcode. -/
def execUnknown (opcode : Byte) (s : State) : Host.Outcome State Fault Refusal :=
  perform (.unknown opcode) (fun s => .fatal .unimplementedOpcode s) s

end Sys2Proof.Machine
end

