-- ==== Sys2Proof/Machine/Undocumented.lean ====
section
/-! DEFINITION. The combined instructions, SAX, LAX, the no-ops and the halt class (45_undocumented.md R200 to R211). -/

namespace Sys2Proof.Machine

/-- `Combined(mode, first, second)` (R200): the second primitive works on the byte the first one wrote. -/
def combined (o : Operand) (first : Byte → State → Byte × State) (second : Byte → State → State) (s : State) :
    Access Unit :=
  (rmw o first s).andThen fun r s => .set (second r s)

/-- R201: ASL, then ORA. -/
def execSlo (o : Operand) (s : State) : Host.Outcome State Fault Refusal :=
  perform (.slo o) (combined o shiftL fun r s => s.resultInA (s.a ||| r)) s

/-- R202: ROL, then AND. -/
def execRla (o : Operand) (s : State) : Host.Outcome State Fault Refusal :=
  perform (.rla o) (combined o rotL fun r s => s.resultInA (s.a &&& r)) s

/-- R203: LSR, then EOR. -/
def execSre (o : Operand) (s : State) : Host.Outcome State Fault Refusal :=
  perform (.sre o) (combined o shiftR fun r s => s.resultInA (s.a ^^^ r)) s

/-- R204: ROR, then ADC with the bit ROR shifted out as the carry in. -/
def execRra (o : Operand) (s : State) : Host.Outcome State Fault Refusal :=
  perform (.rra o) (combined o rotR fun r s => s.addToA r) s

/-- R205: INC, then SBC. -/
def execIsc (o : Operand) (s : State) : Host.Outcome State Fault Refusal :=
  perform (.isc o) (combined o increment fun r s => s.subFromA r) s

/-- R206: DEC, then CMP. -/
def execDcp (o : Operand) (s : State) : Host.Outcome State Fault Refusal :=
  perform (.dcp o) (combined o decrement fun r s => s.compare s.a r) s

/-- R207. -/
def execSax (o : Operand) (s : State) : Host.Outcome State Fault Refusal :=
  perform (.sax o) (fun s => storing o (s.a &&& s.x) s) s

/-- R208. -/
def execLax (o : Operand) (s : State) : Host.Outcome State Fault Refusal :=
  perform (.lax o) (reading o fun m s => ({ s with a := m, x := m }).setZN m) s

/-- R209 (nothing) and R210 (the operand is read and discarded). -/
def execNop (opcode : Byte) (o : Option Operand) (s : State) : Host.Outcome State Fault Refusal :=
  perform (.nop opcode o)
    (fun s =>
      match o with
      | none => .set s
      | some o => reading o (fun _ s => s) s) s

/-- R211: the instruction completes and is counted. -/
def execJam (opcode : Byte) (s : State) : Host.Outcome State Fault Refusal :=
  perform (.jam opcode) (fun s => .set { s with halted := true }) s

end Sys2Proof.Machine
end

