-- ==== Sys2Proof/Machine/Cartridge.lean ====
section
/-! DEFINITION. NROM (20_memory.md R69 to R72) and what `load_rom` receives from the external parser
(70_reset_and_hazards.md R249, R250). -/

namespace Sys2Proof.Machine

/-- NROM's description: a fixed reset vector and an empty register window (20_memory.md R70). -/
def nromDesc : MapperDesc where
  resetVector := 0x8000#16
  registersStart := 0x0000#16
  registersEnd := 0x0000#16

/-- An NROM mapper that owns the two buffers (20_memory.md R69, R72). -/
def nrom (prg chr : List Byte) : Mapper where
  kind := .nrom
  prg := prg
  chr := chr
  desc := nromDesc

/-- `NromProject(prg, size)` (20_memory.md R69): the program bytes at 0x8000, and again at 0xC000 iff there are exactly
16 KiB of them. It writes cells, not through the bus. -/
def nromProject (prg : List Byte) (mem : Memory) : Memory :=
  let mem := mem.writeBytes 0x8000 prg
  if prg.length = 16384 then mem.writeBytes 0xC000 prg else mem

/-- Why `load_rom` fails (70_reset_and_hazards.md R243, R244). -/
inductive LoadError where
  | missingFile
  | shortRead
  | badMagic
  | unsupportedMapper (id : Byte)
  | unsupportedPrgSize (size : Nat)
deriving DecidableEq, Repr

/-- What the parser hands to the core: program bytes, graphics bytes and mapper id (70_reset_and_hazards.md R242). -/
structure Cartridge where
  prg : List Byte
  chr : List Byte
  mapperId : Byte
deriving DecidableEq, Repr

/-- The mapper id of the two flag bytes (70_reset_and_hazards.md R250). -/
def mapperId (nibble : MapperIdNibble) (flags6 flags7 : Byte) : Byte :=
  let high := if flags7 = 0x44#8 then 0x00#8 else flags7
  let low :=
    match nibble with
    | .low => flags6 &&& 0x0F#8
    | .high => flags6 >>> 4
  (high &&& 0xF0#8) ||| low

/-- The first `n` bytes and the rest; a shorter input is a short read. -/
def takeBytes (n : Nat) (bytes : List Byte) : Except LoadError (List Byte × List Byte) :=
  if n ≤ bytes.length then .ok (bytes.take n, bytes.drop n) else .error .shortRead

/-- The container of 70_reset_and_hazards.md R249, read in the order of its steps (log entry 18). -/
def parseContainer (nibble : MapperIdNibble) (file : List Byte) : Except LoadError Cartridge :=
  match takeBytes 4 file with
  | .error e => .error e
  | .ok (magic, rest) =>
    if magic ≠ [0x4E#8, 0x45#8, 0x53#8, 0x1A#8] then .error .badMagic
    else
      match rest with
      | prgUnits :: chrUnits :: flags6 :: flags7 :: rest =>
        match takeBytes (8 + if flags6.getLsbD 2 then 512 else 0) rest with
        | .error e => .error e
        | .ok (_, rest) =>
          match takeBytes (16384 * prgUnits.toNat) rest with
          | .error e => .error e
          | .ok (prg, rest) =>
            match takeBytes (8192 * chrUnits.toNat) rest with
            | .error e => .error e
            | .ok (chr, _) => .ok { prg := prg, chr := chr, mapperId := mapperId nibble flags6 flags7 }
      | _ => .error .shortRead

end Sys2Proof.Machine
end

