-- ==== Sys2Proof/Machine/Fetch.lean ====
section
/-! DEFINITION. When a step exists (30_encoding.md R94), the fetch of one instruction (R81, R89), and the placing of an
instruction where the next step fetches. -/

namespace Sys2Proof.Machine

/-- Why no step exists in a state (30_encoding.md R94, 70_reset_and_hazards.md R247); none when one does. -/
def noStep (s : State) : Option (Host.Outcome State Fault Refusal) :=
  match s.mapper, s.fault, s.halted with
  | none, _, _ => some (.refused .noMapper)
  | some _, some record, _ => some (.fault (.fatal record))
  | some _, none, true => some (.fault .halted)
  | some _, none, false => none

/-- The operand bytes of a mode, PC being past the opcode. Immediate and relative operands are read at their effective
address after PC has moved past them (40_addressing.md R103, R113, R114); the others by `Fetch8` and `Fetch16`
(30_encoding.md R81), which move PC after the read. -/
def fetchOperand (m : Mode) (s : State) : Access (List Byte) :=
  match m with
  | .imp | .acc => .ok [] s
  | .imm | .rel =>
    let past := { s with pc := s.pc + 1 }
    (Access.ofRead (past.peek s.pc) past).andThen fun b s => .ok [b] s
  | .zp | .zpx | .zpy | .indx | .indy => (fetch8 s).andThen fun b s => .ok [b] s
  | .abs | .absx | .absy | .ind => (fetch16 s).andThen fun w s => .ok [lowByte w, highByte w] s

/-- What fetching an instruction gives: the instruction, or a fatal condition with the opcode to record and the state as
the fetch left it. -/
inductive Fetched where
  | instr (i : Instr)
  | fatal (kind : FatalKind) (op : Byte) (left : State)
  | undecodable (op : Byte)

/-- The fetch of 30_encoding.md R89: the opcode, then as many operand bytes as its mode has. When the opcode fetch itself
faults there is no opcode to record, and a free value stands for it (log entry 9). -/
def fetch (s : State) : Fetched :=
  match fetch8 s with
  | .fatal kind left =>
    .fatal kind (Config.unfetchedOpcode left.freeDraws) { left with freeDraws := left.freeDraws + 1 }
  | .ok op s1 =>
    match fetchOperand (opcodeEntry op).mode s1 with
    | .fatal kind left => .fatal kind op left
    | .ok bytes _ =>
      match decode (op :: bytes) with
      | .ok (i, _) => .instr i
      | .error _ => .undecodable op

/-- A store to `a` reaches a storage cell that a fetch reads back. -/
def plainCell (s : State) (a : Word) : Bool :=
  !isStub (mirror a) && !s.topCellFaults (mirror a)

/-- Lists bytes in the cells that `a`, `a + 1`, … reach. -/
def placeBytes : Memory → Word → List Byte → Memory
  | m, _, [] => m
  | m, a, v :: rest => placeBytes (m.write (mirror a).toNat v) (a + 1) rest

/-- The state whose next step fetches these bytes (log entry 12). Where a mapper is installed and PC points at storage
cells, they are placed at PC; otherwise they stand for a loaded program: an NROM mapper is installed if there is none, and
PC is its reset vector. -/
def placeCode (s : State) (bytes : List Byte) : State :=
  let here := s.mapper.isSome && plainCell s s.pc && plainCell s (s.pc + 1) && plainCell s (s.pc + 2)
  let start := if here then s.pc else nromDesc.resetVector
  { s with
    mem := placeBytes s.mem start bytes
    mapper := some (s.mapper.getD (nrom bytes []))
    pc := start
    halted := false
    fault := none }

end Sys2Proof.Machine
end

