-- ==== Sys2Proof/Machine/Step.lean ====
section
/-! DEFINITION. One step of the block (30_encoding.md R89, R94). -/

namespace Sys2Proof.Machine

/-- `Step()` (30_encoding.md R89): where a step exists (R94), one instruction is fetched and executed. A fatal condition
in the fetch is recorded with the address of the opcode (60_exceptions.md R222). -/
def step (s : State) : Host.Outcome State Fault Refusal :=
  match noStep s with
  | some stop => stop
  | none =>
    match fetch s with
    | .instr i => exec i s
    | .fatal kind op left => .next (left.raiseFatal kind op s.pc)
    | .undecodable op => .refused (.undecodable op)

/-- `s` with the instruction of table word `w` where the next step fetches it (log entry 12). -/
def State.withFetchWord (s : State) (nbits w : Nat) : State := placeCode s (tableBytes nbits w)

end Sys2Proof.Machine
end

