-- ==== Sys2Proof/Machine/HostOps.lean ====
section
/-! DEFINITION. The four operations of the host on the block (70_reset_and_hazards.md R240 to R247, R255), and the order
they may be called in (R248). -/

namespace Sys2Proof.Machine

/-- `power_on()` (70_reset_and_hazards.md R240, R241): storage and mapper keep their contents. -/
def State.powerOn (s : State) : State :=
  { State.atPowerOn s.params s.mem with mapper := s.mapper, freeDraws := s.freeDraws }

/-- `load_rom` with what the parser gives (70_reset_and_hazards.md R242, R243). Releasing the old mapper frees its
buffers and changes nothing else (20_memory.md R67). -/
def State.loadCartridge (s : State) (c : Cartridge) : Except LoadError State :=
  if c.mapperId ≠ 0x00#8 then .error (.unsupportedMapper c.mapperId)
  else if c.prg.length ≠ 16384 ∧ c.prg.length ≠ 32768 then .error (.unsupportedPrgSize c.prg.length)
  else
    .ok { s with
      mapper := some (nrom c.prg c.chr)
      mem := nromProject c.prg s.mem
      pc := nromDesc.resetVector
      halted := false }

/-- `load_rom(path)` (70_reset_and_hazards.md R242, R244); no file is a missing file. -/
def State.loadRom (s : State) (file : Option (List Byte)) : Except LoadError State :=
  match file with
  | none => .error .missingFile
  | some bytes =>
    match parseContainer s.params.mapperIdNibble bytes with
    | .error e => .error e
    | .ok c => s.loadCartridge c

/-- `stopped()` (70_reset_and_hazards.md R245). -/
def State.stopped (s : State) : Bool := s.halted

/-- The condition of the budget loop (70_reset_and_hazards.md R246). -/
def State.behind (s : State) : Bool :=
  s.fault.isNone && !s.halted && decide (s.internalClock < s.masterClock)

/-- The budget loop (70_reset_and_hazards.md R246), at most `k` times round. -/
def catchUp : Nat → State → Host.Outcome State Fault Refusal
  | 0, s => .next s
  | k + 1, s =>
    if s.behind then
      match step s with
      | .next t => catchUp k t
      | stop => stop
    else .next s

/-- `step(n)` (70_reset_and_hazards.md R246, R247). Every turn of the loop that does not end it counts one instruction,
so the clocks' difference bounds the turns (log entry 17). -/
def hostStep (n : Nat) (s : State) : Host.Outcome State Fault Refusal :=
  if s.mapper.isNone then .refused .noMapper
  else
    let s := { s with masterClock := clockValue s.params (s.masterClock + n) }
    catchUp (s.masterClock - s.internalClock) s

/-- The block before and after its first `power_on` (70_reset_and_hazards.md R248): before it the registers have no
value, and only the parameters and the first contents of the storage array exist. -/
inductive Block where
  | unpowered (params : Params) (initialRam : Memory)
  | powered (s : State)
deriving DecidableEq, Repr

/-- The operations that change the block (70_reset_and_hazards.md R255). -/
inductive HostOp where
  | powerOn
  | loadRom (file : Option (List Byte))
  | step (n : Nat)
deriving DecidableEq, Repr

/-- Why the block refuses an operation or a run fails. -/
inductive HostStop where
  /-- `load_rom` before the first `power_on` (70_reset_and_hazards.md R248). -/
  | notPowered
  /-- `step` before the first `load_rom` (R247); no other refusal arises. -/
  | stepRefused (why : Refusal)
  /-- No budget loop ends so: it takes no step of a halted or faulted block (R246). -/
  | stepFault (why : Fault)
  /-- A failed `load_rom`: the run ends as a failure (R244). -/
  | loadFailed (e : LoadError)
deriving DecidableEq, Repr

/-- One operation of the host (70_reset_and_hazards.md R240 to R248). -/
def Block.apply (b : Block) (op : HostOp) : Except HostStop Block :=
  match b, op with
  | .unpowered params ram, .powerOn => .ok (.powered (State.atPowerOn params ram))
  | .unpowered _ _, .loadRom _ => .error .notPowered
  | .unpowered _ _, .step _ => .error (.stepRefused .noMapper)
  | .powered s, .powerOn => .ok (.powered s.powerOn)
  | .powered s, .loadRom file =>
    match s.loadRom file with
    | .ok t => .ok (.powered t)
    | .error e => .error (.loadFailed e)
  | .powered s, .step n =>
    match hostStep n s with
    | .next t => .ok (.powered t)
    | .fault why => .error (.stepFault why)
    | .refused why => .error (.stepRefused why)

end Sys2Proof.Machine
end

