-- ==== Sys2Proof/Safety.lean ====
section
/-! DEFINITION. What counts as a safe run, and the conditions on states that claims use. -/

namespace Sys2Proof.Machine

/-- A step exists (30_encoding.md R94). -/
abbrev State.runnable (s : State) : Prop := s.mapper.isSome = true ∧ s.fault = none ∧ s.halted = false

/-- How a run stands (70_reset_and_hazards.md R254): a fatal condition is never a successful end. -/
inductive RunEnd where
  | failed (record : FatalRecord)
  | succeeded
  | notEnded
deriving DecidableEq, Repr

/-- 70_reset_and_hazards.md R254. -/
def State.runEnd (s : State) : RunEnd :=
  match s.fault, s.halted with
  | some record, _ => .failed record
  | none, true => .succeeded
  | none, false => .notEnded

/-- The status bits B and U hold 1 (10_state.md R30, R31). -/
abbrev State.forcedBits (s : State) : Prop := s.flag .b = true ∧ s.flag .u = true

/-- The installed mapper, if any, declares an empty register window, as NROM does (20_memory.md R53, R70). -/
abbrev State.noWindow (s : State) : Prop :=
  ∀ mp ∈ s.mapper, mp.desc.registersStart = 0x0000#16 ∧ mp.desc.registersEnd = 0x0000#16

/-- A clock value that `CLOCK_BITS` bits hold (10_state.md R35). -/
abbrev clockFits (params : Params) (n : Nat) : Prop := ∀ bits ∈ params.clockBits, n < 2 ^ bits

/-- Both clocks are values of their width (10_state.md R35, R41). -/
abbrev State.clocksFit (s : State) : Prop :=
  clockFits s.params s.internalClock ∧ clockFits s.params s.masterClock

end Sys2Proof.Machine
end

