-- ==== Sys2Proof/Certificates/Slice0/Obligations.lean ====
section
/-! DEFINITION. The statements for the provers, from the numbered rules of spec/. Each holds for every value of the named
parameters and for every first contents of the storage array, since a statement about every state ranges over both. -/

open Sys2Proof Sys2Proof.Machine

namespace Sys2Proof.Claims

/-! ## The shapes the statements share -/

/-- `s` after instruction `i` ran in order and was counted: PC is past the instruction's bytes (30_encoding.md R89, R90),
and the count wraps under a finite `CLOCK_BITS` (10_state.md R42). -/
def ran (s : State) (i : Instr) : State :=
  { s with
    pc := s.pc + BitVec.ofNat 16 i.length
    internalClock := clockValue s.params (s.internalClock + 1) }

/-- `s` after instruction `i` with opcode `op` met a fatal condition before any effect of its own: PC is past its bytes,
the condition is recorded, nothing is counted (60_exceptions.md R221, R222). That it is a next state is the model's reading
(log entry 6). -/
def failed (s : State) (i : Instr) (kind : FatalKind) (op : Byte) : State :=
  { s with
    pc := s.pc + BitVec.ofNat 16 i.length
    fault := some { kind := kind, opcode := op, addr := s.pc } }

/-- Each listed flag has the listed value after, and every other flag is unchanged. -/
def FlagsBecome (s t : State) (l : List (Flag × Bool)) : Prop :=
  ∀ f, t.flag f = (l.lookup f).getD (s.flag f)

/-- The zero and negative flags of a byte (42_alu.md R140). -/
def zn (v : Byte) : List (Flag × Bool) := [(.z, decide (v.toNat = 0)), (.n, decide (128 ≤ v.toNat))]

/-- What storing `v` at address `a` does to storage and mapper (20_memory.md R52): nothing in a stub window, a call of the
mapper in its register window, and otherwise one cell, every other cell reading as before. That the call changes the
mapper alone is the model's choice (log entry 10). -/
def Stored (s t : State) (a : Word) (v : Byte) : Prop :=
  if isStub (mirror a) then t.mem = s.mem ∧ t.mapper = s.mapper
  else
    match s.windowMapper (mirror a) with
    | some mp => t.mem = s.mem ∧ t.mapper = some (Config.mapperWrite mp (mirror a) v)
    | none =>
      t.mapper = s.mapper ∧ ∀ b, t.mem.read b = if b = (mirror a).toNat then v else s.mem.read b

/-- A store to `a` is not a `TopCellAccess` (20_memory.md R79). -/
def writable (s : State) (a : Word) : Prop :=
  ¬ (s.params.topCell = .fault ∧ a = 0xFFFF#16 ∧ s.windowMapper 0xFFFF#16 = none)

/-- An instruction that reads its operand: its encodings, what it does with the byte read, and that it fails where the
read is a `TopCellAccess`. -/
def Reads (f : Operand → Instr) (encodings : List (Mode × Byte)) (result : State → Byte → State → Prop) : Prop :=
  ∀ (s : State) (o : Operand),
    (f o).opcode = encodings.lookup o.mode ∧
    ∀ op, encodings.lookup o.mode = some op →
      (∀ m, s.operand o = some m →
        ∃ t, exec (f o) s = .next t ∧ t = { ran s (f o) with a := t.a, x := t.x, y := t.y, p := t.p } ∧ result s m t) ∧
      (s.operand o = none → exec (f o) s = .next (failed s (f o) .topCellAccess op))

/-- An instruction that stores a byte: its encodings, that it always has an effective address, where the byte goes, and
that it fails where the store is a `TopCellAccess`. -/
def Stores (f : Operand → Instr) (encodings : List (Mode × Byte)) (value : State → Byte) : Prop :=
  ∀ (s : State) (o : Operand),
    (f o).opcode = encodings.lookup o.mode ∧
    ∀ op, encodings.lookup o.mode = some op →
      (∀ a, s.ea o = some a → writable s a →
        ∃ t, exec (f o) s = .next t ∧ t = { ran s (f o) with mem := t.mem, mapper := t.mapper } ∧
          Stored s t a (value s)) ∧
      (∀ a, s.ea o = some a → ¬ writable s a → exec (f o) s = .next (failed s (f o) .topCellAccess op)) ∧
      ∃ a, s.ea o = some a

/-- An instruction that reads a byte of memory and writes a new one back: its encodings, where the new byte goes, what
happens to A and the flags, and that it fails where the address or the read is a `TopCellAccess`. -/
def Modifies (f : Operand → Instr) (encodings : List (Mode × Byte)) (new : State → Byte → Byte)
    (result : State → Byte → State → Prop) : Prop :=
  ∀ (s : State) (o : Operand),
    (f o).opcode = encodings.lookup o.mode ∧
    ∀ op, encodings.lookup o.mode = some op →
      (∀ a old, s.ea o = some a → s.peek a = some old →
        ∃ t, exec (f o) s = .next t ∧
          t = { ran s (f o) with a := t.a, p := t.p, mem := t.mem, mapper := t.mapper } ∧
          Stored s t a (new s old) ∧ result s old t) ∧
      ((s.ea o).bind s.peek = none → exec (f o) s = .next (failed s (f o) .topCellAccess op))

/-- `AddWithCarry(A, m, P.C)` (42_alu.md R141), into A and the flags. -/
def Added (s : State) (m : Nat) (c : Bool) (t : State) : Prop :=
  let sum := s.a.toNat + m + c.toNat
  t.a.toNat = sum % 256 ∧
  FlagsBecome s t
    ([(.c, decide (256 ≤ sum)),
      (.v, decide (128 ≤ s.a.toNat ↔ 128 ≤ m) && decide (¬ (128 ≤ sum % 256 ↔ 128 ≤ s.a.toNat)))] ++ zn t.a)

/-- `Compare(reg, m)` (42_alu.md R147), into the flags; A is unchanged. -/
def Compared (reg m : Byte) (s t : State) : Prop :=
  t.a = s.a ∧ FlagsBecome s t ((.c, decide (m.toNat ≤ reg.toNat)) :: zn (reg - m))

/-- ASL, LSR, ROL, ROR of a byte (43_shift_rotate.md R165), as numbers; the second is the carry in. -/
def shiftedLeft (o : Byte) : Byte := BitVec.ofNat 8 (2 * o.toNat % 256)
def shiftedRight (o : Byte) : Byte := BitVec.ofNat 8 (o.toNat / 2)
def rotatedLeft (o : Byte) (c : Bool) : Byte := BitVec.ofNat 8 (2 * o.toNat % 256 + c.toNat)
def rotatedRight (o : Byte) (c : Bool) : Byte := BitVec.ofNat 8 (o.toNat / 2 + 128 * c.toNat)

/-- The carry a left shift leaves (old bit 7) and a right shift leaves (old bit 0). -/
def leftCarry (o : Byte) : Flag × Bool := (.c, decide (128 ≤ o.toNat))
def rightCarry (o : Byte) : Flag × Bool := (.c, decide (o.toNat % 2 = 1))

/-- A byte on the stack's page: cell `n` modulo 256 (20_memory.md R59). -/
def stackCell (n : Nat) : Word := BitVec.ofNat 16 (n % 256)

/-- A push of `v` in a state (20_memory.md R57): the byte goes to the cell below SP, SP moves to it. -/
def Pushed (s t : State) (v : Byte) : Prop :=
  t = { s with sp := t.sp, mem := t.mem, mapper := t.mapper } ∧ t.sp = s.sp - 1 ∧
    Stored s t (stackCell (s.sp.toNat + 255)) v

/-- The byte `k` cells above SP (20_memory.md R58). -/
def stackByte (s : State) (k : Nat) : Byte := s.mem.read ((s.sp.toNat + k) % 256)

/-- The fourteen bytes of 30_encoding.md R84. -/
def fourteenUnknown : List Byte :=
  [0x0B#8, 0x2B#8, 0x4B#8, 0x6B#8, 0x8B#8, 0xAB#8, 0xCB#8, 0xEB#8, 0x93#8, 0x9F#8, 0x9B#8, 0x9C#8, 0x9E#8, 0xBB#8]

/-- The twelve bytes of 30_encoding.md R85. -/
def twelveJam : List Byte :=
  [0x02#8, 0x12#8, 0x22#8, 0x32#8, 0x42#8, 0x52#8, 0x62#8, 0x72#8, 0x92#8, 0xB2#8, 0xD2#8, 0xF2#8]

end Sys2Proof.Claims

open Sys2Proof.Claims

/-! ## Encoding -/

/-- Decoding the bytes of a well-formed instruction gives it back, whatever follows (30_encoding.md R80, R82, R83). -/
def Obligations.DecodeOfEncode : Prop :=
  ∀ (i : Instr) (rest : List Byte), i.wf = true → decode (encode i ++ rest) = .ok (i, rest)

/-- What the decoder reads is well-formed, and its bytes are exactly those read: each byte string has one meaning. -/
def Obligations.EncodeOfDecode : Prop :=
  ∀ (bytes rest : List Byte) (i : Instr), decode bytes = .ok (i, rest) → i.wf = true ∧ encode i ++ rest = bytes

/-- 30_encoding.md R88, R91: the opcode byte alone fixes the instruction's opcode and length, the length is the number of
bytes read, and decoding needs no more bytes than two operand bytes. That an unknown opcode has the length 1 is the model's
choice (log entry 25). -/
def Obligations.OpcodeFixesLength : Prop :=
  ∀ (op : Byte),
    (∀ lo hi rest, ∃ i left, decode (op :: lo :: hi :: rest) = .ok (i, left)) ∧
    (∀ bytes i rest, decode (op :: bytes) = .ok (i, rest) → (op :: bytes).length = i.length + rest.length) ∧
    ∀ bytes bytes' i i' rest rest', decode (op :: bytes) = .ok (i, rest) → decode (op :: bytes') = .ok (i', rest') →
      i.opcode = some op ∧ i'.opcode = some op ∧ i.length = i'.length ∧ 1 ≤ i.length ∧ i.length ≤ 3

/-- Words written out from the encodings of 30_encoding.md R83 decode to the instructions they stand for. -/
def Obligations.SpecWordsDecode : Prop :=
  decode [0xBD#8, 0xF0#8, 0xFF#8] = .ok (.lda (.absx 0xFFF0#16), []) ∧
  decode [0x96#8, 0x10#8] = .ok (.stx (.zpy 0x10#8), []) ∧
  decode [0x61#8, 0x20#8] = .ok (.adc (.indx 0x20#8), []) ∧
  decode [0x0A#8] = .ok (.asl .acc, []) ∧
  decode [0x6C#8, 0xFF#8, 0x02#8] = .ok (.jmp (.ind 0x02FF#16), []) ∧
  decode [0x20#8, 0x00#8, 0x03#8] = .ok (.jsr 0x0300#16, []) ∧
  decode [0xD0#8, 0xFB#8] = .ok (.bne 0xFB#8, []) ∧
  decode [0xF3#8, 0x44#8] = .ok (.isc (.indy 0x44#8), []) ∧
  decode [0xFC#8, 0x00#8, 0x03#8] = .ok (.nop 0xFC#8 (some (.absx 0x0300#16)), [])

/-! ## The bus -/

/-- 20_memory.md R47: the four addresses of a RAM cell reach the same cell: what a store at one leaves, a read at any of
them gives. -/
def Obligations.RamMirrorsShareCell : Prop :=
  ∀ (s : State) (n j k : Nat) (v : Byte), n < 0x0800 → j < 4 → k < 4 →
    s.windowMapper (BitVec.ofNat 16 n) = none →
    ∃ t, busWrite (BitVec.ofNat 16 (n + 0x0800 * j)) v s = .ok () t ∧
      t.peek (BitVec.ofNat 16 (n + 0x0800 * k)) = some v ∧ t.mem.read n = v

/-- 20_memory.md R48, R50: the register window is mirrored every eight bytes; the stub windows are two ranges of mirrored
addresses; every address that reaches one reads 0 and discards writes, so its cell is neither read nor written. -/
def Obligations.StubWindowsReadZeroDiscardWrites : Prop :=
  (∀ n, 0x2000 ≤ n → n ≤ 0x3FFF → (mirror (BitVec.ofNat 16 n)).toNat = 0x2000 + n % 8) ∧
  (∀ m : Word, isStub m = true ↔
    (0x2000 ≤ m.toNat ∧ m.toNat ≤ 0x2007) ∨ (0x4000 ≤ m.toNat ∧ m.toNat ≤ 0x401F)) ∧
  ∀ (s : State) (n : Nat) (v : Byte), (0x2000 ≤ n ∧ n ≤ 0x3FFF) ∨ (0x4000 ≤ n ∧ n ≤ 0x401F) →
    s.peek (BitVec.ofNat 16 n) = some 0x00#8 ∧ busWrite (BitVec.ofNat 16 n) v s = .ok () s

/-- 20_memory.md R46, R47, R49, R51, R73: the cell an address reaches (for 0x2000 to 0x3FFF see
`StubWindowsReadZeroDiscardWrites`); a read of an address that is no stub and not the missing top cell gives that cell; and
a read after a store to plain storage gives the byte stored at every address of that cell, and what it gave before at every
other address. -/
def Obligations.ReadAfterWrite : Prop :=
  (∀ n, n < 0x2000 → (mirror (BitVec.ofNat 16 n)).toNat = n % 0x0800) ∧
  (∀ a : Word, 0x4000 ≤ a.toNat → mirror a = a) ∧
  (∀ (s : State) (a : Word), isStub (mirror a) = false → ¬ (s.params.topCell = .fault ∧ a = 0xFFFF#16) →
    s.peek a = some (s.mem.read (mirror a).toNat)) ∧
  ∀ (s t : State) (a b : Word) (v : Byte), isStub (mirror a) = false → s.windowMapper (mirror a) = none →
    busWrite a v s = .ok () t →
    (mirror b = mirror a → t.peek b = some v) ∧ (mirror b ≠ mirror a → t.peek b = s.peek b)

/-- 20_memory.md R52, R53: a register window covers the mirrored addresses from its start to its end, and none when it is
declared 0 to 0; a store it covers that is no stub goes to the mapper and leaves every cell alone. That it changes the
mapper and nothing else besides is the model's choice, not R52's (log entry 10). -/
def Obligations.WindowDelegatesToMapper : Prop :=
  (∀ (desc : MapperDesc) (m : Word), covers desc m = true ↔
    ¬ (desc.registersStart.toNat = 0 ∧ desc.registersEnd.toNat = 0) ∧
      desc.registersStart.toNat ≤ m.toNat ∧ m.toNat ≤ desc.registersEnd.toNat) ∧
  (∀ (s : State) (mp : Mapper) (a : Word) (v : Byte), s.mapper = some mp → isStub (mirror a) = false →
    covers mp.desc (mirror a) = true →
    busWrite a v s = .ok () { s with mapper := some (Config.mapperWrite mp (mirror a) v) }) ∧
  (∀ (s : State) (a : Word) (v : Byte) (t : State), (∀ mp ∈ s.mapper, covers mp.desc (mirror a) = false) →
    busWrite a v s = .ok () t → t.mapper = s.mapper)

/-- 20_memory.md R79: under `TOP_CELL_POLICY = Fault` a read of 0xFFFF, and a write of it that no mapper takes, is
`TopCellAccess` with no effect; nothing else is, and under `Cell` nothing is. -/
def Obligations.TopCellPolicy : Prop :=
  ∀ (s : State) (a : Word) (v : Byte),
    (s.peek a = none ↔ s.params.topCell = .fault ∧ a = 0xFFFF#16) ∧
    (writable s a → ∃ t, busWrite a v s = .ok () t) ∧
    (¬ writable s a → busWrite a v s = .fatal .topCellAccess s)

/-- 20_memory.md R54, R55: a word is its low byte at the address and its high byte at the next address modulo 65536, for
reads and for writes; a word written to plain storage is read back. -/
def Obligations.WordsAreLittleEndian : Prop :=
  (∀ (s : State) (a : Word) (lo hi : Byte), s.peek a = some lo → s.peek (BitVec.ofNat 16 (a.toNat + 1)) = some hi →
    ∃ w, s.peekWord a = some w ∧ w.toNat = hi.toNat * 256 + lo.toNat) ∧
  (∀ (s : State) (a v : Word), s.noWindow → s.params.topCell = .cell →
    isStub (mirror a) = false → isStub (mirror (a + 1)) = false →
    ∃ t, busWriteWord a v s = .ok () t ∧ t.peekWord a = some v ∧
      t.peek a = some (BitVec.ofNat 8 (v.toNat % 256)) ∧ t.peek (a + 1) = some (BitVec.ofNat 8 (v.toNat / 256)))

/-- 20_memory.md R57, R58: a push moves SP down and stores where it then points in the zero page; a pull reads there and
moves SP up; SP wraps inside the page (R59). A pull right after a push gives the byte back, with SP as before. That a push
delegated to the mapper changes nothing but SP and the mapper is the model's choice (log entry 10). -/
def Obligations.PushThenPull : Prop :=
  ∀ (s : State) (v : Byte),
    pull s = .ok (stackByte s 0) { s with sp := s.sp + 1 } ∧
    ∃ t, push v s = .ok () t ∧ Pushed s t v ∧ (s.noWindow → pull t = .ok v { s with mem := t.mem })

/-! ## Addressing -/

/-- 40_addressing.md R104 to R109: the effective addresses as numbers, with their 8-bit and 16-bit wraps. -/
def Obligations.EffectiveAddressesWrap : Prop :=
  ∀ (s : State) (b : Byte) (w : Word),
    (s.ea (.zp b)).map BitVec.toNat = some b.toNat ∧
    (s.ea (.zpx b)).map BitVec.toNat = some ((b.toNat + s.x.toNat) % 256) ∧
    (s.ea (.zpy b)).map BitVec.toNat = some ((b.toNat + s.y.toNat) % 256) ∧
    (s.ea (.abs w)).map BitVec.toNat = some w.toNat ∧
    (s.ea (.absx w)).map BitVec.toNat = some ((w.toNat + s.x.toNat) % 65536) ∧
    (s.ea (.absy w)).map BitVec.toNat = some ((w.toNat + s.y.toNat) % 65536)

/-- 40_addressing.md R110, R111, R112, R117: where the two pointer bytes are read, and the address they give. The high
byte of an indirect jump's target comes from the start of the pointer's page when the pointer ends it. Only an indirect jump
can miss its address, exactly when one of its pointer bytes is the missing top cell (20_memory.md R79). -/
def Obligations.PointerModes : Prop :=
  ∀ (s : State),
    (∀ (b lo hi : Byte), let p := (b.toNat + s.x.toNat) % 256
      let next := if s.params.zpPtrWrap then (p + 1) % 256 else p + 1
      s.peek (BitVec.ofNat 16 p) = some lo → s.peek (BitVec.ofNat 16 next) = some hi →
      (s.ea (.indx b)).map BitVec.toNat = some (hi.toNat * 256 + lo.toNat)) ∧
    (∀ (b lo hi : Byte), let next := if s.params.zpPtrWrap then (b.toNat + 1) % 256 else b.toNat + 1
      s.peek (BitVec.ofNat 16 b.toNat) = some lo → s.peek (BitVec.ofNat 16 next) = some hi →
      (s.ea (.indy b)).map BitVec.toNat = some ((hi.toNat * 256 + lo.toNat + s.y.toNat) % 65536)) ∧
    (∀ (w : Word), let next := if w.toNat % 256 = 255 then w.toNat - 255 else w.toNat + 1
      (∀ lo hi, s.peek w = some lo → s.peek (BitVec.ofNat 16 next) = some hi →
        (s.ea (.ind w)).map BitVec.toNat = some (hi.toNat * 256 + lo.toNat)) ∧
      (s.ea (.ind w) = none ↔ s.params.topCell = .fault ∧ (w.toNat = 0xFFFF ∨ next = 0xFFFF))) ∧
    ∀ o : Operand, o.mode ≠ .ind → ∃ a, s.ea o = some a

/-- 40_addressing.md R103, R114: an operand is the byte at its effective address; an immediate one is its operand byte,
which the fetch read (log entry 13). Under `TOP_CELL_POLICY = Cell` every operand and every effective address can be read
(60_exceptions.md R220: nothing else is an error), so the readable-operand hypotheses below hold of every state with that
policy. -/
def Obligations.EveryOperandReadableUnderCell : Prop :=
  ∀ (s : State),
    (∀ v, s.operand (.imm v) = some v) ∧
    (∀ o : Operand, o.mode ≠ .imm → s.operand o = (s.ea o).bind s.peek) ∧
    ∀ o : Operand, s.params.topCell = .cell →
      (∃ a, s.ea o = some a) ∧ (∃ m, s.operand o = some m) ∧ (∀ a, ∃ v, s.peek a = some v) ∧ ∀ a, writable s a

/-! ## Loads, stores, transfers -/

/-- 41_load_store_transfer.md R120, R121, R122 and 45_undocumented.md R208. That the `TopCellAccess` of a read that fails is a
next state is the model's reading (log entry 6). -/
def Obligations.LoadsComplete : Prop :=
  Reads .lda [(.imm, 0xA9#8), (.zp, 0xA5#8), (.zpx, 0xB5#8), (.abs, 0xAD#8), (.absx, 0xBD#8), (.absy, 0xB9#8),
      (.indx, 0xA1#8), (.indy, 0xB1#8)]
    (fun s m t => t.a = m ∧ t.x = s.x ∧ t.y = s.y ∧ FlagsBecome s t (zn m)) ∧
  Reads .ldx [(.imm, 0xA2#8), (.zp, 0xA6#8), (.zpy, 0xB6#8), (.abs, 0xAE#8), (.absy, 0xBE#8)]
    (fun s m t => t.a = s.a ∧ t.x = m ∧ t.y = s.y ∧ FlagsBecome s t (zn m)) ∧
  Reads .ldy [(.imm, 0xA0#8), (.zp, 0xA4#8), (.zpx, 0xB4#8), (.abs, 0xAC#8), (.absx, 0xBC#8)]
    (fun s m t => t.a = s.a ∧ t.x = s.x ∧ t.y = m ∧ FlagsBecome s t (zn m)) ∧
  Reads .lax [(.zp, 0xA7#8), (.zpy, 0xB7#8), (.abs, 0xAF#8), (.absy, 0xBF#8), (.indx, 0xA3#8), (.indy, 0xB3#8)]
    (fun s m t => t.a = m ∧ t.x = m ∧ t.y = s.y ∧ FlagsBecome s t (zn m))

/-- 41_load_store_transfer.md R123, R124, R125 and 45_undocumented.md R207. That a delegated store changes nothing but the
mapper is the model's choice (log entry 10), and that the `TopCellAccess` of a store is a next state its reading (log
entry 6). -/
def Obligations.StoresComplete : Prop :=
  Stores .sta [(.zp, 0x85#8), (.zpx, 0x95#8), (.abs, 0x8D#8), (.absx, 0x9D#8), (.absy, 0x99#8), (.indx, 0x81#8),
      (.indy, 0x91#8)] (fun s => s.a) ∧
  Stores .stx [(.zp, 0x86#8), (.zpy, 0x96#8), (.abs, 0x8E#8)] (fun s => s.x) ∧
  Stores .sty [(.zp, 0x84#8), (.zpx, 0x94#8), (.abs, 0x8C#8)] (fun s => s.y) ∧
  Stores .sax [(.zp, 0x87#8), (.zpy, 0x97#8), (.abs, 0x8F#8), (.indx, 0x83#8)] (fun s => s.a &&& s.x)

/-- 41_load_store_transfer.md R126 to R131; TXS alone writes no flag. -/
def Obligations.TransfersComplete : Prop :=
  ∀ (s : State),
    (∃ t, exec .tax s = .next t ∧ t = { ran s .tax with x := s.a, p := t.p } ∧ FlagsBecome s t (zn s.a)) ∧
    (∃ t, exec .tay s = .next t ∧ t = { ran s .tay with y := s.a, p := t.p } ∧ FlagsBecome s t (zn s.a)) ∧
    (∃ t, exec .txa s = .next t ∧ t = { ran s .txa with a := s.x, p := t.p } ∧ FlagsBecome s t (zn s.x)) ∧
    (∃ t, exec .tya s = .next t ∧ t = { ran s .tya with a := s.y, p := t.p } ∧ FlagsBecome s t (zn s.y)) ∧
    (∃ t, exec .tsx s = .next t ∧ t = { ran s .tsx with x := s.sp, p := t.p } ∧ FlagsBecome s t (zn s.sp)) ∧
    exec .txs s = .next { ran s .txs with sp := s.x } ∧
    Instr.opcode .tax = some 0xAA#8 ∧ Instr.opcode .tay = some 0xA8#8 ∧ Instr.opcode .txa = some 0x8A#8 ∧
    Instr.opcode .tya = some 0x98#8 ∧ Instr.opcode .tsx = some 0xBA#8 ∧ Instr.opcode .txs = some 0x9A#8

/-! ## Arithmetic and logic -/

/-- 42_alu.md R142, with R141. That the `TopCellAccess` of a read that fails is a next state is the model's reading (log
entry 6). -/
def Obligations.AddWithCarryCompletes : Prop :=
  Reads .adc [(.imm, 0x69#8), (.zp, 0x65#8), (.zpx, 0x75#8), (.abs, 0x6D#8), (.absx, 0x7D#8), (.absy, 0x79#8),
      (.indx, 0x61#8), (.indy, 0x71#8)]
    (fun s m t => t.x = s.x ∧ t.y = s.y ∧ Added s m.toNat (s.flag .c) t)

/-- 42_alu.md R143: ADC of the complement, which is subtraction with the carry as not-borrow. That the `TopCellAccess` of a
read that fails is a next state is the model's reading (log entry 6). -/
def Obligations.SubtractWithCarryCompletes : Prop :=
  Reads .sbc [(.imm, 0xE9#8), (.zp, 0xE5#8), (.zpx, 0xF5#8), (.abs, 0xED#8), (.absx, 0xFD#8), (.absy, 0xF9#8),
      (.indx, 0xE1#8), (.indy, 0xF1#8)]
    (fun s m t => t.x = s.x ∧ t.y = s.y ∧ Added s (255 - m.toNat) (s.flag .c) t ∧
      ((t.a.toNat : Int) = ((s.a.toNat : Int) - m.toNat - (1 - (s.flag .c).toNat)) % 256) ∧
      t.flag .c = decide (m.toNat + (1 - (s.flag .c).toNat) ≤ s.a.toNat))

/-- 42_alu.md R141: the overflow of ADC and SBC, whatever the operand, is that of signed addition and subtraction. -/
def Obligations.OverflowIsSigned : Prop :=
  ∀ (s t : State) (o : Operand) (m : Byte), s.operand o = some m →
    (exec (.adc o) s = .next t →
      (t.flag .v = true ↔
        s.a.toInt + m.toInt + (s.flag .c).toNat < -128 ∨ 127 < s.a.toInt + m.toInt + (s.flag .c).toNat)) ∧
    (exec (.sbc o) s = .next t →
      (t.flag .v = true ↔
        s.a.toInt - m.toInt - (1 - (s.flag .c).toNat : Int) < -128 ∨
          127 < s.a.toInt - m.toInt - (1 - (s.flag .c).toNat : Int)))

/-- 42_alu.md R158: an SBC with carry `1 - c` undoes an ADC with carry `c` of the same byte, wherever the two operands
find it. -/
def Obligations.SubtractUndoesAdd : Prop :=
  ∀ (s t u v : State) (o o' : Operand) (m : Byte), s.operand o = some m → u.operand o' = some m →
    exec (.adc o) s = .next t → u.a = t.a → u.flag .c = !s.flag .c →
    exec (.sbc o') u = .next v → v.a = s.a

/-- 42_alu.md R144, R145, R146. That the `TopCellAccess` of a read that fails is a next state is the model's reading (log
entry 6). -/
def Obligations.LogicCompletes : Prop :=
  Reads .and [(.imm, 0x29#8), (.zp, 0x25#8), (.zpx, 0x35#8), (.abs, 0x2D#8), (.absx, 0x3D#8), (.absy, 0x39#8),
      (.indx, 0x21#8), (.indy, 0x31#8)]
    (fun s m t => t.a = s.a &&& m ∧ t.x = s.x ∧ t.y = s.y ∧ FlagsBecome s t (zn t.a)) ∧
  Reads .ora [(.imm, 0x09#8), (.zp, 0x05#8), (.zpx, 0x15#8), (.abs, 0x0D#8), (.absx, 0x1D#8), (.absy, 0x19#8),
      (.indx, 0x01#8), (.indy, 0x11#8)]
    (fun s m t => t.a = s.a ||| m ∧ t.x = s.x ∧ t.y = s.y ∧ FlagsBecome s t (zn t.a)) ∧
  Reads .eor [(.imm, 0x49#8), (.zp, 0x45#8), (.zpx, 0x55#8), (.abs, 0x4D#8), (.absx, 0x5D#8), (.absy, 0x59#8),
      (.indx, 0x41#8), (.indy, 0x51#8)]
    (fun s m t => t.a = s.a ^^^ m ∧ t.x = s.x ∧ t.y = s.y ∧ FlagsBecome s t (zn t.a))

/-- 42_alu.md R147, R148, R149, R150: no register is written. That the `TopCellAccess` of a read that fails is a next state is
the model's reading (log entry 6). -/
def Obligations.ComparesComplete : Prop :=
  Reads .cmp [(.imm, 0xC9#8), (.zp, 0xC5#8), (.zpx, 0xD5#8), (.abs, 0xCD#8), (.absx, 0xDD#8), (.absy, 0xD9#8),
      (.indx, 0xC1#8), (.indy, 0xD1#8)] (fun s m t => t.x = s.x ∧ t.y = s.y ∧ Compared s.a m s t) ∧
  Reads .cpx [(.imm, 0xE0#8), (.zp, 0xE4#8), (.abs, 0xEC#8)]
    (fun s m t => t.x = s.x ∧ t.y = s.y ∧ Compared s.x m s t) ∧
  Reads .cpy [(.imm, 0xC0#8), (.zp, 0xC4#8), (.abs, 0xCC#8)]
    (fun s m t => t.x = s.x ∧ t.y = s.y ∧ Compared s.y m s t)

/-- 42_alu.md R151: Z from the conjunction, V and N from bits 6 and 7 of the operand alone. That the `TopCellAccess` of a read
that fails is a next state is the model's reading (log entry 6). -/
def Obligations.BitTestCompletes : Prop :=
  Reads .bit [(.zp, 0x24#8), (.abs, 0x2C#8)]
    (fun s m t => t.a = s.a ∧ t.x = s.x ∧ t.y = s.y ∧
      FlagsBecome s t [(.z, s.a &&& m == 0x00#8), (.v, decide (64 ≤ m.toNat % 128)), (.n, decide (128 ≤ m.toNat))])

/-- 42_alu.md R152, R153.
That a delegated write-back changes nothing but the mapper is the model's choice (log entry 10), and that the
`TopCellAccess` of a read that fails is a next state its reading (log entry 6). -/
def Obligations.MemoryStepsComplete : Prop :=
  Modifies .inc [(.zp, 0xE6#8), (.zpx, 0xF6#8), (.abs, 0xEE#8), (.absx, 0xFE#8)]
    (fun _ old => BitVec.ofNat 8 ((old.toNat + 1) % 256))
    (fun s old t => t.a = s.a ∧ FlagsBecome s t (zn (BitVec.ofNat 8 ((old.toNat + 1) % 256)))) ∧
  Modifies .dec [(.zp, 0xC6#8), (.zpx, 0xD6#8), (.abs, 0xCE#8), (.absx, 0xDE#8)]
    (fun _ old => BitVec.ofNat 8 ((old.toNat + 255) % 256))
    (fun s old t => t.a = s.a ∧ FlagsBecome s t (zn (BitVec.ofNat 8 ((old.toNat + 255) % 256))))

/-- 42_alu.md R154 to R157. -/
def Obligations.IndexStepsComplete : Prop :=
  ∀ (s : State),
    (∃ t, exec .inx s = .next t ∧ t = { ran s .inx with x := t.x, p := t.p } ∧
      t.x.toNat = (s.x.toNat + 1) % 256 ∧ FlagsBecome s t (zn t.x)) ∧
    (∃ t, exec .iny s = .next t ∧ t = { ran s .iny with y := t.y, p := t.p } ∧
      t.y.toNat = (s.y.toNat + 1) % 256 ∧ FlagsBecome s t (zn t.y)) ∧
    (∃ t, exec .dex s = .next t ∧ t = { ran s .dex with x := t.x, p := t.p } ∧
      t.x.toNat = (s.x.toNat + 255) % 256 ∧ FlagsBecome s t (zn t.x)) ∧
    (∃ t, exec .dey s = .next t ∧ t = { ran s .dey with y := t.y, p := t.p } ∧
      t.y.toNat = (s.y.toNat + 255) % 256 ∧ FlagsBecome s t (zn t.y)) ∧
    Instr.opcode .inx = some 0xE8#8 ∧ Instr.opcode .iny = some 0xC8#8 ∧ Instr.opcode .dex = some 0xCA#8 ∧
    Instr.opcode .dey = some 0x88#8

/-! ## Shifts and rotates -/

/-- 43_shift_rotate.md R166 to R169: on memory, and on A in the accumulator mode (40_addressing.md R101).
That a delegated write-back changes nothing but the mapper is the model's choice (log entry 10), and that the
`TopCellAccess` of a read that fails is a next state its reading (log entry 6). -/
def Obligations.ShiftsComplete : Prop :=
  Modifies (fun o => .asl (.mem o)) [(.zp, 0x06#8), (.zpx, 0x16#8), (.abs, 0x0E#8), (.absx, 0x1E#8)]
    (fun _ old => shiftedLeft old)
    (fun s old t => t.a = s.a ∧ FlagsBecome s t (leftCarry old :: zn (shiftedLeft old))) ∧
  Modifies (fun o => .lsr (.mem o)) [(.zp, 0x46#8), (.zpx, 0x56#8), (.abs, 0x4E#8), (.absx, 0x5E#8)]
    (fun _ old => shiftedRight old)
    (fun s old t => t.a = s.a ∧ FlagsBecome s t (rightCarry old :: zn (shiftedRight old))) ∧
  Modifies (fun o => .rol (.mem o)) [(.zp, 0x26#8), (.zpx, 0x36#8), (.abs, 0x2E#8), (.absx, 0x3E#8)]
    (fun s old => rotatedLeft old (s.flag .c))
    (fun s old t => t.a = s.a ∧ FlagsBecome s t (leftCarry old :: zn (rotatedLeft old (s.flag .c)))) ∧
  Modifies (fun o => .ror (.mem o)) [(.zp, 0x66#8), (.zpx, 0x76#8), (.abs, 0x6E#8), (.absx, 0x7E#8)]
    (fun s old => rotatedRight old (s.flag .c))
    (fun s old t => t.a = s.a ∧ FlagsBecome s t (rightCarry old :: zn (rotatedRight old (s.flag .c)))) ∧
  ∀ (s : State) (i : Instr) (op new : Byte) (carry : Flag × Bool),
    (i, op, new, carry) ∈
      [(Instr.asl .acc, 0x0A#8, shiftedLeft s.a, leftCarry s.a),
       (Instr.lsr .acc, 0x4A#8, shiftedRight s.a, rightCarry s.a),
       (Instr.rol .acc, 0x2A#8, rotatedLeft s.a (s.flag .c), leftCarry s.a),
       (Instr.ror .acc, 0x6A#8, rotatedRight s.a (s.flag .c), rightCarry s.a)] →
    i.opcode = some op ∧
    ∃ t, exec i s = .next t ∧ t = { ran s i with a := new, p := t.p } ∧ FlagsBecome s t (carry :: zn new)

/-! ## Control transfer -/

/-- 44_control_stack_flags.md R175 to R183: a branch goes to `at + 2 + s8(d)` modulo 65536 when its condition holds and to
`at + 2` otherwise, and changes nothing else. -/
def Obligations.BranchesComplete : Prop :=
  ∀ (s : State) (d : Byte) (i : Instr) (op : Byte) (taken : Bool),
    (i, op, taken) ∈
      [(Instr.bpl d, 0x10#8, !s.flag .n), (Instr.bmi d, 0x30#8, s.flag .n),
       (Instr.bvc d, 0x50#8, !s.flag .v), (Instr.bvs d, 0x70#8, s.flag .v),
       (Instr.bcc d, 0x90#8, !s.flag .c), (Instr.bcs d, 0xB0#8, s.flag .c),
       (Instr.bne d, 0xD0#8, !s.flag .z), (Instr.beq d, 0xF0#8, s.flag .z)] →
    i.opcode = some op ∧
    ∃ t, exec i s = .next t ∧ t = { ran s i with pc := t.pc } ∧
      (t.pc.toNat : Int) = ((s.pc.toNat : Int) + 2 + if taken then d.toInt else 0) % 65536

/-- 44_control_stack_flags.md R184: JMP sets PC to the effective address and changes nothing else. That the `TopCellAccess` of
a pointer that cannot be read is a next state is the model's reading (log entry 6). -/
def Obligations.JumpCompletes : Prop :=
  ∀ (s : State) (o : Operand) (op : Byte),
    (Instr.jmp o).opcode = [(Mode.abs, 0x4C#8), (.ind, 0x6C#8)].lookup o.mode ∧
    ([(Mode.abs, 0x4C#8), (.ind, 0x6C#8)].lookup o.mode = some op →
      (∀ a, s.ea o = some a → exec (.jmp o) s = .next { ran s (.jmp o) with pc := a }) ∧
      (s.ea o = none → exec (.jmp o) s = .next (failed s (.jmp o) .topCellAccess op)))

/-- 44_control_stack_flags.md R185: JSR pushes the address of its last byte, high byte first, and jumps. That a push
delegated to the mapper changes nothing but SP and the mapper is the model's choice (log entry 10). -/
def Obligations.SubroutineCallCompletes : Prop :=
  ∀ (s : State) (target : Word), Instr.opcode (.jsr target) = some 0x20#8 ∧
    ∃ u v t, exec (.jsr target) s = .next t ∧
      Pushed s u (BitVec.ofNat 8 ((s.pc.toNat + 2) % 65536 / 256)) ∧
      Pushed u v (BitVec.ofNat 8 ((s.pc.toNat + 2) % 256)) ∧
      t = { ran v (.jsr target) with pc := target }

/-- 44_control_stack_flags.md R186: RTS pulls the low byte, then the high byte, and PC is the word plus one. -/
def Obligations.SubroutineReturnCompletes : Prop :=
  ∀ (s : State), Instr.opcode .rts = some 0x60#8 ∧
    ∃ t, exec .rts s = .next t ∧ t = { ran s .rts with sp := s.sp + 2, pc := t.pc } ∧
      t.pc.toNat = ((stackByte s 1).toNat * 256 + (stackByte s 0).toNat + 1) % 65536

/-- 44_control_stack_flags.md R185: an RTS after a JSR returns to the byte after the three-byte JSR, with SP as it was. -/
def Obligations.ReturnAfterCall : Prop :=
  ∀ (s t u : State) (target : Word), s.noWindow → exec (.jsr target) s = .next t → exec .rts t = .next u →
    u.pc.toNat = (s.pc.toNat + 3) % 65536 ∧ u.sp = s.sp ∧ u.a = s.a ∧ u.x = s.x ∧ u.y = s.y ∧ u.p = s.p

/-! ## Stack and flags -/

/-- 44_control_stack_flags.md R187, R189: PHP pushes the status with bits 4 and 5 set, and the status keeps its bits, which
are the flags in the order of 10_state.md R25 to R33. That a push delegated to the mapper changes nothing but SP and the
mapper is the model's choice (log entry 10). -/
def Obligations.PushesComplete : Prop :=
  ∀ (s : State), Instr.opcode .pha = some 0x48#8 ∧ Instr.opcode .php = some 0x08#8 ∧
    [Flag.c, .z, .i, .d, .b, .u, .v, .n].map s.flag = (List.range 8).map s.p.getLsbD ∧
    (∃ u, exec .pha s = .next (ran u .pha) ∧ Pushed s u s.a) ∧
    (∃ u, exec .php s = .next (ran u .php) ∧ Pushed s u (s.p ||| 0x30#8))

/-- 44_control_stack_flags.md R188, R190: PLA loads A and its flags; PLP loads the status but keeps bit 4 and sets
bit 5. -/
def Obligations.PullsComplete : Prop :=
  ∀ (s : State), Instr.opcode .pla = some 0x68#8 ∧ Instr.opcode .plp = some 0x28#8 ∧
    (∃ t, exec .pla s = .next t ∧ t = { ran s .pla with sp := s.sp + 1, a := stackByte s 0, p := t.p } ∧
      FlagsBecome s t (zn (stackByte s 0))) ∧
    exec .plp s = .next { ran s .plp with
      sp := s.sp + 1
      p := (stackByte s 0 &&& 0xEF#8) ||| (s.p &&& 0x10#8) ||| 0x20#8 }

/-- 44_control_stack_flags.md R191 to R197: each writes its one bit and nothing else. -/
def Obligations.FlagInstructionsComplete : Prop :=
  ∀ (s : State) (i : Instr) (op : Byte) (f : Flag) (b : Bool),
    (i, op, f, b) ∈
      [(Instr.clc, 0x18#8, Flag.c, false), (Instr.sec, 0x38#8, Flag.c, true), (Instr.cli, 0x58#8, Flag.i, false),
       (Instr.sei, 0x78#8, Flag.i, true), (Instr.cld, 0xD8#8, Flag.d, false), (Instr.sed, 0xF8#8, Flag.d, true),
       (Instr.clv, 0xB8#8, Flag.v, false)] →
    i.opcode = some op ∧ ∃ t, exec i s = .next t ∧ t = { ran s i with p := t.p } ∧ FlagsBecome s t [(f, b)]

/-! ## Undocumented instructions -/

/-- 45_undocumented.md R201, R202, R203: the byte is shifted or rotated in memory, and A is combined with the new byte.
That a delegated write-back changes nothing but the mapper is the model's choice (log entry 10), and that the
`TopCellAccess` of a read that fails is a next state its reading (log entry 6). -/
def Obligations.ShiftThenLogicComplete : Prop :=
  Modifies .slo [(.zp, 0x07#8), (.zpx, 0x17#8), (.abs, 0x0F#8), (.absx, 0x1F#8), (.absy, 0x1B#8), (.indx, 0x03#8),
      (.indy, 0x13#8)]
    (fun _ old => shiftedLeft old)
    (fun s old t => t.a = s.a ||| shiftedLeft old ∧ FlagsBecome s t (leftCarry old :: zn t.a)) ∧
  Modifies .rla [(.zp, 0x27#8), (.zpx, 0x37#8), (.abs, 0x2F#8), (.absx, 0x3F#8), (.absy, 0x3B#8), (.indx, 0x23#8),
      (.indy, 0x33#8)]
    (fun s old => rotatedLeft old (s.flag .c))
    (fun s old t => t.a = s.a &&& rotatedLeft old (s.flag .c) ∧ FlagsBecome s t (leftCarry old :: zn t.a)) ∧
  Modifies .sre [(.zp, 0x47#8), (.zpx, 0x57#8), (.abs, 0x4F#8), (.absx, 0x5F#8), (.absy, 0x5B#8), (.indx, 0x43#8),
      (.indy, 0x53#8)]
    (fun _ old => shiftedRight old)
    (fun s old t => t.a = s.a ^^^ shiftedRight old ∧ FlagsBecome s t (rightCarry old :: zn t.a))

/-- 45_undocumented.md R204, R205, R206: RRA adds with the bit ROR shifted out as the carry in, ISC subtracts the
incremented byte, DCP compares with the decremented one.
That a delegated write-back changes nothing but the mapper is the model's choice (log entry 10), and that the
`TopCellAccess` of a read that fails is a next state its reading (log entry 6). -/
def Obligations.ModifyThenArithmeticComplete : Prop :=
  Modifies .rra [(.zp, 0x67#8), (.zpx, 0x77#8), (.abs, 0x6F#8), (.absx, 0x7F#8), (.absy, 0x7B#8), (.indx, 0x63#8),
      (.indy, 0x73#8)]
    (fun s old => rotatedRight old (s.flag .c))
    (fun s old t => Added s (rotatedRight old (s.flag .c)).toNat (rightCarry old).2 t) ∧
  Modifies .isc [(.zp, 0xE7#8), (.zpx, 0xF7#8), (.abs, 0xEF#8), (.absx, 0xFF#8), (.absy, 0xFB#8), (.indx, 0xE3#8),
      (.indy, 0xF3#8)]
    (fun _ old => BitVec.ofNat 8 ((old.toNat + 1) % 256))
    (fun s old t => Added s (255 - (old.toNat + 1) % 256) (s.flag .c) t) ∧
  Modifies .dcp [(.zp, 0xC7#8), (.zpx, 0xD7#8), (.abs, 0xCF#8), (.absx, 0xDF#8), (.absy, 0xDB#8), (.indx, 0xC3#8),
      (.indy, 0xD3#8)]
    (fun _ old => BitVec.ofNat 8 ((old.toNat + 255) % 256))
    (fun s old t => Compared s.a (BitVec.ofNat 8 ((old.toNat + 255) % 256)) s t)

/-- 45_undocumented.md R209, R210 with the opcodes of 30_encoding.md R86: a no-op moves PC past its bytes, is counted, and
changes nothing else. That the `TopCellAccess` of a read that fails is a next state is the model's reading (log entry 6). -/
def Obligations.NoOpsComplete : Prop :=
  (∀ (s : State) (op : Byte), op ∈ [0xEA#8, 0x1A#8, 0x3A#8, 0x5A#8, 0x7A#8, 0xDA#8, 0xFA#8] →
    (Instr.nop op none).opcode = some op ∧ exec (.nop op none) s = .next (ran s (.nop op none))) ∧
  (∀ (s : State) (op : Byte) (o : Operand),
    (o.mode, op) ∈
      [(Mode.imm, 0x80#8), (.imm, 0x82#8), (.imm, 0x89#8), (.imm, 0xC2#8), (.imm, 0xE2#8), (.zp, 0x04#8), (.zp, 0x44#8),
       (.zp, 0x64#8), (.zpx, 0x14#8), (.zpx, 0x34#8), (.zpx, 0x54#8), (.zpx, 0x74#8), (.zpx, 0xD4#8), (.zpx, 0xF4#8),
       (.abs, 0x0C#8), (.absx, 0x1C#8), (.absx, 0x3C#8), (.absx, 0x5C#8), (.absx, 0x7C#8), (.absx, 0xDC#8),
       (.absx, 0xFC#8)] →
    (Instr.nop op (some o)).opcode = some op ∧
    (∀ m, s.operand o = some m → exec (.nop op (some o)) s = .next (ran s (.nop op (some o)))) ∧
    (s.operand o = none → exec (.nop op (some o)) s = .next (failed s (.nop op (some o)) .topCellAccess op)))

/-- 45_undocumented.md R211 with the opcodes of 30_encoding.md R85: JAM sets `halted`, is counted, changes nothing else,
and no step follows (R94). That the step after it answers the fault `halted` is the model's reading (log entry 7). -/
def Obligations.HaltClassHalts : Prop :=
  ∀ (s : State) (op : Byte) (rest : List Byte), op ∈ twelveJam →
    decode (op :: rest) = .ok (.jam op, rest) ∧
    exec (.jam op) s = .next { ran s (.jam op) with halted := true } ∧
    (s.mapper.isSome = true → s.fault = none →
      step { ran s (.jam op) with halted := true } = .fault .halted)

/-! ## Fatal conditions, BRK and RTI -/

/-- 30_encoding.md R84, 60_exceptions.md R221, R228: the fourteen bytes are decoded as unknown whatever follows;
executing one, or BRK or RTI under `BRK_RTI_MODE = Fatal`, records the fatal condition, with PC past the opcode, changes
and counts nothing else, and no step follows (R94). That the record is a next state and that the stop of the step after it
carries it are the model's reading (log entry 6); that an unknown opcode decodes as one byte, where R88 leaves its length
undefined, is its choice (log entry 25). -/
def Obligations.UnimplementedOpcodesAreFatal : Prop :=
  ∀ (s : State) (i : Instr) (op : Byte),
    (i = .unknown op ∧ op ∈ fourteenUnknown) ∨
      (s.params.brkRti = .fatal ∧ (i, op) ∈ [(Instr.brk, 0x00#8), (.rti, 0x40#8)]) →
    let t := { s with
      pc := s.pc + 1
      fault := some { kind := .unimplementedOpcode, opcode := op, addr := s.pc } }
    (∀ rest, decode (op :: rest) = .ok (i, rest)) ∧ exec i s = .next t ∧
    (s.mapper.isSome = true →
      step t = .fault (.fatal { kind := .unimplementedOpcode, opcode := op, addr := s.pc }))

/-- 60_exceptions.md R226: under `BRK_RTI_MODE = Standard` BRK pushes PC past the padding byte, high byte first, then the
status with bits 4 and 5 set, sets I, and takes PC from 0xFFFE. Under `TOP_CELL_POLICY = Fault` it always faults: at the
padding byte when that is at 0xFFFF, with PC still at it, and otherwise at the vector, where the pushes, I and the PC
past the padding byte stay (R222). That the record is a next state and where PC is left by the padding byte's fetch are the
model's readings (log entries 6 and 16); that a push delegated to the mapper changes nothing but SP and the mapper is its
choice (log entry 10). -/
def Obligations.BreakStandardEntry : Prop :=
  ∀ (s : State), s.params.brkRti = .standard → Instr.opcode .brk = some 0x00#8 ∧
    (s.params.topCell = .fault → s.pc = 0xFFFE#16 → exec .brk s = .next (failed s .brk .topCellAccess 0x00#8)) ∧
    (s.params.topCell = .cell ∨ s.pc ≠ 0xFFFE#16 →
      ∃ u v w t, exec .brk s = .next t ∧
        Pushed s u (BitVec.ofNat 8 ((s.pc.toNat + 2) % 65536 / 256)) ∧
        Pushed u v (BitVec.ofNat 8 ((s.pc.toNat + 2) % 256)) ∧
        Pushed v w (s.p ||| 0x30#8) ∧
        FlagsBecome s t [(.i, true)] ∧
        (s.params.topCell = .cell →
          t = { ran w .brk with p := t.p, pc := t.pc } ∧
          t.pc.toNat = (s.mem.read 0xFFFF).toNat * 256 + (s.mem.read 0xFFFE).toNat) ∧
        (s.params.topCell = .fault →
          t = { w with
            p := t.p
            pc := s.pc + 2
            fault := some { kind := .topCellAccess, opcode := 0x00#8, addr := s.pc } }))

/-- 60_exceptions.md R227: under `BRK_RTI_MODE = Standard` RTI pulls the status as PLP does, then PC, with no increment. -/
def Obligations.ReturnFromBreakStandard : Prop :=
  ∀ (s : State), s.params.brkRti = .standard → Instr.opcode .rti = some 0x40#8 ∧
    exec .rti s = .next { ran s .rti with
      sp := s.sp + 3
      p := (stackByte s 0 &&& 0xEF#8) ||| (s.p &&& 0x10#8) ||| 0x20#8
      pc := BitVec.ofNat 16 ((stackByte s 2).toNat * 256 + (stackByte s 1).toNat) }

/-! ## The step -/

/-- 30_encoding.md R89: when the bytes at PC are those of a well-formed instruction, a step executes it. -/
def Obligations.StepRunsDecodedInstruction : Prop :=
  ∀ (s : State) (i : Instr), s.runnable → i.wf = true →
    (∀ k (h : k < (encode i).length), s.peek (s.pc + BitVec.ofNat 16 k) = some ((encode i)[k]'h)) →
    step s = exec i s

/-- No step exists before a mapper is installed (30_encoding.md R94, 70_reset_and_hazards.md R247), after a fatal condition
or after a halt (R94). Which outcome stands for that is the model's reading: the recorded fatal condition (log entry 6), the
fault `halted` (log entry 7), and the missing mapper before the two others (log entry 8). -/
def Obligations.NoStepWhenStopped : Prop :=
  ∀ (s : State),
    (s.mapper = none → step s = .refused .noMapper) ∧
    (∀ r, s.mapper.isSome = true → s.fault = some r → step s = .fault (.fatal r)) ∧
    (s.mapper.isSome = true → s.fault = none → s.halted = true → step s = .fault .halted)

/-- A runnable state always steps to a next state, which keeps the parameters, the master clock and an installed mapper. A
fatal condition (60_exceptions.md R221, R222) is a next state that records it, which is the model's reading (log entry 6);
every other condition is defined behaviour (R220). -/
def Obligations.RunnableStateSteps : Prop :=
  ∀ (s : State), s.runnable →
    ∃ t, step s = .next t ∧ t.params = s.params ∧ t.masterClock = s.masterClock ∧ t.mapper.isSome = true

/-- 30_encoding.md R90: a step counts one instruction exactly when it meets no fatal condition (60_exceptions.md R222),
modulo 2 to the `CLOCK_BITS` if that is finite (10_state.md R42). That a fatal condition is a next state is the model's
reading (log entry 6). -/
def Obligations.StepCountsCompleted : Prop :=
  ∀ (s t : State), s.runnable → step s = .next t →
    (t.fault = none → t.internalClock =
      match s.params.clockBits with
      | none => s.internalClock + 1
      | some bits => (s.internalClock + 1) % 2 ^ bits) ∧
    (t.fault ≠ none → t.internalClock = s.internalClock)

/-- 60_exceptions.md R235: only a halt-class instruction halts the block, and it always does. -/
def Obligations.OnlyHaltClassHalts : Prop :=
  ∀ (s t : State), s.runnable → step s = .next t →
    (t.halted = true ↔ ∃ op, s.peek s.pc = some op ∧ op ∈ twelveJam)

/-- 60_exceptions.md R221, R222, R224: what a fatal condition can be. It names the address of the step's opcode; an
unimplemented opcode is one of the fourteen, or BRK or RTI under `Fatal`; a top-cell access arises under its policy
alone. That a fatal condition is a next state is the model's reading (log entry 6). -/
def Obligations.FatalConditionCauses : Prop :=
  ∀ (s t : State) (r : FatalRecord), s.runnable → step s = .next t → t.fault = some r →
    r.addr = s.pc ∧
    (r.kind = .unimplementedOpcode →
      s.peek s.pc = some r.opcode ∧
        (r.opcode ∈ fourteenUnknown ∨ (s.params.brkRti = .fatal ∧ (r.opcode = 0x00#8 ∨ r.opcode = 0x40#8)))) ∧
    (r.kind = .topCellAccess → s.params.topCell = .fault)

/-- 60_exceptions.md R222, 30_encoding.md R81: under `TOP_CELL_POLICY = Fault` an opcode fetch at 0xFFFF faults before
decode and moves nothing, whatever the recorded opcode is (log entry 9). The model's reading of the pseudocode's order
(log entry 16): an operand byte at 0xFFFF faults with PC past it for an immediate or a branch, and before it
otherwise. That the fault is a next state is its reading too (log entry 6). -/
def Obligations.FetchMeetsTopCell : Prop :=
  ∀ (s : State), s.runnable → s.params.topCell = .fault →
    (s.pc = 0xFFFF#16 → ∃ op, step s = .next { s with
      fault := some { kind := .topCellAccess, opcode := op, addr := 0xFFFF#16 }
      freeDraws := s.freeDraws + 1 }) ∧
    (∀ op, s.pc = 0xFFFE#16 → s.peek 0xFFFE#16 = some op → (opcodeEntry op).mode.operandBytes ≠ 0 →
      step s = .next { s with
        pc := if (opcodeEntry op).mode = .imm ∨ (opcodeEntry op).mode = .rel then 0x0000#16 else 0xFFFF#16
        fault := some { kind := .topCellAccess, opcode := op, addr := 0xFFFE#16 } }) ∧
    (∀ op, s.pc = 0xFFFD#16 → s.peek 0xFFFD#16 = some op → (opcodeEntry op).mode.operandBytes = 2 →
      step s = .next { s with
        pc := 0xFFFE#16
        fault := some { kind := .topCellAccess, opcode := op, addr := 0xFFFD#16 } })

/-! ## Invariants -/

/-- Every step keeps the storage array's canonical form (10_state.md R36: one cell for each address). -/
def Obligations.StepKeepsStorageCanonical : Prop :=
  ∀ (s t : State), s.mem.wf = true → step s = .next t → t.mem.wf = true

/-- 10_state.md R30, R31: bits B and U, once 1, stay 1. -/
def Obligations.StepKeepsForcedBits : Prop :=
  ∀ (s t : State), s.forcedBits → step s = .next t → t.forcedBits

/-- 20_memory.md R70, R71: with an empty register window, as NROM declares, no step changes the mapper. -/
def Obligations.StepKeepsWindowlessMapper : Prop :=
  ∀ (s t : State), s.noWindow → step s = .next t → t.mapper = s.mapper ∧ t.noWindow

/-- Every step keeps both clocks within `CLOCK_BITS` bits (10_state.md R35, R41, R42). -/
def Obligations.StepKeepsClocksInWidth : Prop :=
  ∀ (s t : State), s.clocksFit → step s = .next t → t.clocksFit

/-- The invariants hold after power-on, for all parameters and every canonical first contents of the storage array. -/
def Obligations.PowerOnMeetsInvariants : Prop :=
  (∀ (params : Params) (ram : Memory), ram.wf = true →
    let s := State.atPowerOn params ram
    s.mem.wf = true ∧ s.forcedBits ∧ s.noWindow ∧ s.clocksFit) ∧
  State.reset.mem.wf = true ∧ State.reset.forcedBits ∧ State.reset.noWindow ∧ State.reset.clocksFit

/-- 42_alu.md R159: the decimal flag has no effect. An instruction that neither writes it nor moves the whole status does
the same with it set or clear, and leaves it as it was. -/
def Obligations.DecimalFlagHasNoEffect : Prop :=
  ∀ (s t : State) (i : Instr) (b : Bool), i ∉ [Instr.sed, .cld, .php, .plp, .brk, .rti] →
    exec i s = .next t → exec i (s.setFlag .d b) = .next (t.setFlag .d b)

/-! ## The host's operations -/

/-- 70_reset_and_hazards.md R240, R241: what `power_on` writes, and that storage and mapper keep their contents. -/
def Obligations.PowerOnWrites : Prop :=
  ∀ (s : State),
    let t := s.powerOn
    t.a = s.params.powerOnA ∧ t.x = s.params.powerOnX ∧ t.y = s.params.powerOnY ∧ t.pc = s.params.powerOnPc ∧
    t.p = 0x34#8 ∧ t.sp = 0xFD#8 ∧ t.halted = false ∧ t.fault = none ∧ t.internalClock = 0 ∧ t.masterClock = 0 ∧
    t.mem = s.mem ∧ t.mapper = s.mapper

/-- 70_reset_and_hazards.md R242, R243 and 20_memory.md R69, R70: `load_rom` of NROM program bytes. -/
def Obligations.LoadRomProjects : Prop :=
  ∀ (s : State) (c : Cartridge),
    (c.mapperId ≠ 0x00#8 → s.loadCartridge c = .error (.unsupportedMapper c.mapperId)) ∧
    (c.mapperId = 0x00#8 → c.prg.length ≠ 16384 → c.prg.length ≠ 32768 →
      s.loadCartridge c = .error (.unsupportedPrgSize c.prg.length)) ∧
    (c.mapperId = 0x00#8 → c.prg.length = 16384 ∨ c.prg.length = 32768 →
      ∃ t mp, s.loadCartridge c = .ok t ∧
        t = { s with mapper := some mp, mem := t.mem, pc := 0x8000#16, halted := false } ∧
        mp = ⟨.nrom, c.prg, c.chr, ⟨0x8000#16, 0x0000#16, 0x0000#16⟩⟩ ∧
        (∀ k (h : k < c.prg.length), t.mem.read (0x8000 + k) = c.prg[k]'h) ∧
        (c.prg.length = 16384 → ∀ k (h : k < c.prg.length), t.mem.read (0xC000 + k) = c.prg[k]'h) ∧
        (∀ b, b < 0x8000 → t.mem.read b = s.mem.read b))

/-- 70_reset_and_hazards.md R246: `step(n)` is `k` steps from the state with the master clock raised by `n`, where `k` is
the number of instructions counted, and one more if a fatal condition ends the run; it goes on until the count has caught up
with the master clock, unless a halt or a fatal condition ends it first. That a fatal condition is a
next state is the model's reading (log entry 6). -/
def Obligations.BudgetIsExact : Prop :=
  ∀ (s : State) (n : Nat), s.mapper.isSome = true → s.params.clockBits = none → s.internalClock ≤ s.masterClock →
    ∃ t k, hostStep n s = .next t ∧
      Host.Core.run Sys2Proof.core k { s with masterClock := s.masterClock + n } = .next t ∧
      t.internalClock + (if t.fault = s.fault then 0 else 1) = s.internalClock + k ∧
      t.masterClock = s.masterClock + n ∧
      s.internalClock ≤ t.internalClock ∧ t.internalClock ≤ t.masterClock ∧
      (t.fault = none → t.halted = false → t.internalClock = t.masterClock)

/-- Every operation of the host keeps the invariants together, for whatever file it loads and whatever budget it gives
(70_reset_and_hazards.md R255: nothing else reaches the core). That a finite `CLOCK_BITS` wraps the raised master clock is the
model's reading (log entry 22). -/
def Obligations.HostOperationsKeepInvariants : Prop :=
  ∀ (s t : State) (op : HostOp), (Block.powered s).apply op = .ok (.powered t) →
    s.mem.wf = true → s.forcedBits → s.noWindow → s.clocksFit →
    t.mem.wf = true ∧ t.forcedBits ∧ t.noWindow ∧ t.clocksFit ∧ t.params = s.params

/-- 70_reset_and_hazards.md R247, R248: before the first `power_on` a load and a step are refused, and before the first
`load_rom` a step is. -/
def Obligations.BootOrder : Prop :=
  (∀ (params : Params) (ram : Memory) (file : Option (List Byte)) (n : Nat),
    (Block.unpowered params ram).apply (.loadRom file) = .error .notPowered ∧
    (Block.unpowered params ram).apply (.step n) = .error (.stepRefused .noMapper) ∧
    (Block.unpowered params ram).apply .powerOn = .ok (.powered (State.atPowerOn params ram))) ∧
  (∀ (s : State) (n : Nat), s.mapper = none →
    (Block.powered s).apply (.step n) = .error (.stepRefused .noMapper))
end

