-- ==== Sys2Proof/Laws/Memory.lean ====
section
/-! SUPPORT. The storage array: a read after a write gives the byte written or what was there, every operation keeps the
canonical form, and equal reads are equal arrays. -/

namespace Sys2Proof.Machine

theorem Memory.read_insert (m : Memory) (a b : Nat) (v : Byte) :
    (Memory.insert m a v).read b = if a = b then v else m.read b := by
  induction m with
  | nil => simp [Memory.insert, Memory.read]
  | cons cell rest ih =>
    obtain ⟨k, w⟩ := cell
    simp only [Memory.insert]
    split
    · simp [Memory.read]
    · split
      · subst k; simp [Memory.read]; split <;> simp_all
      · simp only [Memory.read, ih]; split <;> simp_all

theorem Memory.read_erase (m : Memory) (a b : Nat) :
    Memory.read (m.filter fun cell => cell.1 != a) b = if a = b then Memory.unlisted else Memory.read m b := by
  induction m with
  | nil => simp [Memory.read]
  | cons cell rest ih =>
    obtain ⟨k, w⟩ := cell
    by_cases hk : k = a
    · subst k; simp only [List.filter, bne_self_eq_false, ih, Memory.read]; split <;> simp_all
    · have : (k != a) = true := by simpa using hk
      simp only [List.filter, this, Memory.read, ih]
      split <;> split <;> simp_all

/-- What a write does to every read. -/
theorem Memory.read_write (m : Memory) (a b : Nat) (v : Byte) :
    (Memory.write m a v).read b = if a = b then v else m.read b := by
  unfold Memory.write
  split
  · rename_i h; subst h; exact Memory.read_erase m a b
  · exact Memory.read_insert m a b v

@[simp] theorem Memory.read_write_same (m : Memory) (a : Nat) (v : Byte) : (Memory.write m a v).read a = v := by
  simp [Memory.read_write]

theorem Memory.read_write_other (m : Memory) {a b : Nat} (v : Byte) (h : a ≠ b) :
    (Memory.write m a v).read b = m.read b := by
  simp [Memory.read_write, h]

@[simp] theorem Memory.read_nil (a : Nat) : Memory.read [] a = Memory.unlisted := rfl

/-- The canonical form of a list with a first cell. -/
theorem Memory.wfFrom_cons {lo k : Nat} {w : Byte} {rest : Memory} :
    Memory.wfFrom lo ((k, w) :: rest) = true ↔
      lo ≤ k ∧ k < 65536 ∧ w ≠ Memory.unlisted ∧ Memory.wfFrom (k + 1) rest = true := by
  simp [Memory.wfFrom, and_assoc]

theorem Memory.wfFrom_weaken {m : Memory} {lo lo' : Nat} (h : Memory.wfFrom lo m = true) (hl : lo' ≤ lo) :
    Memory.wfFrom lo' m = true := by
  cases m with
  | nil => rfl
  | cons cell rest =>
    obtain ⟨k, w⟩ := cell
    have hc := Memory.wfFrom_cons.1 h
    exact Memory.wfFrom_cons.2 ⟨Nat.le_trans hl hc.1, hc.2⟩

theorem Memory.wfFrom_insert {m : Memory} {lo a : Nat} {v : Byte} (h : Memory.wfFrom lo m = true) (hl : lo ≤ a)
    (ha : a < 65536) (hv : v ≠ Memory.unlisted) : Memory.wfFrom lo (Memory.insert m a v) = true := by
  induction m generalizing lo with
  | nil => simp [Memory.insert, *, Memory.wfFrom]
  | cons cell rest ih =>
    obtain ⟨k, w⟩ := cell
    have hc := Memory.wfFrom_cons.1 h
    simp only [Memory.insert]
    split
    · rw [Memory.wfFrom_cons, Memory.wfFrom_cons]
      refine ⟨hl, ha, hv, by omega, hc.2.1, hc.2.2.1, hc.2.2.2⟩
    · split
      · subst k; rw [Memory.wfFrom_cons]; exact ⟨hl, ha, hv, hc.2.2.2⟩
      · rw [Memory.wfFrom_cons]; exact ⟨hc.1, hc.2.1, hc.2.2.1, ih hc.2.2.2 (by omega)⟩

theorem Memory.wfFrom_filter {m : Memory} {lo : Nat} (f : Host.Cell → Bool) (h : Memory.wfFrom lo m = true) :
    Memory.wfFrom lo (m.filter f) = true := by
  induction m generalizing lo with
  | nil => rfl
  | cons cell rest ih =>
    obtain ⟨k, w⟩ := cell
    have hc := Memory.wfFrom_cons.1 h
    simp only [List.filter]
    split
    · rw [Memory.wfFrom_cons]; exact ⟨hc.1, hc.2.1, hc.2.2.1, ih hc.2.2.2⟩
    · exact Memory.wfFrom_weaken (ih hc.2.2.2) (by omega)

/-- Every write of a cell that exists keeps the canonical form. -/
theorem Memory.wf_write {m : Memory} {a : Nat} {v : Byte} (h : Memory.wf m = true) (ha : a < 65536) :
    Memory.wf (Memory.write m a v) = true := by
  unfold Memory.write
  split
  · exact Memory.wfFrom_filter _ h
  · exact Memory.wfFrom_insert h (Nat.zero_le a) ha ‹_›

/-- Storing bytes that end within the storage array keeps the canonical form. -/
theorem Memory.wf_writeBytes {m : Memory} {a : Nat} {bytes : List Byte} (h : Memory.wf m = true)
    (ha : a + bytes.length ≤ 65536) : Memory.wf (Memory.writeBytes m a bytes) = true := by
  induction bytes generalizing m a with
  | nil => exact h
  | cons b rest ih =>
    simp only [List.length_cons] at ha
    exact ih (Memory.wf_write h (by omega)) (by omega)

/-- What storing bytes does to every read. -/
theorem Memory.read_writeBytes (m : Memory) (a b : Nat) (bytes : List Byte) :
    (Memory.writeBytes m a bytes).read b =
      if h : a ≤ b ∧ b - a < bytes.length then bytes[b - a]'h.2 else m.read b := by
  induction bytes generalizing m a with
  | nil => simp [Memory.writeBytes]
  | cons v rest ih =>
    simp only [Memory.writeBytes, ih, Memory.read_write, List.length_cons]
    by_cases h : a + 1 ≤ b ∧ b - (a + 1) < rest.length
    · rw [dif_pos h, dif_pos (by omega)]
      rw [List.getElem_cons, dif_neg (by omega)]
      congr 1
    · rw [dif_neg h]
      split
      · subst b; simp
      · rw [dif_neg (by omega)]

theorem Memory.read_of_lt {m : Memory} {lo a : Nat} (h : Memory.wfFrom lo m = true) (ha : a < lo) :
    Memory.read m a = Memory.unlisted := by
  induction m generalizing lo with
  | nil => rfl
  | cons cell rest ih =>
    obtain ⟨k, w⟩ := cell
    have hc := Memory.wfFrom_cons.1 h
    simp only [Memory.read]
    rw [if_neg (by omega)]
    exact ih hc.2.2.2 (by omega)

theorem Memory.ext_from {m m' : Memory} {lo : Nat} (h : Memory.wfFrom lo m = true) (h' : Memory.wfFrom lo m' = true)
    (hr : ∀ a, m.read a = m'.read a) : m = m' := by
  induction m generalizing m' lo with
  | nil =>
    cases m' with
    | nil => rfl
    | cons cell rest =>
      obtain ⟨k, w⟩ := cell
      have := hr k
      simp only [Memory.read, if_true] at this
      exact absurd this.symm (Memory.wfFrom_cons.1 h').2.2.1
  | cons cell rest ih =>
    obtain ⟨k, w⟩ := cell
    have hc := Memory.wfFrom_cons.1 h
    cases m' with
    | nil =>
      have := hr k
      simp only [Memory.read, if_true] at this
      exact absurd this hc.2.2.1
    | cons cell' rest' =>
      obtain ⟨k', w'⟩ := cell'
      have hc' := Memory.wfFrom_cons.1 h'
      have hk : k = k' := by
        have e := hr k
        have e' := hr k'
        simp only [Memory.read, if_true] at e e'
        by_contra hne
        rw [if_neg (Ne.symm hne)] at e
        rw [if_neg hne] at e'
        rcases Nat.lt_or_gt_of_ne hne with hlt | hgt
        · rw [Memory.read_of_lt hc'.2.2.2 (by omega)] at e; exact hc.2.2.1 e
        · rw [Memory.read_of_lt hc.2.2.2 (by omega)] at e'; exact hc'.2.2.1 e'.symm
      subst hk
      have hw : w = w' := by simpa [Memory.read] using hr k
      subst hw
      congr 1
      refine ih hc.2.2.2 hc'.2.2.2 fun a => ?_
      by_cases ha : k = a
      · subst ha; rw [Memory.read_of_lt hc.2.2.2 (by omega), Memory.read_of_lt hc'.2.2.2 (by omega)]
      · simpa [Memory.read, ha] using hr a

/-- Canonical arrays that read alike are equal data. -/
theorem Memory.ext_of_read {m m' : Memory} (h : Memory.wf m = true) (h' : Memory.wf m' = true)
    (hr : ∀ a, m.read a = m'.read a) : m = m' :=
  Memory.ext_from h h' hr

end Sys2Proof.Machine
end

