-- ==== Sys2Proof/Laws/Cartridge.lean ====
section
/-! SUPPORT. Projecting a program keeps the storage array canonical. -/

namespace Sys2Proof.Machine

/-- A program that fits keeps the storage array canonical. -/
theorem nromProject_wf {prg : List Byte} {mem : Memory} (h : mem.wf = true) (hl : prg.length ≤ 32768) :
    (nromProject prg mem).wf = true := by
  unfold nromProject
  dsimp only
  split
  · exact Memory.wf_writeBytes (Memory.wf_writeBytes h (by omega)) (by omega)
  · exact Memory.wf_writeBytes h (by omega)

end Sys2Proof.Machine
end

