-- ==== Sys2Proof/Laws/Words.lean ====
section
/-! SUPPORT. Bytes and words as numbers: the two halves of a word, the extensions, and the mirror function. -/

namespace Sys2Proof.Machine

@[simp] theorem word_toNat (hi lo : Byte) : (word hi lo).toNat = hi.toNat * 256 + lo.toNat := by
  have := hi.isLt
  have := lo.isLt
  simp only [word, BitVec.toNat_ofNat]
  omega

@[simp] theorem lowByte_toNat (w : Word) : (lowByte w).toNat = w.toNat % 256 := by
  simp [lowByte]

@[simp] theorem highByte_toNat (w : Word) : (highByte w).toNat = w.toNat / 256 := by
  have := w.isLt
  simp only [highByte, BitVec.toNat_ofNat]
  omega

@[simp] theorem lowByte_word (hi lo : Byte) : lowByte (word hi lo) = lo := by
  apply BitVec.eq_of_toNat_eq
  have := lo.isLt
  rw [lowByte_toNat, word_toNat]
  omega

@[simp] theorem highByte_word (hi lo : Byte) : highByte (word hi lo) = hi := by
  apply BitVec.eq_of_toNat_eq
  have := lo.isLt
  rw [highByte_toNat, word_toNat]
  omega

@[simp] theorem word_highByte_lowByte (w : Word) : word (highByte w) (lowByte w) = w := by
  apply BitVec.eq_of_toNat_eq
  rw [word_toNat, highByte_toNat, lowByte_toNat]
  omega

@[simp] theorem zext_toNat (b : Byte) : (zext b).toNat = b.toNat := by
  have := b.isLt
  simp only [zext, BitVec.toNat_setWidth]
  omega

/-- Bit 7 of a byte as a number (42_alu.md R140). -/
theorem Byte.bit7 (v : Byte) : v.getLsbD 7 = decide (128 ≤ v.toNat) := by
  have := v.isLt
  rw [BitVec.getLsbD, Nat.testBit_eq_decide_div_mod_eq, decide_eq_decide]
  omega

/-- Bit 0 of a byte as a number. -/
theorem Byte.bit0 (v : Byte) : v.getLsbD 0 = decide (v.toNat % 2 = 1) := by
  rw [BitVec.getLsbD, Nat.testBit_eq_decide_div_mod_eq, decide_eq_decide]
  omega

/-- The zero test of a byte as a number (42_alu.md R140). -/
theorem Byte.isZero (v : Byte) : (v == 0x00#8) = decide (v.toNat = 0) := by
  rw [beq_eq_decide, decide_eq_decide, ← BitVec.toNat_inj]
  rfl

/-- `sext_16` has the byte's signed value (00_scope.md R10). -/
@[simp] theorem sext_toInt (b : Byte) : (sext b).toInt = b.toInt :=
  BitVec.toInt_signExtend_of_le (by decide)

/-- 20_memory.md R46 as numbers. -/
theorem mirror_toNat (a : Word) :
    (mirror a).toNat =
      if a.toNat < 0x2000 then a.toNat % 0x800
      else if a.toNat < 0x4000 then 0x2000 + a.toNat % 8
      else a.toNat := by
  unfold mirror
  have h1 : (a ≤ 0x1FFF#16) ↔ a.toNat < 0x2000 := by rw [BitVec.le_def, BitVec.toNat_ofNat]; omega
  have h2 : (a ≤ 0x3FFF#16) ↔ a.toNat < 0x4000 := by rw [BitVec.le_def, BitVec.toNat_ofNat]; omega
  simp only [h1, h2]
  split
  · rw [BitVec.toNat_and]
    exact Nat.and_two_pow_sub_one_eq_mod a.toNat 11
  · split
    · rw [BitVec.toNat_and]
      have hlow : a.toNat &&& 0x0007 = a.toNat % 8 := Nat.and_two_pow_sub_one_eq_mod a.toNat 3
      have hbit : a.toNat &&& 0x2000 = 0x2000 := by
        have hb : a.toNat.testBit 13 = true := by
          rw [Nat.testBit_eq_decide_div_mod_eq]; simp; omega
        apply Nat.eq_of_testBit_eq
        intro k
        rw [Nat.testBit_and, show (0x2000 : Nat) = 2 ^ 13 by rfl, Nat.testBit_two_pow]
        by_cases hk : 13 = k
        · subst hk; simp [hb]
        · simp [hk]
      show a.toNat &&& 0x2007 = _
      have : (0x2007 : Nat) = 0x2000 ||| 0x0007 := by decide
      rw [this, Nat.and_or_distrib_left, hbit, hlow]
      have h8 : a.toNat % 8 < 2 ^ 13 := by omega
      have := Nat.two_pow_add_eq_or_of_lt h8 1
      simpa using this.symm
    · rfl

/-- 20_memory.md R50 as numbers. -/
theorem isStub_iff (m : Word) :
    isStub m = true ↔ (0x2000 ≤ m.toNat ∧ m.toNat ≤ 0x2007) ∨ (0x4000 ≤ m.toNat ∧ m.toNat ≤ 0x401F) := by
  simp [isStub, BitVec.le_def]

/-- Only address 0xFFFF reaches the top cell. -/
theorem mirror_eq_top (a : Word) : mirror a = 0xFFFF#16 ↔ a = 0xFFFF#16 := by
  constructor
  · intro h
    have h' := congrArg BitVec.toNat h
    rw [mirror_toNat] at h'
    have := a.isLt
    apply BitVec.eq_of_toNat_eq
    simp only [BitVec.toNat_ofNat] at *
    split at h' <;> [omega; (split at h' <;> omega)]
  · rintro rfl; decide

/-- A zero-page address reaches its own cell, which is no stub and not the top cell. -/
theorem mirror_zext (b : Byte) : mirror (zext b) = zext b := by
  apply BitVec.eq_of_toNat_eq
  have := b.isLt
  rw [mirror_toNat, zext_toNat]
  split <;> omega

theorem isStub_zext (b : Byte) : isStub (zext b) = false := by
  have := b.isLt
  rw [Bool.eq_false_iff, ne_eq, isStub_iff, zext_toNat]
  omega

theorem topCellFaults_zext (s : State) (b : Byte) : s.topCellFaults (zext b) = false := by
  have h : zext b ≠ 0xFFFF#16 := by
    intro h
    have := congrArg BitVec.toNat h
    have := b.isLt
    simp only [zext_toNat, BitVec.toNat_ofNat] at *
    omega
  simp [State.topCellFaults, h]

/-- A zero-page read gives the cell. -/
@[simp] theorem State.peek_zext (s : State) (b : Byte) : s.peek (zext b) = some (s.mem.read b.toNat) := by
  simp [State.peek, mirror_zext, isStub_zext, topCellFaults_zext]

end Sys2Proof.Machine
end

