-- ==== Sys2Proof/Laws/Decode.lean ====
section
/-! SUPPORT. The dispatch table's entries: what each opcode byte's entry makes, and what the decoder reads. -/

namespace Sys2Proof

theorem Mode.operandBytes_le (m : Mode) : m.operandBytes ≤ 2 := by cases m <;> decide

/-- A claim about every byte, from the 256 numerals. -/
theorem Byte.forall_of_numerals {P : Byte → Prop} (h : ∀ n, n < 256 → P (BitVec.ofNat 8 n)) (b : Byte) : P b := by
  simpa using h b.toNat b.isLt

/-- The table by opcode and the table by mnemonic of 30_encoding.md R83 agree: what an opcode's entry makes is
well-formed and has that opcode and, as its operand bytes, those its mode takes. -/
theorem opcodeEntry_make (op : Byte) : ∀ lo hi : Byte,
    ((opcodeEntry op).make lo hi).wf = true ∧ ((opcodeEntry op).make lo hi).opcode = some op ∧
    ((opcodeEntry op).make lo hi).operandBytes = [lo, hi].take (opcodeEntry op).mode.operandBytes := by
  revert op
  apply Byte.forall_of_numerals
  intro n hn lo hi
  interval_cases n <;> refine ⟨rfl, rfl, ?_⟩ <;>
    first
    | rfl
    | exact congrArg₂ (fun a b => [a, b]) (Machine.lowByte_word hi lo) (Machine.highByte_word hi lo)

/-- What the decoder reads is what the opcode's entry makes, and its operand bytes are those read. -/
theorem decode_eq_ok {op : Byte} {bytes : List Byte} {i : Instr} {rest : List Byte}
    (h : decode (op :: bytes) = .ok (i, rest)) :
    ∃ lo hi, i = (opcodeEntry op).make lo hi ∧ i.operandBytes ++ rest = bytes := by
  unfold decode at h
  dsimp only at h
  have hs := opcodeEntry_make op
  split at h
  · rename_i he
    simp only [Except.ok.injEq, Prod.mk.injEq] at h
    obtain ⟨rfl, rfl⟩ := h
    exact ⟨0, 0, rfl, by rw [(hs 0 0).2.2, he]; rfl⟩
  · rename_i he
    simp only [Except.ok.injEq, Prod.mk.injEq] at h
    obtain ⟨rfl, rfl⟩ := h
    exact ⟨_, 0, rfl, by rw [(hs _ 0).2.2, he]; rfl⟩
  · rename_i he
    simp only [Except.ok.injEq, Prod.mk.injEq] at h
    obtain ⟨rfl, rfl⟩ := h
    exact ⟨_, _, rfl, by rw [(hs _ _).2.2, he]; rfl⟩
  · cases h

/-- An opcode with as many operand bytes as its mode has is decoded to its entry's instruction. -/
theorem decode_of_length {op : Byte} {bytes : List Byte} (h : bytes.length = (opcodeEntry op).mode.operandBytes) :
    ∃ lo hi, decode (op :: bytes) = .ok ((opcodeEntry op).make lo hi, []) := by
  have hle := (opcodeEntry op).mode.operandBytes_le
  unfold decode
  dsimp only
  generalize (opcodeEntry op).mode.operandBytes = k at *
  match k, bytes, h, hle with
  | 0, [], _, _ => exact ⟨0, 0, rfl⟩
  | 1, [b], _, _ => exact ⟨b, 0, rfl⟩
  | 2, [b, c], _, _ => exact ⟨b, c, rfl⟩

end Sys2Proof
end

