-- ==== Sys2Proof/Laws/Dispatch.lean ====
section
/-! SUPPORT. Each constructor's arm of `exec`, so that no later proof unfolds the dispatch. -/

namespace Sys2Proof.Machine

@[simp] theorem exec_lda (o : Operand) (s : State) : exec (.lda o) s = execLda o s := rfl
@[simp] theorem exec_ldx (o : Operand) (s : State) : exec (.ldx o) s = execLdx o s := rfl
@[simp] theorem exec_ldy (o : Operand) (s : State) : exec (.ldy o) s = execLdy o s := rfl
@[simp] theorem exec_sta (o : Operand) (s : State) : exec (.sta o) s = execSta o s := rfl
@[simp] theorem exec_stx (o : Operand) (s : State) : exec (.stx o) s = execStx o s := rfl
@[simp] theorem exec_sty (o : Operand) (s : State) : exec (.sty o) s = execSty o s := rfl
@[simp] theorem exec_tax (s : State) : exec .tax s = execTax s := rfl
@[simp] theorem exec_tay (s : State) : exec .tay s = execTay s := rfl
@[simp] theorem exec_txa (s : State) : exec .txa s = execTxa s := rfl
@[simp] theorem exec_tya (s : State) : exec .tya s = execTya s := rfl
@[simp] theorem exec_tsx (s : State) : exec .tsx s = execTsx s := rfl
@[simp] theorem exec_txs (s : State) : exec .txs s = execTxs s := rfl
@[simp] theorem exec_adc (o : Operand) (s : State) : exec (.adc o) s = execAdc o s := rfl
@[simp] theorem exec_sbc (o : Operand) (s : State) : exec (.sbc o) s = execSbc o s := rfl
@[simp] theorem exec_and (o : Operand) (s : State) : exec (.and o) s = execAnd o s := rfl
@[simp] theorem exec_ora (o : Operand) (s : State) : exec (.ora o) s = execOra o s := rfl
@[simp] theorem exec_eor (o : Operand) (s : State) : exec (.eor o) s = execEor o s := rfl
@[simp] theorem exec_cmp (o : Operand) (s : State) : exec (.cmp o) s = execCmp o s := rfl
@[simp] theorem exec_cpx (o : Operand) (s : State) : exec (.cpx o) s = execCpx o s := rfl
@[simp] theorem exec_cpy (o : Operand) (s : State) : exec (.cpy o) s = execCpy o s := rfl
@[simp] theorem exec_bit (o : Operand) (s : State) : exec (.bit o) s = execBit o s := rfl
@[simp] theorem exec_inc (o : Operand) (s : State) : exec (.inc o) s = execInc o s := rfl
@[simp] theorem exec_dec (o : Operand) (s : State) : exec (.dec o) s = execDec o s := rfl
@[simp] theorem exec_inx (s : State) : exec .inx s = execInx s := rfl
@[simp] theorem exec_iny (s : State) : exec .iny s = execIny s := rfl
@[simp] theorem exec_dex (s : State) : exec .dex s = execDex s := rfl
@[simp] theorem exec_dey (s : State) : exec .dey s = execDey s := rfl
@[simp] theorem exec_asl (t : Target) (s : State) : exec (.asl t) s = execAsl t s := rfl
@[simp] theorem exec_lsr (t : Target) (s : State) : exec (.lsr t) s = execLsr t s := rfl
@[simp] theorem exec_rol (t : Target) (s : State) : exec (.rol t) s = execRol t s := rfl
@[simp] theorem exec_ror (t : Target) (s : State) : exec (.ror t) s = execRor t s := rfl
@[simp] theorem exec_bpl (d : Byte) (s : State) : exec (.bpl d) s = execBpl d s := rfl
@[simp] theorem exec_bmi (d : Byte) (s : State) : exec (.bmi d) s = execBmi d s := rfl
@[simp] theorem exec_bvc (d : Byte) (s : State) : exec (.bvc d) s = execBvc d s := rfl
@[simp] theorem exec_bvs (d : Byte) (s : State) : exec (.bvs d) s = execBvs d s := rfl
@[simp] theorem exec_bcc (d : Byte) (s : State) : exec (.bcc d) s = execBcc d s := rfl
@[simp] theorem exec_bcs (d : Byte) (s : State) : exec (.bcs d) s = execBcs d s := rfl
@[simp] theorem exec_bne (d : Byte) (s : State) : exec (.bne d) s = execBne d s := rfl
@[simp] theorem exec_beq (d : Byte) (s : State) : exec (.beq d) s = execBeq d s := rfl
@[simp] theorem exec_jmp (o : Operand) (s : State) : exec (.jmp o) s = execJmp o s := rfl
@[simp] theorem exec_jsr (target : Word) (s : State) : exec (.jsr target) s = execJsr target s := rfl
@[simp] theorem exec_rts (s : State) : exec .rts s = execRts s := rfl
@[simp] theorem exec_pha (s : State) : exec .pha s = execPha s := rfl
@[simp] theorem exec_pla (s : State) : exec .pla s = execPla s := rfl
@[simp] theorem exec_php (s : State) : exec .php s = execPhp s := rfl
@[simp] theorem exec_plp (s : State) : exec .plp s = execPlp s := rfl
@[simp] theorem exec_clc (s : State) : exec .clc s = execClc s := rfl
@[simp] theorem exec_sec (s : State) : exec .sec s = execSec s := rfl
@[simp] theorem exec_cli (s : State) : exec .cli s = execCli s := rfl
@[simp] theorem exec_sei (s : State) : exec .sei s = execSei s := rfl
@[simp] theorem exec_cld (s : State) : exec .cld s = execCld s := rfl
@[simp] theorem exec_sed (s : State) : exec .sed s = execSed s := rfl
@[simp] theorem exec_clv (s : State) : exec .clv s = execClv s := rfl
@[simp] theorem exec_slo (o : Operand) (s : State) : exec (.slo o) s = execSlo o s := rfl
@[simp] theorem exec_rla (o : Operand) (s : State) : exec (.rla o) s = execRla o s := rfl
@[simp] theorem exec_sre (o : Operand) (s : State) : exec (.sre o) s = execSre o s := rfl
@[simp] theorem exec_rra (o : Operand) (s : State) : exec (.rra o) s = execRra o s := rfl
@[simp] theorem exec_isc (o : Operand) (s : State) : exec (.isc o) s = execIsc o s := rfl
@[simp] theorem exec_dcp (o : Operand) (s : State) : exec (.dcp o) s = execDcp o s := rfl
@[simp] theorem exec_sax (o : Operand) (s : State) : exec (.sax o) s = execSax o s := rfl
@[simp] theorem exec_lax (o : Operand) (s : State) : exec (.lax o) s = execLax o s := rfl
@[simp] theorem exec_nop (opcode : Byte) (o : Option Operand) (s : State) : exec (.nop opcode o) s = execNop opcode o s := rfl
@[simp] theorem exec_jam (opcode : Byte) (s : State) : exec (.jam opcode) s = execJam opcode s := rfl
@[simp] theorem exec_brk (s : State) : exec .brk s = execBrk s := rfl
@[simp] theorem exec_rti (s : State) : exec .rti s = execRti s := rfl
@[simp] theorem exec_unknown (opcode : Byte) (s : State) : exec (.unknown opcode) s = execUnknown opcode s := rfl

end Sys2Proof.Machine
end

