-- ==== Sys2Proof/Laws/State.lean ====
section
/-! SUPPORT. For each named update of the state, what each field is after it; the status bits are in Laws/Flags.lean. -/

namespace Sys2Proof.Machine

@[simp] theorem State.setFlag_a (s : State) (f : Flag) (b : Bool) : (s.setFlag f b).a = s.a := rfl
@[simp] theorem State.setFlag_x (s : State) (f : Flag) (b : Bool) : (s.setFlag f b).x = s.x := rfl
@[simp] theorem State.setFlag_y (s : State) (f : Flag) (b : Bool) : (s.setFlag f b).y = s.y := rfl
@[simp] theorem State.setFlag_sp (s : State) (f : Flag) (b : Bool) : (s.setFlag f b).sp = s.sp := rfl
@[simp] theorem State.setFlag_pc (s : State) (f : Flag) (b : Bool) : (s.setFlag f b).pc = s.pc := rfl
@[simp] theorem State.setFlag_mem (s : State) (f : Flag) (b : Bool) : (s.setFlag f b).mem = s.mem := rfl
@[simp] theorem State.setFlag_mapper (s : State) (f : Flag) (b : Bool) : (s.setFlag f b).mapper = s.mapper := rfl
@[simp] theorem State.setFlag_halted (s : State) (f : Flag) (b : Bool) : (s.setFlag f b).halted = s.halted := rfl
@[simp] theorem State.setFlag_fault (s : State) (f : Flag) (b : Bool) : (s.setFlag f b).fault = s.fault := rfl
@[simp] theorem State.setFlag_internalClock (s : State) (f : Flag) (b : Bool) : (s.setFlag f b).internalClock = s.internalClock := rfl
@[simp] theorem State.setFlag_masterClock (s : State) (f : Flag) (b : Bool) : (s.setFlag f b).masterClock = s.masterClock := rfl
@[simp] theorem State.setFlag_params (s : State) (f : Flag) (b : Bool) : (s.setFlag f b).params = s.params := rfl
@[simp] theorem State.setFlag_freeDraws (s : State) (f : Flag) (b : Bool) : (s.setFlag f b).freeDraws = s.freeDraws := rfl

@[simp] theorem State.setZN_a (s : State) (v : Byte) : (s.setZN v).a = s.a := rfl
@[simp] theorem State.setZN_x (s : State) (v : Byte) : (s.setZN v).x = s.x := rfl
@[simp] theorem State.setZN_y (s : State) (v : Byte) : (s.setZN v).y = s.y := rfl
@[simp] theorem State.setZN_sp (s : State) (v : Byte) : (s.setZN v).sp = s.sp := rfl
@[simp] theorem State.setZN_pc (s : State) (v : Byte) : (s.setZN v).pc = s.pc := rfl
@[simp] theorem State.setZN_mem (s : State) (v : Byte) : (s.setZN v).mem = s.mem := rfl
@[simp] theorem State.setZN_mapper (s : State) (v : Byte) : (s.setZN v).mapper = s.mapper := rfl
@[simp] theorem State.setZN_halted (s : State) (v : Byte) : (s.setZN v).halted = s.halted := rfl
@[simp] theorem State.setZN_fault (s : State) (v : Byte) : (s.setZN v).fault = s.fault := rfl
@[simp] theorem State.setZN_internalClock (s : State) (v : Byte) : (s.setZN v).internalClock = s.internalClock := rfl
@[simp] theorem State.setZN_masterClock (s : State) (v : Byte) : (s.setZN v).masterClock = s.masterClock := rfl
@[simp] theorem State.setZN_params (s : State) (v : Byte) : (s.setZN v).params = s.params := rfl
@[simp] theorem State.setZN_freeDraws (s : State) (v : Byte) : (s.setZN v).freeDraws = s.freeDraws := rfl

@[simp] theorem State.bitTest_a (s : State) (m : Byte) : (s.bitTest m).a = s.a := rfl
@[simp] theorem State.bitTest_x (s : State) (m : Byte) : (s.bitTest m).x = s.x := rfl
@[simp] theorem State.bitTest_y (s : State) (m : Byte) : (s.bitTest m).y = s.y := rfl
@[simp] theorem State.bitTest_sp (s : State) (m : Byte) : (s.bitTest m).sp = s.sp := rfl
@[simp] theorem State.bitTest_pc (s : State) (m : Byte) : (s.bitTest m).pc = s.pc := rfl
@[simp] theorem State.bitTest_mem (s : State) (m : Byte) : (s.bitTest m).mem = s.mem := rfl
@[simp] theorem State.bitTest_mapper (s : State) (m : Byte) : (s.bitTest m).mapper = s.mapper := rfl
@[simp] theorem State.bitTest_halted (s : State) (m : Byte) : (s.bitTest m).halted = s.halted := rfl
@[simp] theorem State.bitTest_fault (s : State) (m : Byte) : (s.bitTest m).fault = s.fault := rfl
@[simp] theorem State.bitTest_internalClock (s : State) (m : Byte) : (s.bitTest m).internalClock = s.internalClock := rfl
@[simp] theorem State.bitTest_masterClock (s : State) (m : Byte) : (s.bitTest m).masterClock = s.masterClock := rfl
@[simp] theorem State.bitTest_params (s : State) (m : Byte) : (s.bitTest m).params = s.params := rfl
@[simp] theorem State.bitTest_freeDraws (s : State) (m : Byte) : (s.bitTest m).freeDraws = s.freeDraws := rfl

@[simp] theorem State.compare_a (s : State) (r m : Byte) : (s.compare r m).a = s.a := rfl
@[simp] theorem State.compare_x (s : State) (r m : Byte) : (s.compare r m).x = s.x := rfl
@[simp] theorem State.compare_y (s : State) (r m : Byte) : (s.compare r m).y = s.y := rfl
@[simp] theorem State.compare_sp (s : State) (r m : Byte) : (s.compare r m).sp = s.sp := rfl
@[simp] theorem State.compare_pc (s : State) (r m : Byte) : (s.compare r m).pc = s.pc := rfl
@[simp] theorem State.compare_mem (s : State) (r m : Byte) : (s.compare r m).mem = s.mem := rfl
@[simp] theorem State.compare_mapper (s : State) (r m : Byte) : (s.compare r m).mapper = s.mapper := rfl
@[simp] theorem State.compare_halted (s : State) (r m : Byte) : (s.compare r m).halted = s.halted := rfl
@[simp] theorem State.compare_fault (s : State) (r m : Byte) : (s.compare r m).fault = s.fault := rfl
@[simp] theorem State.compare_internalClock (s : State) (r m : Byte) : (s.compare r m).internalClock = s.internalClock := rfl
@[simp] theorem State.compare_masterClock (s : State) (r m : Byte) : (s.compare r m).masterClock = s.masterClock := rfl
@[simp] theorem State.compare_params (s : State) (r m : Byte) : (s.compare r m).params = s.params := rfl
@[simp] theorem State.compare_freeDraws (s : State) (r m : Byte) : (s.compare r m).freeDraws = s.freeDraws := rfl

@[simp] theorem State.addToA_a (s : State) (m : Byte) : (s.addToA m).a = (addWithCarry s.a m (s.flag .c)).byte := rfl
@[simp] theorem State.addToA_x (s : State) (m : Byte) : (s.addToA m).x = s.x := rfl
@[simp] theorem State.addToA_y (s : State) (m : Byte) : (s.addToA m).y = s.y := rfl
@[simp] theorem State.addToA_sp (s : State) (m : Byte) : (s.addToA m).sp = s.sp := rfl
@[simp] theorem State.addToA_pc (s : State) (m : Byte) : (s.addToA m).pc = s.pc := rfl
@[simp] theorem State.addToA_mem (s : State) (m : Byte) : (s.addToA m).mem = s.mem := rfl
@[simp] theorem State.addToA_mapper (s : State) (m : Byte) : (s.addToA m).mapper = s.mapper := rfl
@[simp] theorem State.addToA_halted (s : State) (m : Byte) : (s.addToA m).halted = s.halted := rfl
@[simp] theorem State.addToA_fault (s : State) (m : Byte) : (s.addToA m).fault = s.fault := rfl
@[simp] theorem State.addToA_internalClock (s : State) (m : Byte) : (s.addToA m).internalClock = s.internalClock := rfl
@[simp] theorem State.addToA_masterClock (s : State) (m : Byte) : (s.addToA m).masterClock = s.masterClock := rfl
@[simp] theorem State.addToA_params (s : State) (m : Byte) : (s.addToA m).params = s.params := rfl
@[simp] theorem State.addToA_freeDraws (s : State) (m : Byte) : (s.addToA m).freeDraws = s.freeDraws := rfl

@[simp] theorem State.subFromA_a (s : State) (m : Byte) : (s.subFromA m).a = (addWithCarry s.a (~~~m) (s.flag .c)).byte := rfl
@[simp] theorem State.subFromA_x (s : State) (m : Byte) : (s.subFromA m).x = s.x := rfl
@[simp] theorem State.subFromA_y (s : State) (m : Byte) : (s.subFromA m).y = s.y := rfl
@[simp] theorem State.subFromA_sp (s : State) (m : Byte) : (s.subFromA m).sp = s.sp := rfl
@[simp] theorem State.subFromA_pc (s : State) (m : Byte) : (s.subFromA m).pc = s.pc := rfl
@[simp] theorem State.subFromA_mem (s : State) (m : Byte) : (s.subFromA m).mem = s.mem := rfl
@[simp] theorem State.subFromA_mapper (s : State) (m : Byte) : (s.subFromA m).mapper = s.mapper := rfl
@[simp] theorem State.subFromA_halted (s : State) (m : Byte) : (s.subFromA m).halted = s.halted := rfl
@[simp] theorem State.subFromA_fault (s : State) (m : Byte) : (s.subFromA m).fault = s.fault := rfl
@[simp] theorem State.subFromA_internalClock (s : State) (m : Byte) : (s.subFromA m).internalClock = s.internalClock := rfl
@[simp] theorem State.subFromA_masterClock (s : State) (m : Byte) : (s.subFromA m).masterClock = s.masterClock := rfl
@[simp] theorem State.subFromA_params (s : State) (m : Byte) : (s.subFromA m).params = s.params := rfl
@[simp] theorem State.subFromA_freeDraws (s : State) (m : Byte) : (s.subFromA m).freeDraws = s.freeDraws := rfl

@[simp] theorem State.resultInA_a (s : State) (v : Byte) : (s.resultInA v).a = v := rfl
@[simp] theorem State.resultInA_x (s : State) (v : Byte) : (s.resultInA v).x = s.x := rfl
@[simp] theorem State.resultInA_y (s : State) (v : Byte) : (s.resultInA v).y = s.y := rfl
@[simp] theorem State.resultInA_sp (s : State) (v : Byte) : (s.resultInA v).sp = s.sp := rfl
@[simp] theorem State.resultInA_pc (s : State) (v : Byte) : (s.resultInA v).pc = s.pc := rfl
@[simp] theorem State.resultInA_mem (s : State) (v : Byte) : (s.resultInA v).mem = s.mem := rfl
@[simp] theorem State.resultInA_mapper (s : State) (v : Byte) : (s.resultInA v).mapper = s.mapper := rfl
@[simp] theorem State.resultInA_halted (s : State) (v : Byte) : (s.resultInA v).halted = s.halted := rfl
@[simp] theorem State.resultInA_fault (s : State) (v : Byte) : (s.resultInA v).fault = s.fault := rfl
@[simp] theorem State.resultInA_internalClock (s : State) (v : Byte) : (s.resultInA v).internalClock = s.internalClock := rfl
@[simp] theorem State.resultInA_masterClock (s : State) (v : Byte) : (s.resultInA v).masterClock = s.masterClock := rfl
@[simp] theorem State.resultInA_params (s : State) (v : Byte) : (s.resultInA v).params = s.params := rfl
@[simp] theorem State.resultInA_freeDraws (s : State) (v : Byte) : (s.resultInA v).freeDraws = s.freeDraws := rfl

@[simp] theorem State.resultInX_a (s : State) (v : Byte) : (s.resultInX v).a = s.a := rfl
@[simp] theorem State.resultInX_x (s : State) (v : Byte) : (s.resultInX v).x = v := rfl
@[simp] theorem State.resultInX_y (s : State) (v : Byte) : (s.resultInX v).y = s.y := rfl
@[simp] theorem State.resultInX_sp (s : State) (v : Byte) : (s.resultInX v).sp = s.sp := rfl
@[simp] theorem State.resultInX_pc (s : State) (v : Byte) : (s.resultInX v).pc = s.pc := rfl
@[simp] theorem State.resultInX_mem (s : State) (v : Byte) : (s.resultInX v).mem = s.mem := rfl
@[simp] theorem State.resultInX_mapper (s : State) (v : Byte) : (s.resultInX v).mapper = s.mapper := rfl
@[simp] theorem State.resultInX_halted (s : State) (v : Byte) : (s.resultInX v).halted = s.halted := rfl
@[simp] theorem State.resultInX_fault (s : State) (v : Byte) : (s.resultInX v).fault = s.fault := rfl
@[simp] theorem State.resultInX_internalClock (s : State) (v : Byte) : (s.resultInX v).internalClock = s.internalClock := rfl
@[simp] theorem State.resultInX_masterClock (s : State) (v : Byte) : (s.resultInX v).masterClock = s.masterClock := rfl
@[simp] theorem State.resultInX_params (s : State) (v : Byte) : (s.resultInX v).params = s.params := rfl
@[simp] theorem State.resultInX_freeDraws (s : State) (v : Byte) : (s.resultInX v).freeDraws = s.freeDraws := rfl

@[simp] theorem State.resultInY_a (s : State) (v : Byte) : (s.resultInY v).a = s.a := rfl
@[simp] theorem State.resultInY_x (s : State) (v : Byte) : (s.resultInY v).x = s.x := rfl
@[simp] theorem State.resultInY_y (s : State) (v : Byte) : (s.resultInY v).y = v := rfl
@[simp] theorem State.resultInY_sp (s : State) (v : Byte) : (s.resultInY v).sp = s.sp := rfl
@[simp] theorem State.resultInY_pc (s : State) (v : Byte) : (s.resultInY v).pc = s.pc := rfl
@[simp] theorem State.resultInY_mem (s : State) (v : Byte) : (s.resultInY v).mem = s.mem := rfl
@[simp] theorem State.resultInY_mapper (s : State) (v : Byte) : (s.resultInY v).mapper = s.mapper := rfl
@[simp] theorem State.resultInY_halted (s : State) (v : Byte) : (s.resultInY v).halted = s.halted := rfl
@[simp] theorem State.resultInY_fault (s : State) (v : Byte) : (s.resultInY v).fault = s.fault := rfl
@[simp] theorem State.resultInY_internalClock (s : State) (v : Byte) : (s.resultInY v).internalClock = s.internalClock := rfl
@[simp] theorem State.resultInY_masterClock (s : State) (v : Byte) : (s.resultInY v).masterClock = s.masterClock := rfl
@[simp] theorem State.resultInY_params (s : State) (v : Byte) : (s.resultInY v).params = s.params := rfl
@[simp] theorem State.resultInY_freeDraws (s : State) (v : Byte) : (s.resultInY v).freeDraws = s.freeDraws := rfl

@[simp] theorem State.retire_a (s : State) : s.retire.a = s.a := rfl
@[simp] theorem State.retire_x (s : State) : s.retire.x = s.x := rfl
@[simp] theorem State.retire_y (s : State) : s.retire.y = s.y := rfl
@[simp] theorem State.retire_sp (s : State) : s.retire.sp = s.sp := rfl
@[simp] theorem State.retire_pc (s : State) : s.retire.pc = s.pc := rfl
@[simp] theorem State.retire_p (s : State) : s.retire.p = s.p := rfl
@[simp] theorem State.retire_mem (s : State) : s.retire.mem = s.mem := rfl
@[simp] theorem State.retire_mapper (s : State) : s.retire.mapper = s.mapper := rfl
@[simp] theorem State.retire_halted (s : State) : s.retire.halted = s.halted := rfl
@[simp] theorem State.retire_fault (s : State) : s.retire.fault = s.fault := rfl
@[simp] theorem State.retire_internalClock (s : State) : s.retire.internalClock = clockValue s.params (s.internalClock + 1) := rfl
@[simp] theorem State.retire_masterClock (s : State) : s.retire.masterClock = s.masterClock := rfl
@[simp] theorem State.retire_params (s : State) : s.retire.params = s.params := rfl
@[simp] theorem State.retire_freeDraws (s : State) : s.retire.freeDraws = s.freeDraws := rfl

@[simp] theorem State.past_a (s : State) (i : Instr) : (s.past i).a = s.a := rfl
@[simp] theorem State.past_x (s : State) (i : Instr) : (s.past i).x = s.x := rfl
@[simp] theorem State.past_y (s : State) (i : Instr) : (s.past i).y = s.y := rfl
@[simp] theorem State.past_sp (s : State) (i : Instr) : (s.past i).sp = s.sp := rfl
@[simp] theorem State.past_pc (s : State) (i : Instr) : (s.past i).pc = s.pc + BitVec.ofNat 16 i.length := rfl
@[simp] theorem State.past_p (s : State) (i : Instr) : (s.past i).p = s.p := rfl
@[simp] theorem State.past_mem (s : State) (i : Instr) : (s.past i).mem = s.mem := rfl
@[simp] theorem State.past_mapper (s : State) (i : Instr) : (s.past i).mapper = s.mapper := rfl
@[simp] theorem State.past_halted (s : State) (i : Instr) : (s.past i).halted = s.halted := rfl
@[simp] theorem State.past_fault (s : State) (i : Instr) : (s.past i).fault = s.fault := rfl
@[simp] theorem State.past_internalClock (s : State) (i : Instr) : (s.past i).internalClock = s.internalClock := rfl
@[simp] theorem State.past_masterClock (s : State) (i : Instr) : (s.past i).masterClock = s.masterClock := rfl
@[simp] theorem State.past_params (s : State) (i : Instr) : (s.past i).params = s.params := rfl
@[simp] theorem State.past_freeDraws (s : State) (i : Instr) : (s.past i).freeDraws = s.freeDraws := rfl

@[simp] theorem State.raiseFatal_a (s : State) (k : FatalKind) (op : Byte) (at0 : Word) : (s.raiseFatal k op at0).a = s.a := rfl
@[simp] theorem State.raiseFatal_x (s : State) (k : FatalKind) (op : Byte) (at0 : Word) : (s.raiseFatal k op at0).x = s.x := rfl
@[simp] theorem State.raiseFatal_y (s : State) (k : FatalKind) (op : Byte) (at0 : Word) : (s.raiseFatal k op at0).y = s.y := rfl
@[simp] theorem State.raiseFatal_sp (s : State) (k : FatalKind) (op : Byte) (at0 : Word) : (s.raiseFatal k op at0).sp = s.sp := rfl
@[simp] theorem State.raiseFatal_pc (s : State) (k : FatalKind) (op : Byte) (at0 : Word) : (s.raiseFatal k op at0).pc = s.pc := rfl
@[simp] theorem State.raiseFatal_p (s : State) (k : FatalKind) (op : Byte) (at0 : Word) : (s.raiseFatal k op at0).p = s.p := rfl
@[simp] theorem State.raiseFatal_mem (s : State) (k : FatalKind) (op : Byte) (at0 : Word) : (s.raiseFatal k op at0).mem = s.mem := rfl
@[simp] theorem State.raiseFatal_mapper (s : State) (k : FatalKind) (op : Byte) (at0 : Word) : (s.raiseFatal k op at0).mapper = s.mapper := rfl
@[simp] theorem State.raiseFatal_halted (s : State) (k : FatalKind) (op : Byte) (at0 : Word) : (s.raiseFatal k op at0).halted = s.halted := rfl
@[simp] theorem State.raiseFatal_fault (s : State) (k : FatalKind) (op : Byte) (at0 : Word) : (s.raiseFatal k op at0).fault = some { kind := k, opcode := op, addr := at0 } := rfl
@[simp] theorem State.raiseFatal_internalClock (s : State) (k : FatalKind) (op : Byte) (at0 : Word) : (s.raiseFatal k op at0).internalClock = s.internalClock := rfl
@[simp] theorem State.raiseFatal_masterClock (s : State) (k : FatalKind) (op : Byte) (at0 : Word) : (s.raiseFatal k op at0).masterClock = s.masterClock := rfl
@[simp] theorem State.raiseFatal_params (s : State) (k : FatalKind) (op : Byte) (at0 : Word) : (s.raiseFatal k op at0).params = s.params := rfl
@[simp] theorem State.raiseFatal_freeDraws (s : State) (k : FatalKind) (op : Byte) (at0 : Word) : (s.raiseFatal k op at0).freeDraws = s.freeDraws := rfl

end Sys2Proof.Machine
end

