-- ==== Sys2Proof/Laws/Flags.lean ====
section
/-! SUPPORT. The status bits after each named update, and the adder's law. -/

namespace Sys2Proof.Machine

/-- A status byte with one flag set or cleared: that flag, and every other. -/
theorem Flag.getLsbD_update (p : Byte) (f g : Flag) (b : Bool) :
    (if b then p ||| f.mask else p &&& ~~~f.mask).getLsbD g.index = if f = g then b else p.getLsbD g.index := by
  cases b <;> cases f <;> cases g <;> simp [Flag.mask, Flag.index]

/-- A flag after one flag was written. -/
@[simp] theorem State.setFlag_flag (s : State) (f g : Flag) (b : Bool) :
    (s.setFlag f b).flag g = if f = g then b else s.flag g :=
  Flag.getLsbD_update s.p f g b

/-- The flags read the status register and nothing else. -/
theorem State.flag_congr {s t : State} (h : s.p = t.p) (f : Flag) : s.flag f = t.flag f := by
  simp [State.flag, h]

/-- Two states with the same flags have the same status register: the eight flags are all of it. -/
theorem State.p_eq_of_flags {s t : State} (h : ∀ f, s.flag f = t.flag f) : s.p = t.p := by
  have hb : ∀ k : Nat, k < 8 → s.p.getLsbD k = t.p.getLsbD k := by
    intro k hk
    have hc := h .c; have hz := h .z; have hi := h .i; have hd := h .d
    have hb := h .b; have hu := h .u; have hv := h .v; have hn := h .n
    simp only [State.flag, Flag.index] at *
    interval_cases k <;> assumption
  exact BitVec.eq_of_getLsbD_eq hb

/-- Writes of two different flags commute. -/
theorem State.setFlag_comm (s : State) {f g : Flag} (a b : Bool) (h : f ≠ g) :
    (s.setFlag f a).setFlag g b = (s.setFlag g b).setFlag f a := by
  have hp : ((s.setFlag f a).setFlag g b).p = ((s.setFlag g b).setFlag f a).p := by
    apply State.p_eq_of_flags
    intro k
    simp only [State.setFlag_flag]
    by_cases hg : g = k <;> by_cases hf : f = k <;> simp [hg, hf]
    exact absurd (hf.trans hg.symm) h
  show ({ s with p := ((s.setFlag f a).setFlag g b).p } : State) = { s with p := ((s.setFlag g b).setFlag f a).p }
  rw [hp]

@[simp] theorem State.flag_with_a (s : State) (v : Byte) (f : Flag) : State.flag { s with a := v } f = s.flag f := rfl
@[simp] theorem State.flag_with_x (s : State) (v : Byte) (f : Flag) : State.flag { s with x := v } f = s.flag f := rfl
@[simp] theorem State.flag_with_y (s : State) (v : Byte) (f : Flag) : State.flag { s with y := v } f = s.flag f := rfl
@[simp] theorem State.flag_with_sp (s : State) (v : Byte) (f : Flag) : State.flag { s with sp := v } f = s.flag f := rfl
@[simp] theorem State.flag_with_pc (s : State) (v : Word) (f : Flag) : State.flag { s with pc := v } f = s.flag f := rfl
@[simp] theorem State.flag_with_mem (s : State) (m : Memory) (f : Flag) :
    State.flag { s with mem := m } f = s.flag f := rfl
@[simp] theorem State.flag_with_mapper (s : State) (m : Option Mapper) (f : Flag) :
    State.flag { s with mapper := m } f = s.flag f := rfl
@[simp] theorem State.flag_with_halted (s : State) (b : Bool) (f : Flag) :
    State.flag { s with halted := b } f = s.flag f := rfl
@[simp] theorem State.flag_retire (s : State) (f : Flag) : s.retire.flag f = s.flag f := rfl
@[simp] theorem State.flag_past (s : State) (i : Instr) (f : Flag) : (s.past i).flag f = s.flag f := rfl
@[simp] theorem State.flag_raiseFatal (s : State) (k : FatalKind) (op : Byte) (w : Word) (f : Flag) :
    (s.raiseFatal k op w).flag f = s.flag f := rfl

/-- 42_alu.md R140. -/
@[simp] theorem State.setZN_flag (s : State) (v : Byte) (f : Flag) :
    (s.setZN v).flag f = if f = .n then v.getLsbD 7 else if f = .z then v == 0x00#8 else s.flag f := by
  cases f <;> simp [State.setZN]

@[simp] theorem State.resultInA_flag (s : State) (v : Byte) (f : Flag) :
    (s.resultInA v).flag f = if f = .n then v.getLsbD 7 else if f = .z then v == 0x00#8 else s.flag f := by
  simp [State.resultInA]

@[simp] theorem State.resultInX_flag (s : State) (v : Byte) (f : Flag) :
    (s.resultInX v).flag f = if f = .n then v.getLsbD 7 else if f = .z then v == 0x00#8 else s.flag f := by
  simp [State.resultInX]

@[simp] theorem State.resultInY_flag (s : State) (v : Byte) (f : Flag) :
    (s.resultInY v).flag f = if f = .n then v.getLsbD 7 else if f = .z then v == 0x00#8 else s.flag f := by
  simp [State.resultInY]

/-- 42_alu.md R147. -/
@[simp] theorem State.compare_flag (s : State) (r m : Byte) (f : Flag) :
    (s.compare r m).flag f =
      if f = .n then (r - m).getLsbD 7 else if f = .z then r - m == 0x00#8
      else if f = .c then decide (m ≤ r) else s.flag f := by
  cases f <;> simp [State.compare]

/-- 42_alu.md R151. -/
@[simp] theorem State.bitTest_flag (s : State) (m : Byte) (f : Flag) :
    (s.bitTest m).flag f =
      if f = .n then m.getLsbD 7 else if f = .v then m.getLsbD 6
      else if f = .z then s.a &&& m == 0x00#8 else s.flag f := by
  cases f <;> simp [State.bitTest]

/-- 42_alu.md R142. -/
@[simp] theorem State.addToA_flag (s : State) (m : Byte) (f : Flag) :
    (s.addToA m).flag f =
      let r := addWithCarry s.a m (s.flag .c)
      if f = .n then r.byte.getLsbD 7 else if f = .z then r.byte == 0x00#8
      else if f = .v then r.overflow else if f = .c then r.carry else s.flag f := by
  cases f <;> simp [State.addToA]

/-- 42_alu.md R143. -/
@[simp] theorem State.subFromA_flag (s : State) (m : Byte) (f : Flag) :
    (s.subFromA m).flag f =
      let r := addWithCarry s.a (~~~m) (s.flag .c)
      if f = .n then r.byte.getLsbD 7 else if f = .z then r.byte == 0x00#8
      else if f = .v then r.overflow else if f = .c then r.carry else s.flag f :=
  State.addToA_flag s (~~~m) f

/-- The adder's byte and carry are the exact sum (42_alu.md R141). -/
theorem addWithCarry_exact (a b : Byte) (c : Bool) :
    (addWithCarry a b c).byte.toNat + 256 * (addWithCarry a b c).carry.toNat = a.toNat + b.toNat + c.toNat := by
  have ha := a.isLt
  have hb := b.isLt
  have hc : c.toNat ≤ 1 := by cases c <;> decide
  simp only [addWithCarry, BitVec.toNat_ofNat]
  by_cases h : 256 ≤ a.toNat + b.toNat + c.toNat
  · simp only [h, decide_true, Bool.toNat_true]; omega
  · simp only [h, decide_false, Bool.toNat_false]; omega

end Sys2Proof.Machine
end

