-- ==== Sys2Proof/Laws/PerInstr.lean ====
section
/-! SUPPORT. Said of every instruction, by constructor: an instruction term has an opcode exactly when it is well-formed,
so a meaning refuses a term only when no bytes encode it. -/

namespace Sys2Proof.Laws

/-- The two readings of 30_encoding.md R83, legal modes and opcode table, agree on the instruction. -/
def EncodingMatchesWf.Statement (i : Instr) : Prop := i.opcode.isSome = i.wf

/-- An opcode that is given under a check is given exactly when the check holds. -/
theorem isSome_ite (check : Bool) (op : Byte) : (if check = true then some op else none).isSome = check := by
  cases check <;> rfl

namespace EncodingMatchesWf

theorem lda (o : Operand) : Statement (.lda o) := by cases o <;> rfl
theorem ldx (o : Operand) : Statement (.ldx o) := by cases o <;> rfl
theorem ldy (o : Operand) : Statement (.ldy o) := by cases o <;> rfl
theorem sta (o : Operand) : Statement (.sta o) := by cases o <;> rfl
theorem stx (o : Operand) : Statement (.stx o) := by cases o <;> rfl
theorem sty (o : Operand) : Statement (.sty o) := by cases o <;> rfl
theorem tax : Statement .tax := rfl
theorem tay : Statement .tay := rfl
theorem txa : Statement .txa := rfl
theorem tya : Statement .tya := rfl
theorem tsx : Statement .tsx := rfl
theorem txs : Statement .txs := rfl
theorem adc (o : Operand) : Statement (.adc o) := by cases o <;> rfl
theorem sbc (o : Operand) : Statement (.sbc o) := by cases o <;> rfl
theorem and (o : Operand) : Statement (.and o) := by cases o <;> rfl
theorem ora (o : Operand) : Statement (.ora o) := by cases o <;> rfl
theorem eor (o : Operand) : Statement (.eor o) := by cases o <;> rfl
theorem cmp (o : Operand) : Statement (.cmp o) := by cases o <;> rfl
theorem cpx (o : Operand) : Statement (.cpx o) := by cases o <;> rfl
theorem cpy (o : Operand) : Statement (.cpy o) := by cases o <;> rfl
theorem bit (o : Operand) : Statement (.bit o) := by cases o <;> rfl
theorem inc (o : Operand) : Statement (.inc o) := by cases o <;> rfl
theorem dec (o : Operand) : Statement (.dec o) := by cases o <;> rfl
theorem inx : Statement .inx := rfl
theorem iny : Statement .iny := rfl
theorem dex : Statement .dex := rfl
theorem dey : Statement .dey := rfl
theorem asl (t : Target) : Statement (.asl t) := by cases t with | acc => rfl | mem o => cases o <;> rfl
theorem lsr (t : Target) : Statement (.lsr t) := by cases t with | acc => rfl | mem o => cases o <;> rfl
theorem rol (t : Target) : Statement (.rol t) := by cases t with | acc => rfl | mem o => cases o <;> rfl
theorem ror (t : Target) : Statement (.ror t) := by cases t with | acc => rfl | mem o => cases o <;> rfl
theorem bpl (d : Byte) : Statement (.bpl d) := rfl
theorem bmi (d : Byte) : Statement (.bmi d) := rfl
theorem bvc (d : Byte) : Statement (.bvc d) := rfl
theorem bvs (d : Byte) : Statement (.bvs d) := rfl
theorem bcc (d : Byte) : Statement (.bcc d) := rfl
theorem bcs (d : Byte) : Statement (.bcs d) := rfl
theorem bne (d : Byte) : Statement (.bne d) := rfl
theorem beq (d : Byte) : Statement (.beq d) := rfl
theorem jmp (o : Operand) : Statement (.jmp o) := by cases o <;> rfl
theorem jsr (target : Word) : Statement (.jsr target) := rfl
theorem rts : Statement .rts := rfl
theorem pha : Statement .pha := rfl
theorem pla : Statement .pla := rfl
theorem php : Statement .php := rfl
theorem plp : Statement .plp := rfl
theorem clc : Statement .clc := rfl
theorem sec : Statement .sec := rfl
theorem cli : Statement .cli := rfl
theorem sei : Statement .sei := rfl
theorem cld : Statement .cld := rfl
theorem sed : Statement .sed := rfl
theorem clv : Statement .clv := rfl
theorem slo (o : Operand) : Statement (.slo o) := by cases o <;> rfl
theorem rla (o : Operand) : Statement (.rla o) := by cases o <;> rfl
theorem sre (o : Operand) : Statement (.sre o) := by cases o <;> rfl
theorem rra (o : Operand) : Statement (.rra o) := by cases o <;> rfl
theorem isc (o : Operand) : Statement (.isc o) := by cases o <;> rfl
theorem dcp (o : Operand) : Statement (.dcp o) := by cases o <;> rfl
theorem sax (o : Operand) : Statement (.sax o) := by cases o <;> rfl
theorem lax (o : Operand) : Statement (.lax o) := by cases o <;> rfl
theorem nop (opcode : Byte) (o : Option Operand) : Statement (.nop opcode o) := isSome_ite _ _
theorem jam (opcode : Byte) : Statement (.jam opcode) := isSome_ite _ _
theorem brk : Statement .brk := rfl
theorem rti : Statement .rti := rfl
theorem unknown (opcode : Byte) : Statement (.unknown opcode) := isSome_ite _ _

/-- The family's statement for any instruction. -/
theorem all (i : Instr) : Statement i := by
  cases i with
  | lda o => exact lda o
  | ldx o => exact ldx o
  | ldy o => exact ldy o
  | sta o => exact sta o
  | stx o => exact stx o
  | sty o => exact sty o
  | tax => exact tax
  | tay => exact tay
  | txa => exact txa
  | tya => exact tya
  | tsx => exact tsx
  | txs => exact txs
  | adc o => exact adc o
  | sbc o => exact sbc o
  | and o => exact and o
  | ora o => exact ora o
  | eor o => exact eor o
  | cmp o => exact cmp o
  | cpx o => exact cpx o
  | cpy o => exact cpy o
  | bit o => exact bit o
  | inc o => exact inc o
  | dec o => exact dec o
  | inx => exact inx
  | iny => exact iny
  | dex => exact dex
  | dey => exact dey
  | asl t => exact asl t
  | lsr t => exact lsr t
  | rol t => exact rol t
  | ror t => exact ror t
  | bpl d => exact bpl d
  | bmi d => exact bmi d
  | bvc d => exact bvc d
  | bvs d => exact bvs d
  | bcc d => exact bcc d
  | bcs d => exact bcs d
  | bne d => exact bne d
  | beq d => exact beq d
  | jmp o => exact jmp o
  | jsr target => exact jsr target
  | rts => exact rts
  | pha => exact pha
  | pla => exact pla
  | php => exact php
  | plp => exact plp
  | clc => exact clc
  | sec => exact sec
  | cli => exact cli
  | sei => exact sei
  | cld => exact cld
  | sed => exact sed
  | clv => exact clv
  | slo o => exact slo o
  | rla o => exact rla o
  | sre o => exact sre o
  | rra o => exact rra o
  | isc o => exact isc o
  | dcp o => exact dcp o
  | sax o => exact sax o
  | lax o => exact lax o
  | nop opcode o => exact nop opcode o
  | jam opcode => exact jam opcode
  | brk => exact brk
  | rti => exact rti
  | unknown opcode => exact unknown opcode

end EncodingMatchesWf

end Sys2Proof.Laws
end

