-- ==== Sys2Proof/Laws/Effects.lean ====
section
/-! SUPPORT. For each shared operation, what it can do: the parts of an instruction and their sequencing, the bus, the
resolver's helpers, and `perform`. Later proofs cite these and do not unfold the operations. -/

namespace Sys2Proof.Machine

/-! ## Sequencing -/

@[simp] theorem Access.ok_andThen {α β : Type} (v : α) (s : State) (f : α → State → Access β) :
    (Access.ok v s).andThen f = f v s := rfl
@[simp] theorem Access.fatal_andThen {α β : Type} (k : FatalKind) (s : State) (f : α → State → Access β) :
    (Access.fatal k s).andThen f = .fatal k s := rfl
@[simp] theorem Access.ofRead_some {α : Type} (v : α) (s : State) : Access.ofRead (some v) s = .ok v s := rfl
@[simp] theorem Access.ofRead_none {α : Type} (s : State) :
    (Access.ofRead none s : Access α) = .fatal .topCellAccess s := rfl
@[simp] theorem Access.set_eq (s : State) : Access.set s = .ok () s := rfl

/-- A sequence completes exactly when its first part does and the rest does from there. -/
theorem Access.andThen_eq_ok {α β : Type} {x : Access α} {f : α → State → Access β} {b : β} {t : State} :
    x.andThen f = .ok b t ↔ ∃ v s, x = .ok v s ∧ f v s = .ok b t := by
  cases x <;> simp

/-- A sequence ends in a fatal condition of its first part or of the rest. -/
theorem Access.andThen_eq_fatal {α β : Type} {x : Access α} {f : α → State → Access β} {k : FatalKind} {t : State} :
    x.andThen f = .fatal k t ↔ x = .fatal k t ∨ ∃ v s, x = .ok v s ∧ f v s = .fatal k t := by
  cases x <;> simp

/-- A read gives its value and changes nothing, or is `TopCellAccess`. -/
theorem Access.ofRead_eq_ok {α : Type} {r : Option α} {s t : State} {v : α} :
    Access.ofRead r s = .ok v t ↔ r = some v ∧ t = s := by
  cases r <;> simp [eq_comm]

theorem Access.ofRead_eq_fatal {α : Type} {r : Option α} {s t : State} {k : FatalKind} :
    (Access.ofRead r s : Access α) = .fatal k t ↔ r = none ∧ k = .topCellAccess ∧ t = s := by
  cases r <;> simp [eq_comm]

/-! ## The bus -/

/-- A bus read depends on the storage array and the top-cell policy alone (20_memory.md R51). -/
theorem State.peek_congr {s t : State} (hm : s.mem = t.mem) (hp : s.params = t.params) (a : Word) :
    s.peek a = t.peek a := by
  simp [State.peek, State.topCellFaults, hm, hp]

/-- The cell a bus access reaches exists. -/
theorem mirror_lt (a : Word) : (mirror a).toNat < 65536 := (mirror a).isLt

/-- The mapper a bus write is delegated to is the installed one, and its window covers the address. -/
theorem State.windowMapper_eq_some {s : State} {m : Word} {mp : Mapper} :
    s.windowMapper m = some mp ↔ s.mapper = some mp ∧ covers mp.desc m = true := by
  cases h : s.mapper with
  | none => simp [State.windowMapper, h]
  | some mp' =>
    by_cases hc : covers mp'.desc m = true
    · simp only [State.windowMapper, h, hc, if_true, Option.some.injEq]
      exact ⟨fun e => ⟨e, e ▸ hc⟩, fun e => e.1⟩
    · have hn : s.windowMapper m = none := by simp [State.windowMapper, h, hc]
      rw [hn]
      refine ⟨nofun, fun e => ?_⟩
      obtain ⟨e, e'⟩ := e
      cases e
      exact absurd e' hc

/-- Everything a bus write can do (20_memory.md R52): nothing in a stub window, a call of the mapper in its window,
`TopCellAccess` with no effect, or one cell. -/
theorem busWrite_cases (a : Word) (v : Byte) (s : State) :
    (isStub (mirror a) = true ∧ busWrite a v s = .ok () s) ∨
    (∃ mp, isStub (mirror a) = false ∧ s.windowMapper (mirror a) = some mp ∧
      busWrite a v s = .ok () { s with mapper := some (Config.mapperWrite mp (mirror a) v) }) ∨
    (isStub (mirror a) = false ∧ s.windowMapper (mirror a) = none ∧
      s.topCellFaults (mirror a) = true ∧ busWrite a v s = .fatal .topCellAccess s) ∨
    (isStub (mirror a) = false ∧ s.windowMapper (mirror a) = none ∧ s.topCellFaults (mirror a) = false ∧
      busWrite a v s = .ok () { s with mem := s.mem.write (mirror a).toNat v }) := by
  unfold busWrite
  by_cases hs : isStub (mirror a) = true
  · simp [hs]
  · cases hw : s.windowMapper (mirror a) with
    | none => by_cases ht : s.topCellFaults (mirror a) = true <;> simp [hs, ht, hw]
    | some mp => simp [hs, hw]

/-- What no part of an instruction but JAM changes: everything that is neither a register nor storage nor the mapper; and
what every part keeps: the storage array's form, the mapper unless its register window covers something, and bits B
and U once they are 1. -/
structure State.Kept (s t : State) : Prop where
  halted : t.halted = s.halted
  fault : t.fault = s.fault
  internalClock : t.internalClock = s.internalClock
  masterClock : t.masterClock = s.masterClock
  params : t.params = s.params
  freeDraws : t.freeDraws = s.freeDraws
  mem : s.mem.wf = true → t.mem.wf = true
  mapper : (∀ mp ∈ s.mapper, ∀ m, covers mp.desc m = false) → t.mapper = s.mapper
  installed : s.mapper.isSome = true → t.mapper.isSome = true
  forced : s.flag .b = true ∧ s.flag .u = true → t.flag .b = true ∧ t.flag .u = true

theorem State.Kept.refl (s : State) : s.Kept s :=
  ⟨rfl, rfl, rfl, rfl, rfl, rfl, id, fun _ => rfl, id, id⟩

theorem State.Kept.trans {s t u : State} (h : s.Kept t) (h' : t.Kept u) : s.Kept u where
  halted := h'.halted.trans h.halted
  fault := h'.fault.trans h.fault
  internalClock := h'.internalClock.trans h.internalClock
  masterClock := h'.masterClock.trans h.masterClock
  params := h'.params.trans h.params
  freeDraws := h'.freeDraws.trans h.freeDraws
  mem := h'.mem ∘ h.mem
  mapper := fun hw => by
    have e := h.mapper hw
    exact (h'.mapper (by rw [e]; exact hw)).trans e
  installed := h'.installed ∘ h.installed
  forced := h'.forced ∘ h.forced

/-- A change of A, X, Y, SP, PC and of status bits other than B and U. -/
theorem State.Kept.of_registers {s t : State}
    (h : t = { s with a := t.a, x := t.x, y := t.y, sp := t.sp, pc := t.pc, p := t.p })
    (hp : s.flag .b = true ∧ s.flag .u = true → t.flag .b = true ∧ t.flag .u = true) : s.Kept t where
  halted := by rw [h]
  fault := by rw [h]
  internalClock := by rw [h]
  masterClock := by rw [h]
  params := by rw [h]
  freeDraws := by rw [h]
  mem := fun hm => by rw [h]; exact hm
  mapper := fun _ => by rw [h]
  installed := fun hm => by rw [h]; exact hm
  forced := hp

/-- A part that keeps what every part keeps, and that fails only with a `TopCellAccess` that the policy allows. -/
def Access.Tame {α : Type} (s : State) : Access α → Prop
  | .ok _ t => s.Kept t
  | .fatal kind t => s.Kept t ∧ kind = .topCellAccess ∧ s.params.topCell = .fault

/-- What is tame from a later state is tame from an earlier one that it kept. -/
theorem Access.Tame.from {α : Type} {s t : State} {x : Access α} (h : s.Kept t) (hx : x.Tame t) : x.Tame s := by
  cases x with
  | ok v u => exact h.trans hx
  | fatal k u => exact ⟨h.trans hx.1, hx.2.1, h.params ▸ hx.2.2⟩

/-- Tame parts in sequence are tame. -/
theorem Access.Tame.andThen {α β : Type} {s : State} {x : Access α} {f : α → State → Access β} (hx : x.Tame s)
    (hf : ∀ v t, (f v t).Tame t) : (x.andThen f).Tame s := by
  cases x with
  | ok v t => exact (hf v t).from hx
  | fatal k t => exact hx

/-- A change of state at the end of a part. -/
theorem Access.tame_set {s t : State} (h : s.Kept t) : (Access.set t).Tame s := h

/-- A read is tame when only the missing top cell makes it fail. -/
theorem Access.tame_ofRead {α : Type} {r : Option α} {s : State} (h : r = none → s.params.topCell = .fault) :
    (Access.ofRead r s : Access α).Tame s := by
  cases r with
  | none => exact ⟨.refl s, rfl, h rfl⟩
  | some v => exact State.Kept.refl s

/-- A bus read fails only at the missing top cell (20_memory.md R79). -/
theorem State.peek_none {s : State} {a : Word} (h : s.peek a = none) : s.params.topCell = .fault := by
  unfold State.peek at h
  dsimp only at h
  split at h
  · cases h
  · split at h
    · rename_i ht; simp [State.topCellFaults] at ht; exact ht.2
    · cases h

theorem State.peekWord_none {s : State} {a : Word} (h : s.peekWord a = none) : s.params.topCell = .fault := by
  cases h1 : s.peek a with
  | none => exact State.peek_none h1
  | some lo =>
    cases h2 : s.peek (a + 1) with
    | none => exact State.peek_none h2
    | some hi => simp only [State.peekWord, h1, h2, Option.bind_some, Option.map_some] at h; cases h

/-- A bus write is tame. -/
theorem busWrite_tame (a : Word) (v : Byte) (s : State) : (busWrite a v s).Tame s := by
  rcases busWrite_cases a v s with ⟨_, h⟩ | ⟨mp, _, hm, h⟩ | ⟨_, _, ht, h⟩ | ⟨_, _, _, h⟩ <;> rw [h]
  · exact State.Kept.refl s
  · obtain ⟨hm, hc⟩ := State.windowMapper_eq_some.1 hm
    refine ⟨rfl, rfl, rfl, rfl, rfl, rfl, id, fun hw => ?_, fun _ => rfl, id⟩
    simp [hw mp (by simp [hm]) (mirror a)] at hc
  · exact ⟨.refl s, rfl, by simp [State.topCellFaults] at ht; exact ht.2⟩
  · exact ⟨rfl, rfl, rfl, rfl, rfl, rfl, fun h => Memory.wf_write h (mirror_lt a), fun _ => rfl, id, id⟩

/-! ## The stack -/

theorem push_tame (v : Byte) (s : State) : (push v s).Tame s :=
  Access.Tame.from (t := { s with sp := s.sp - 1 }) (.of_registers rfl id) (busWrite_tame _ v _)

theorem pull_tame (s : State) : (pull s).Tame s :=
  (Access.tame_ofRead State.peek_none).andThen fun _ t => .of_registers (s := t) rfl id

theorem pushWord_tame (w : Word) (s : State) : (pushWord w s).Tame s :=
  (push_tame _ s).andThen fun _ t => push_tame _ t

theorem pullWord_tame (s : State) : (pullWord s).Tame s :=
  (pull_tame s).andThen fun _ t => (pull_tame t).andThen fun _ u => State.Kept.refl u

theorem fetch8_tame (s : State) : (fetch8 s).Tame s :=
  (Access.tame_ofRead State.peek_none).andThen fun _ t => .of_registers (s := t) rfl id

theorem fetch16_tame (s : State) : (fetch16 s).Tame s :=
  (Access.tame_ofRead State.peekWord_none).andThen fun _ t => .of_registers (s := t) rfl id

/-- The status after PLP keeps bit B and has bit U (44_control_stack_flags.md R190). -/
theorem pulledStatus_forced (s : State) (v : Byte) (h : s.flag .b = true ∧ s.flag .u = true) :
    State.flag { s with p := pulledStatus v s.p } .b = true ∧
      State.flag { s with p := pulledStatus v s.p } .u = true := by
  simp only [State.flag, Flag.index, pulledStatus] at *
  simp [h.1]

/-- The BRK entry is tame (60_exceptions.md R226). -/
theorem enterBreak_tame (s : State) : (enterBreak s).Tame s :=
  (fetch8_tame s).andThen fun _ t => (pushWord_tame _ t).andThen fun _ u => (push_tame _ u).andThen fun _ v =>
    Access.Tame.from (t := { v with p := v.p ||| 0x04#8 })
      (.of_registers rfl fun h => by simp only [State.flag, Flag.index] at *; simp [h.1, h.2])
      ((Access.tame_ofRead State.peekWord_none).andThen fun _ w => .of_registers (s := w) rfl id)

/-- The RTI return is tame (60_exceptions.md R227). -/
theorem returnFromBreak_tame (s : State) : (returnFromBreak s).Tame s :=
  (pull_tame s).andThen fun v t =>
    Access.Tame.from (t := { t with p := pulledStatus v t.p }) (.of_registers rfl (pulledStatus_forced t v))
      ((pullWord_tame _).andThen fun _ w => .of_registers (s := w) rfl id)

/-- A pull always completes: it gives the zero-page byte at SP and moves SP up (20_memory.md R58). -/
theorem pull_eq (s : State) : pull s = .ok (s.mem.read s.sp.toNat) { s with sp := s.sp + 1 } := by
  simp [pull]

/-- A pull of a word always completes (44_control_stack_flags.md R186). -/
theorem pullWord_eq (s : State) :
    pullWord s = .ok (word (s.mem.read (s.sp + 1).toNat) (s.mem.read s.sp.toNat)) { s with sp := s.sp + 2 } := by
  simp only [pullWord, pull_eq, Access.ok_andThen, BitVec.add_assoc]
  rfl

/-- A store in the zero page that no mapper takes writes its cell. -/
theorem busWrite_zext {s : State} {b : Byte} (v : Byte) (h : s.windowMapper (zext b) = none) :
    busWrite (zext b) v s = .ok () { s with mem := s.mem.write b.toNat v } := by
  simp [busWrite, mirror_zext, isStub_zext, topCellFaults_zext, h]

/-- A push that no mapper takes writes the cell below SP and moves SP to it (20_memory.md R57). -/
theorem push_eq {s : State} (v : Byte) (h : s.windowMapper (zext (s.sp - 1)) = none) :
    push v s = .ok () { s with sp := s.sp - 1, mem := s.mem.write (s.sp - 1).toNat v } :=
  busWrite_zext (s := { s with sp := s.sp - 1 }) v h

/-! ## The resolver's helpers -/

theorem State.operand_past (s : State) (i : Instr) (o : Operand) : (s.past i).operand o = s.operand o := by
  cases o <;> rfl

theorem State.ea_past (s : State) (i : Instr) {o : Operand} (h : o.mode ≠ .imm) : (s.past i).ea o = s.ea o := by
  cases o <;> first | rfl | exact absurd rfl h

/-- A reading instruction's effect (40_addressing.md R114). -/
theorem reading_eq {o : Operand} {f : Byte → State → State} {s : State} {m : Byte} (h : s.operand o = some m) :
    reading o f s = .ok () (f m s) := by
  simp [reading, h]

theorem reading_none {o : Operand} {f : Byte → State → State} {s : State} (h : s.operand o = none) :
    reading o f s = .fatal .topCellAccess s := by
  simp [reading, h]

/-- A store is a bus write at the effective address (40_addressing.md R116). -/
theorem storing_eq {o : Operand} {v : Byte} {s : State} {a : Word} (h : s.ea o = some a) :
    storing o v s = busWrite a v s := by
  simp [storing, h]

/-- A read-modify-write is one read and one write of the same effective address (40_addressing.md R115). -/
theorem rmw_eq {o : Operand} {f : Byte → State → Byte × State} {s : State} {a : Word} {old : Byte}
    (ha : s.ea o = some a) (hr : s.peek a = some old) :
    rmw o f s = (busWrite a (f old s).1 (f old s).2).andThen fun _ t => .ok (f old s).1 t := by
  simp [rmw, ha, hr]

/-- The byte functions of the read-modify-write instructions change the carry at most. -/
structure CarryOnly (f : Byte → State → Byte × State) : Prop where
  only : ∀ o s, (f o s).2 = s ∨ ∃ b, (f o s).2 = s.setFlag .c b

theorem carryOnly_shiftL : CarryOnly shiftL := ⟨fun _ _ => .inr ⟨_, rfl⟩⟩
theorem carryOnly_shiftR : CarryOnly shiftR := ⟨fun _ _ => .inr ⟨_, rfl⟩⟩
theorem carryOnly_rotL : CarryOnly rotL := ⟨fun _ _ => .inr ⟨_, rfl⟩⟩
theorem carryOnly_rotR : CarryOnly rotR := ⟨fun _ _ => .inr ⟨_, rfl⟩⟩
theorem carryOnly_increment : CarryOnly increment := ⟨fun _ _ => .inl rfl⟩
theorem carryOnly_decrement : CarryOnly decrement := ⟨fun _ _ => .inl rfl⟩

/-- Writing a flag other than B and U keeps both. -/
theorem State.kept_setFlag (s : State) {f : Flag} (b : Bool) (hb : f ≠ .b) (hu : f ≠ .u) : s.Kept (s.setFlag f b) :=
  .of_registers rfl fun h => by simpa [hb, hu] using h

theorem State.kept_setZN (s : State) (v : Byte) : s.Kept (s.setZN v) :=
  .of_registers rfl fun h => by simpa using h

/-- A change of A, X and Y that keeps the status bits B and U. -/
theorem State.kept_addToA (s : State) (m : Byte) : s.Kept (s.addToA m) :=
  .of_registers rfl fun h => by simpa using h

theorem State.kept_compare (s : State) (r m : Byte) : s.Kept (s.compare r m) :=
  .of_registers rfl fun h => by simpa using h

theorem State.kept_bitTest (s : State) (m : Byte) : s.Kept (s.bitTest m) :=
  .of_registers rfl fun h => by simpa using h

theorem State.kept_resultInA (s : State) (v : Byte) : s.Kept (s.resultInA v) :=
  .of_registers rfl fun h => by simpa using h

theorem State.kept_resultInX (s : State) (v : Byte) : s.Kept (s.resultInX v) :=
  .of_registers rfl fun h => by simpa using h

theorem State.kept_resultInY (s : State) (v : Byte) : s.Kept (s.resultInY v) :=
  .of_registers rfl fun h => by simpa using h

theorem CarryOnly.kept {f : Byte → State → Byte × State} (hf : CarryOnly f) (o : Byte) (s : State) :
    s.Kept (f o s).2 := by
  rcases hf.only o s with h | ⟨b, h⟩ <;> rw [h]
  · exact .refl s
  · exact s.kept_setFlag b (by decide) (by decide)

theorem State.zpPointer_none {s : State} {p : Byte} (h : s.zpPointer p = none) : s.params.topCell = .fault := by
  cases h1 : s.peek (zext p) with
  | none => exact State.peek_none h1
  | some lo =>
    cases h2 : s.peek (if s.params.zpPtrWrap then zext (p + 1) else zext p + 1) with
    | none => exact State.peek_none h2
    | some hi => simp only [State.zpPointer, h1, h2, Option.bind_some, Option.map_some] at h; cases h

/-- An effective address is missing only at the missing top cell (20_memory.md R79). -/
theorem State.ea_none {s : State} {o : Operand} (h : s.ea o = none) : s.params.topCell = .fault := by
  cases o with
  | ind w =>
    cases h1 : s.peek w with
    | none => exact State.peek_none h1
    | some lo =>
      cases h2 : s.peek (indirectHighAddr w) with
      | none => exact State.peek_none h2
      | some hi => simp only [State.ea, State.indirectTarget, h1, h2, Option.bind_some, Option.map_some] at h; cases h
  | indx b => exact State.zpPointer_none h
  | indy b => exact State.zpPointer_none (by simpa [State.ea] using h)
  | _ => cases h

theorem State.operand_none {s : State} {o : Operand} (h : s.operand o = none) : s.params.topCell = .fault := by
  cases ho : s.ea o with
  | none => exact State.ea_none ho
  | some a =>
    cases o with
    | imm v => cases h
    | _ => simp only [State.operand, ho, Option.bind_some] at h; exact State.peek_none h

theorem reading_tame {o : Operand} {f : Byte → State → State} (hf : ∀ m s, State.Kept s (f m s)) (s : State) :
    (reading o f s).Tame s :=
  (Access.tame_ofRead State.operand_none).andThen hf

theorem storing_tame (o : Operand) (v : Byte) (s : State) : (storing o v s).Tame s :=
  (Access.tame_ofRead State.ea_none).andThen fun a => busWrite_tame a v

theorem rmw_tame {f : Byte → State → Byte × State} (hf : CarryOnly f) (o : Operand) (s : State) :
    (rmw o f s).Tame s :=
  (Access.tame_ofRead State.ea_none).andThen fun a _ =>
    (Access.tame_ofRead State.peek_none).andThen fun old u =>
      Access.Tame.from (hf.kept old u) ((busWrite_tame a _ _).andThen fun _ v => State.Kept.refl v)

theorem rmwTarget_tame {f : Byte → State → Byte × State} (hf : CarryOnly f) (t : Target) (s : State) :
    (rmwTarget t f s).Tame s := by
  cases t with
  | acc => exact (hf.kept s.a s).trans (.of_registers rfl id)
  | mem o => exact rmw_tame hf o s

/-! ## Every instruction -/

/-- The instruction of a well-formed term has an opcode. -/
theorem Instr.opcode_of_wf {i : Instr} (h : i.wf = true) : ∃ op, i.opcode = some op :=
  Option.isSome_iff_exists.1 ((Laws.EncodingMatchesWf.all i).trans h)

/-- An instruction whose effect completes is counted (30_encoding.md R90). -/
theorem perform_ok {i : Instr} {effect : State → Access Unit} {s t : State} (h : i.wf = true)
    (he : effect (s.past i) = .ok () t) : perform i effect s = .next t.retire := by
  obtain ⟨op, ho⟩ := Instr.opcode_of_wf h
  simp [perform, ho, he]

/-- An instruction whose effect meets a fatal condition records it and is not counted (60_exceptions.md R221, R222). -/
theorem perform_fatal {i : Instr} {effect : State → Access Unit} {s t : State} {op : Byte} {k : FatalKind}
    (h : i.opcode = some op) (he : effect (s.past i) = .fatal k t) :
    perform i effect s = .next (t.raiseFatal k op s.pc) := by
  simp [perform, h, he]

/-- Everything `perform` can do. -/
theorem perform_next {i : Instr} {effect : State → Access Unit} {s u : State} (h : perform i effect s = .next u) :
    ∃ op, i.opcode = some op ∧
      ((∃ t, effect (s.past i) = .ok () t ∧ u = t.retire) ∨
        ∃ k t, effect (s.past i) = .fatal k t ∧ u = t.raiseFatal k op s.pc) := by
  unfold perform at h
  cases ho : i.opcode with
  | none => simp [ho] at h
  | some op =>
    refine ⟨op, rfl, ?_⟩
    cases he : effect (s.past i) with
    | ok v t => exact .inl ⟨t, rfl, by simpa [ho, he, eq_comm] using h⟩
    | fatal k t => exact .inr ⟨k, t, rfl, by simpa [ho, he, eq_comm] using h⟩

/-- A well-formed instruction always answers a next state: completed, or with the fatal condition recorded. -/
theorem perform_answers_next {i : Instr} (effect : State → Access Unit) (s : State) (h : i.wf = true) :
    ∃ t, perform i effect s = .next t := by
  obtain ⟨op, ho⟩ := Instr.opcode_of_wf h
  cases he : effect (s.past i) with
  | ok v t => exact ⟨t.retire, perform_ok h he⟩
  | fatal k t => exact ⟨t.raiseFatal k op s.pc, perform_fatal ho he⟩

end Sys2Proof.Machine
end

