-- ==== Sys2Proof/Laws/Exec.lean ====
section
/-! SUPPORT. What executing an instruction can do, said once for all instructions: `exec` is `perform` of an effect, and
the effect is tame but for the halt class and the opcodes that are not implemented. -/

namespace Sys2Proof.Machine

/-- The effect of an instruction, as far as every claim about all instructions needs it. -/
inductive EffectKind (i : Instr) (s : State) (effect : State → Access Unit) : Prop where
  /-- Most effects. -/
  | tame (h : (effect (s.past i)).Tame (s.past i))
  /-- 45_undocumented.md R211. -/
  | jam (op : Byte) (hi : i = .jam op) (h : effect (s.past i) = .ok () { s.past i with halted := true })
  /-- 60_exceptions.md R221. -/
  | unknown (op : Byte) (hi : i = .unknown op) (h : effect (s.past i) = .fatal .unimplementedOpcode (s.past i))
  /-- 60_exceptions.md R228. -/
  | absent (hi : i = .brk ∨ i = .rti) (hp : s.params.brkRti = .fatal)
      (h : effect (s.past i) = .fatal .unimplementedOpcode (s.past i))

theorem combined_tame {f : Byte → State → Byte × State} (hf : CarryOnly f) {g : Byte → State → State}
    (hg : ∀ r s, State.Kept s (g r s)) (o : Operand) (s : State) : (combined o f g s).Tame s :=
  (rmw_tame hf o s).andThen hg

/-- A shift or rotate, with its flags. -/
theorem shift_tame {f : Byte → State → Byte × State} (hf : CarryOnly f) (t : Target) (s : State) :
    ((rmwTarget t f s).andThen fun r s => .set (s.setZN r)).Tame s :=
  (rmwTarget_tame hf t s).andThen fun r u => u.kept_setZN r

theorem branch_tame (d : Byte) (cond : State → Bool) (s : State) : (branch d cond s).Tame s := by
  unfold branch
  split
  · exact .of_registers rfl id
  · exact .refl s

/-- Every instruction is `perform` of its effect. -/
theorem exec_effect (i : Instr) (s : State) :
    ∃ effect, exec i s = perform i effect s ∧ EffectKind i s effect := by
  cases i with
  | lda o =>
    refine ⟨_, exec_lda o s, .tame ?_⟩
    exact reading_tame (fun m s => s.kept_resultInA m) _
  | ldx o =>
    refine ⟨_, exec_ldx o s, .tame ?_⟩
    exact reading_tame (fun m s => s.kept_resultInX m) _
  | ldy o =>
    refine ⟨_, exec_ldy o s, .tame ?_⟩
    exact reading_tame (fun m s => s.kept_resultInY m) _
  | sta o =>
    refine ⟨_, exec_sta o s, .tame ?_⟩
    exact storing_tame o _ _
  | stx o =>
    refine ⟨_, exec_stx o s, .tame ?_⟩
    exact storing_tame o _ _
  | sty o =>
    refine ⟨_, exec_sty o s, .tame ?_⟩
    exact storing_tame o _ _
  | tax =>
    refine ⟨_, exec_tax s, .tame ?_⟩
    exact State.kept_resultInX _ _
  | tay =>
    refine ⟨_, exec_tay s, .tame ?_⟩
    exact State.kept_resultInY _ _
  | txa =>
    refine ⟨_, exec_txa s, .tame ?_⟩
    exact State.kept_resultInA _ _
  | tya =>
    refine ⟨_, exec_tya s, .tame ?_⟩
    exact State.kept_resultInA _ _
  | tsx =>
    refine ⟨_, exec_tsx s, .tame ?_⟩
    exact State.kept_resultInX _ _
  | txs =>
    refine ⟨_, exec_txs s, .tame ?_⟩
    exact .of_registers rfl id
  | adc o =>
    refine ⟨_, exec_adc o s, .tame ?_⟩
    exact reading_tame (fun m s => s.kept_addToA m) _
  | sbc o =>
    refine ⟨_, exec_sbc o s, .tame ?_⟩
    exact reading_tame (fun m s => s.kept_addToA _) _
  | and o =>
    refine ⟨_, exec_and o s, .tame ?_⟩
    exact reading_tame (fun _ s => s.kept_resultInA _) _
  | ora o =>
    refine ⟨_, exec_ora o s, .tame ?_⟩
    exact reading_tame (fun _ s => s.kept_resultInA _) _
  | eor o =>
    refine ⟨_, exec_eor o s, .tame ?_⟩
    exact reading_tame (fun _ s => s.kept_resultInA _) _
  | cmp o =>
    refine ⟨_, exec_cmp o s, .tame ?_⟩
    exact reading_tame (fun m s => s.kept_compare s.a m) _
  | cpx o =>
    refine ⟨_, exec_cpx o s, .tame ?_⟩
    exact reading_tame (fun m s => s.kept_compare s.x m) _
  | cpy o =>
    refine ⟨_, exec_cpy o s, .tame ?_⟩
    exact reading_tame (fun m s => s.kept_compare s.y m) _
  | bit o =>
    refine ⟨_, exec_bit o s, .tame ?_⟩
    exact reading_tame (fun m s => s.kept_bitTest m) _
  | inc o =>
    refine ⟨_, exec_inc o s, .tame ?_⟩
    exact (rmw_tame carryOnly_increment o _).andThen fun r u => u.kept_setZN r
  | dec o =>
    refine ⟨_, exec_dec o s, .tame ?_⟩
    exact (rmw_tame carryOnly_decrement o _).andThen fun r u => u.kept_setZN r
  | inx =>
    refine ⟨_, exec_inx s, .tame ?_⟩
    exact State.kept_resultInX _ _
  | iny =>
    refine ⟨_, exec_iny s, .tame ?_⟩
    exact State.kept_resultInY _ _
  | dex =>
    refine ⟨_, exec_dex s, .tame ?_⟩
    exact State.kept_resultInX _ _
  | dey =>
    refine ⟨_, exec_dey s, .tame ?_⟩
    exact State.kept_resultInY _ _
  | asl t =>
    refine ⟨_, exec_asl t s, .tame ?_⟩
    exact shift_tame carryOnly_shiftL t _
  | lsr t =>
    refine ⟨_, exec_lsr t s, .tame ?_⟩
    exact shift_tame carryOnly_shiftR t _
  | rol t =>
    refine ⟨_, exec_rol t s, .tame ?_⟩
    exact shift_tame carryOnly_rotL t _
  | ror t =>
    refine ⟨_, exec_ror t s, .tame ?_⟩
    exact shift_tame carryOnly_rotR t _
  | bpl d =>
    refine ⟨_, exec_bpl d s, .tame ?_⟩
    exact branch_tame d _ _
  | bmi d =>
    refine ⟨_, exec_bmi d s, .tame ?_⟩
    exact branch_tame d _ _
  | bvc d =>
    refine ⟨_, exec_bvc d s, .tame ?_⟩
    exact branch_tame d _ _
  | bvs d =>
    refine ⟨_, exec_bvs d s, .tame ?_⟩
    exact branch_tame d _ _
  | bcc d =>
    refine ⟨_, exec_bcc d s, .tame ?_⟩
    exact branch_tame d _ _
  | bcs d =>
    refine ⟨_, exec_bcs d s, .tame ?_⟩
    exact branch_tame d _ _
  | bne d =>
    refine ⟨_, exec_bne d s, .tame ?_⟩
    exact branch_tame d _ _
  | beq d =>
    refine ⟨_, exec_beq d s, .tame ?_⟩
    exact branch_tame d _ _
  | jmp o =>
    refine ⟨_, exec_jmp o s, .tame ?_⟩
    exact (Access.tame_ofRead State.ea_none).andThen fun _ t => .of_registers (s := t) rfl id
  | jsr w =>
    refine ⟨_, exec_jsr w s, .tame ?_⟩
    exact (pushWord_tame _ _).andThen fun _ t => .of_registers (s := t) rfl id
  | rts =>
    refine ⟨_, exec_rts s, .tame ?_⟩
    exact (pullWord_tame _).andThen fun _ t => .of_registers (s := t) rfl id
  | pha =>
    refine ⟨_, exec_pha s, .tame ?_⟩
    exact push_tame _ _
  | pla =>
    refine ⟨_, exec_pla s, .tame ?_⟩
    exact (pull_tame _).andThen fun v t => t.kept_resultInA v
  | php =>
    refine ⟨_, exec_php s, .tame ?_⟩
    exact push_tame _ _
  | plp =>
    refine ⟨_, exec_plp s, .tame ?_⟩
    exact (pull_tame _).andThen fun v t => .of_registers (s := t) rfl (pulledStatus_forced t v)
  | clc =>
    refine ⟨_, exec_clc s, .tame ?_⟩
    exact State.kept_setFlag _ _ (by decide) (by decide)
  | sec =>
    refine ⟨_, exec_sec s, .tame ?_⟩
    exact State.kept_setFlag _ _ (by decide) (by decide)
  | cli =>
    refine ⟨_, exec_cli s, .tame ?_⟩
    exact State.kept_setFlag _ _ (by decide) (by decide)
  | sei =>
    refine ⟨_, exec_sei s, .tame ?_⟩
    exact State.kept_setFlag _ _ (by decide) (by decide)
  | cld =>
    refine ⟨_, exec_cld s, .tame ?_⟩
    exact State.kept_setFlag _ _ (by decide) (by decide)
  | sed =>
    refine ⟨_, exec_sed s, .tame ?_⟩
    exact State.kept_setFlag _ _ (by decide) (by decide)
  | clv =>
    refine ⟨_, exec_clv s, .tame ?_⟩
    exact State.kept_setFlag _ _ (by decide) (by decide)
  | slo o =>
    refine ⟨_, exec_slo o s, .tame ?_⟩
    exact combined_tame carryOnly_shiftL (fun _ s => s.kept_resultInA _) o _
  | rla o =>
    refine ⟨_, exec_rla o s, .tame ?_⟩
    exact combined_tame carryOnly_rotL (fun _ s => s.kept_resultInA _) o _
  | sre o =>
    refine ⟨_, exec_sre o s, .tame ?_⟩
    exact combined_tame carryOnly_shiftR (fun _ s => s.kept_resultInA _) o _
  | rra o =>
    refine ⟨_, exec_rra o s, .tame ?_⟩
    exact combined_tame carryOnly_rotR (fun _ s => s.kept_addToA _) o _
  | isc o =>
    refine ⟨_, exec_isc o s, .tame ?_⟩
    exact combined_tame carryOnly_increment (fun _ s => s.kept_addToA _) o _
  | dcp o =>
    refine ⟨_, exec_dcp o s, .tame ?_⟩
    exact combined_tame carryOnly_decrement (fun _ s => s.kept_compare s.a _) o _
  | sax o =>
    refine ⟨_, exec_sax o s, .tame ?_⟩
    exact storing_tame o _ _
  | lax o =>
    refine ⟨_, exec_lax o s, .tame ?_⟩
    exact reading_tame (fun m s =>
      (State.Kept.of_registers (t := { s with a := m, x := m }) rfl id).trans (State.kept_setZN _ m)) _
  | nop op o =>
    refine ⟨_, exec_nop op o s, .tame ?_⟩
    cases o with
    | none => exact .refl _
    | some o => exact reading_tame (fun _ s => .refl s) _
  | jam op => exact ⟨_, exec_jam op s, .jam op rfl rfl⟩
  | unknown op => exact ⟨_, exec_unknown op s, .unknown op rfl rfl⟩
  | brk =>
    cases hb : s.params.brkRti with
    | fatal => exact ⟨_, exec_brk s, .absent (.inl rfl) hb (by simp [hb])⟩
    | standard => exact ⟨_, exec_brk s, .tame (by simp only [State.past_params, hb]; exact enterBreak_tame _)⟩
  | rti =>
    cases hb : s.params.brkRti with
    | fatal => exact ⟨_, exec_rti s, .absent (.inr rfl) hb (by simp [hb])⟩
    | standard => exact ⟨_, exec_rti s, .tame (by simp only [State.past_params, hb]; exact returnFromBreak_tame _)⟩

end Sys2Proof.Machine
end

