-- ==== Sys2Proof/Laws/Step.lean ====
section
/-! SUPPORT. Everything a step can do, said once: claims about every step are case analyses of `Stepped`. -/

namespace Sys2Proof.Machine

/-! ## The fetch -/

/-- What fetching operand bytes gives: as many as the mode has, or a `TopCellAccess` that moved PC at most. -/
theorem fetchOperand_cases (m : Mode) (s : State) :
    (∃ bytes t, fetchOperand m s = .ok bytes t ∧ bytes.length = m.operandBytes) ∨
      ∃ t, fetchOperand m s = .fatal .topCellAccess t ∧ t = { s with pc := t.pc } ∧ s.params.topCell = .fault ∧
        m.operandBytes ≠ 0 := by
  have one (hm : m.operandBytes = 1) (h : fetchOperand m s = (fetch8 s).andThen fun b s => Access.ok [b] s) :
      (∃ bytes t, fetchOperand m s = .ok bytes t ∧ bytes.length = m.operandBytes) ∨
        ∃ t, fetchOperand m s = .fatal .topCellAccess t ∧ t = { s with pc := t.pc } ∧ s.params.topCell = .fault ∧
          m.operandBytes ≠ 0 := by
    rw [h, hm]
    cases hp : s.peek s.pc with
    | none => exact .inr ⟨s, by simp [fetch8, hp], rfl, State.peek_none hp, by decide⟩
    | some v =>
      exact .inl ⟨_, _, by simp only [fetch8, hp, Access.ofRead_some, Access.ok_andThen]; exact ⟨rfl, rfl⟩⟩
  have two (hm : m.operandBytes = 2)
      (h : fetchOperand m s = (fetch16 s).andThen fun w s => Access.ok [lowByte w, highByte w] s) :
      (∃ bytes t, fetchOperand m s = .ok bytes t ∧ bytes.length = m.operandBytes) ∨
        ∃ t, fetchOperand m s = .fatal .topCellAccess t ∧ t = { s with pc := t.pc } ∧ s.params.topCell = .fault ∧
          m.operandBytes ≠ 0 := by
    rw [h, hm]
    cases hp : s.peekWord s.pc with
    | none => exact .inr ⟨s, by simp [fetch16, hp], rfl, State.peekWord_none hp, by decide⟩
    | some v =>
      exact .inl ⟨_, _, by simp only [fetch16, hp, Access.ofRead_some, Access.ok_andThen]; exact ⟨rfl, rfl⟩⟩
  have past (hm : m.operandBytes = 1) (h : fetchOperand m s =
        (Access.ofRead (State.peek { s with pc := s.pc + 1 } s.pc) { s with pc := s.pc + 1 }).andThen
          fun b s => Access.ok [b] s) :
      (∃ bytes t, fetchOperand m s = .ok bytes t ∧ bytes.length = m.operandBytes) ∨
        ∃ t, fetchOperand m s = .fatal .topCellAccess t ∧ t = { s with pc := t.pc } ∧ s.params.topCell = .fault ∧
          m.operandBytes ≠ 0 := by
    rw [h, hm]
    cases hp : State.peek { s with pc := s.pc + 1 } s.pc with
    | none => exact .inr ⟨_, rfl, rfl, State.peek_none hp, by decide⟩
    | some v => exact .inl ⟨_, _, rfl, rfl⟩
  cases m with
  | imp | acc => exact .inl ⟨_, _, rfl, rfl⟩
  | imm | rel => exact past rfl rfl
  | zp | zpx | zpy | indx | indy => exact one rfl rfl
  | abs | absx | absy | ind => exact two rfl rfl

/-- What a fetch gives: the instruction that the opcode's entry makes, or a `TopCellAccess` of the opcode fetch or of an
operand byte. A fetch never gives bytes that the decoder refuses. -/
theorem fetch_cases (s : State) :
    (∃ op lo hi, s.peek s.pc = some op ∧ fetch s = .instr ((opcodeEntry op).make lo hi)) ∨
      ∃ op t, fetch s = .fatal .topCellAccess op t ∧ t = { s with pc := t.pc, freeDraws := t.freeDraws } ∧
        s.params.topCell = .fault ∧
        (s.peek s.pc = none ∨ s.peek s.pc = some op ∧ (opcodeEntry op).mode.operandBytes ≠ 0) := by
  cases h : s.peek s.pc with
  | none =>
    exact .inr ⟨_, _, by simp only [fetch, fetch8, h, Access.ofRead_none, Access.fatal_andThen]; rfl, rfl,
      State.peek_none h, .inl rfl⟩
  | some op =>
    rcases fetchOperand_cases (opcodeEntry op).mode { s with pc := s.pc + 1 } with ⟨bytes, t, h1, h2⟩ | ⟨t, h1, h2, h3, h4⟩
    · obtain ⟨lo, hi, h3⟩ := decode_of_length h2
      refine .inl ⟨op, lo, hi, rfl, ?_⟩
      simp only [fetch, fetch8, h, Access.ofRead_some, Access.ok_andThen, h1, h3]
    · refine .inr ⟨op, t, ?_, ?_, h3, .inr ⟨rfl, h4⟩⟩
      · simp only [fetch, fetch8, h, Access.ofRead_some, Access.ok_andThen, h1]
      · rw [h2]

/-! ## The step -/

theorem noStep_of_runnable {s : State} (hm : s.mapper.isSome = true) (hf : s.fault = none) (hh : s.halted = false) :
    noStep s = none := by
  obtain ⟨mp, hm⟩ := Option.isSome_iff_exists.1 hm
  simp [noStep, hm, hf, hh]

/-- A next state comes from a state in which a step exists (30_encoding.md R94). -/
theorem step_needs {s t : State} (h : step s = .next t) :
    s.mapper.isSome = true ∧ s.fault = none ∧ s.halted = false := by
  rcases hm : s.mapper with _ | mp
  · simp [step, noStep, hm] at h
  rcases hf : s.fault with _ | r
  · rcases hh : s.halted with _ | _
    · exact ⟨rfl, rfl, rfl⟩
    · simp [step, noStep, hm, hf, hh] at h
  · simp [step, noStep, hm, hf] at h

/-- Everything a step can do to a state in which it exists. -/
inductive Stepped (s t : State) : Prop where
  /-- The fetch met the missing top cell. -/
  | fetchFault (op : Byte) (u : State) (hu : u = { s with pc := u.pc, freeDraws := u.freeDraws })
      (hp : s.params.topCell = .fault)
      (hop : s.peek s.pc = none ∨ s.peek s.pc = some op ∧ (opcodeEntry op).mode.operandBytes ≠ 0)
      (ht : t = u.raiseFatal .topCellAccess op s.pc)
  /-- The instruction completed. -/
  | done (op : Byte) (u : State) (hop : s.peek s.pc = some op) (hj : op ∉ jamOpcodes) (hk : s.Kept u)
      (ht : t = u.retire)
  /-- A halt-class instruction completed. -/
  | jam (op : Byte) (hop : s.peek s.pc = some op) (hj : op ∈ jamOpcodes)
      (ht : t = State.retire { s.past (.jam op) with halted := true })
  /-- The instruction met the missing top cell. -/
  | topCell (op : Byte) (u : State) (hop : s.peek s.pc = some op) (hj : op ∉ jamOpcodes) (hk : s.Kept u)
      (hp : s.params.topCell = .fault) (ht : t = u.raiseFatal .topCellAccess op s.pc)
  /-- The opcode is not implemented. -/
  | absent (op : Byte) (i : Instr) (hop : s.peek s.pc = some op) (hj : op ∉ jamOpcodes)
      (hc : op ∈ unknownOpcodes ∨ s.params.brkRti = .fatal ∧ (op = 0x00#8 ∨ op = 0x40#8))
      (ht : t = (s.past i).raiseFatal .unimplementedOpcode op s.pc)

theorem State.past_kept (s : State) (i : Instr) : s.Kept (s.past i) := .of_registers rfl id

theorem Instr.opcode_jam {k op : Byte} (h : (Instr.jam k).opcode = some op) : k = op ∧ op ∈ jamOpcodes := by
  simp only [Instr.opcode] at h
  split at h
  · rename_i hk; cases h; exact ⟨rfl, List.contains_iff_mem.1 hk⟩
  · cases h

theorem Instr.opcode_unknown {k op : Byte} (h : (Instr.unknown k).opcode = some op) : k = op ∧ op ∈ unknownOpcodes := by
  simp only [Instr.opcode] at h
  split at h
  · rename_i hk; cases h; exact ⟨rfl, List.contains_iff_mem.1 hk⟩
  · cases h

/-- The halt-class opcodes are those of the halt-class instruction. -/
theorem opcodeEntry_jam {op : Byte} (h : op ∈ jamOpcodes) (lo hi : Byte) : (opcodeEntry op).make lo hi = .jam op := by
  simp only [jamOpcodes, List.mem_cons, List.not_mem_nil, or_false] at h
  rcases h with rfl | rfl | rfl | rfl | rfl | rfl | rfl | rfl | rfl | rfl | rfl | rfl <;> rfl

theorem jam_not_unknown {op : Byte} (h : op ∈ unknownOpcodes) : op ∉ jamOpcodes := by
  simp only [unknownOpcodes, List.mem_cons, List.not_mem_nil, or_false] at h
  rcases h with rfl | rfl | rfl | rfl | rfl | rfl | rfl | rfl | rfl | rfl | rfl | rfl | rfl | rfl <;> decide

/-- Executing what the table makes of the opcode at PC. -/
theorem exec_stepped {s : State} {op : Byte} (lo hi : Byte) (hop : s.peek s.pc = some op) :
    ∃ t, exec ((opcodeEntry op).make lo hi) s = .next t ∧ Stepped s t := by
  obtain ⟨hwf, hi', -⟩ := opcodeEntry_make op lo hi
  by_cases hj : op ∈ jamOpcodes
  · rw [opcodeEntry_jam hj] at hwf ⊢
    exact ⟨_, (exec_jam op s).trans (perform_ok hwf rfl), .jam op hop hj rfl⟩
  · obtain ⟨effect, he, hk⟩ := exec_effect ((opcodeEntry op).make lo hi) s
    generalize (opcodeEntry op).make lo hi = i at *
    cases hk with
    | tame h =>
      cases hx : effect (s.past i) with
      | ok v u =>
        rw [hx] at h
        exact ⟨_, he.trans (perform_ok hwf hx), .done op u hop hj ((s.past_kept i).trans h) rfl⟩
      | fatal k u =>
        rw [hx] at h
        obtain ⟨h1, rfl, h2⟩ := h
        exact ⟨_, he.trans (perform_fatal hi' hx), .topCell op u hop hj ((s.past_kept i).trans h1) h2 rfl⟩
    | jam k e h => rw [e] at hi'; exact absurd (Instr.opcode_jam hi').2 hj
    | unknown k e h =>
      refine ⟨_, he.trans (perform_fatal hi' h), .absent op i hop hj (.inl ?_) rfl⟩
      rw [e] at hi'
      exact (Instr.opcode_unknown hi').2
    | absent e hp h =>
      refine ⟨_, he.trans (perform_fatal hi' h), .absent op i hop hj (.inr ⟨hp, ?_⟩) rfl⟩
      rcases e with rfl | rfl
      · exact .inl (Option.some.inj hi').symm
      · exact .inr (Option.some.inj hi').symm

/-- Where a step exists, it answers a next state. -/
theorem step_stepped {s : State} (hm : s.mapper.isSome = true) (hf : s.fault = none) (hh : s.halted = false) :
    ∃ t, step s = .next t ∧ Stepped s t := by
  have hn := noStep_of_runnable hm hf hh
  rcases fetch_cases s with ⟨op, lo, hi, hop, h1⟩ | ⟨op, u, h1, h2, h3, h4⟩
  · obtain ⟨t, ht, hs⟩ := exec_stepped lo hi hop
    exact ⟨t, by simp only [step, hn, h1, ht], hs⟩
  · exact ⟨_, by simp only [step, hn, h1], .fetchFault op u h2 h3 h4 rfl⟩

/-- The inversion of a step: claims about every step start here. -/
theorem step_next {s t : State} (h : step s = .next t) : Stepped s t := by
  obtain ⟨hm, hf, hh⟩ := step_needs h
  obtain ⟨u, h1, h2⟩ := step_stepped hm hf hh
  rw [h1] at h
  exact Host.Outcome.next.inj h ▸ h2

/-! ## Runs -/

@[simp] theorem run_zero (s : State) : Host.Core.run core 0 s = .next s := rfl

/-- A run that begins with a step to `t` is the rest of the run, from `t`. -/
theorem coreRun_succ (M : Host.Core) {s t : M.State} (h : M.step s = .next t) (k : Nat) :
    M.run (k + 1) s = M.run k t := by
  rw [Host.Core.run, h]

theorem run_succ {s t : State} (h : step s = .next t) (k : Nat) :
    Host.Core.run core (k + 1) s = Host.Core.run core k t := coreRun_succ core h k

/-- The budget loop ends where it is not behind, and otherwise takes a step. -/
theorem catchUp_done {s : State} (h : s.behind = false) (k : Nat) : catchUp k s = .next s := by
  cases k <;> simp [catchUp, h]

theorem catchUp_step {s t : State} (hb : s.behind = true) (h : step s = .next t) (k : Nat) :
    catchUp (k + 1) s = catchUp k t := by
  simp [catchUp, hb, h]

end Sys2Proof.Machine
end

