-- ==== Sys2Proof/Tests/Slice0.lean ====
section
/-! SUPPORT. The model's own tests: ill-formed terms refused, words of 30_encoding.md R83 decoded, one step of each
instruction with the end state of spec/95_test_vectors.md (the vector's number in each name), and for every statement with
hypotheses a state and operands that meet them. -/

namespace Sys2Proof.Tests

open Sys2Proof Sys2Proof.Machine Sys2Proof.Claims

/-! ## Well-formedness: an ill-formed term for each check -/

/-- No mode outside an instruction's list passes (30_encoding.md R83). -/
theorem test_wf_refuses_mode :
    [Instr.lda (.zpy 0x10#8), .ldx (.zpx 0x10#8), .ldy (.absy 0x0300#16), .sta (.imm 0x10#8), .stx (.absy 0x0300#16),
     .sty (.zpy 0x10#8), .adc (.ind 0x0300#16), .sbc (.zpy 0x10#8), .and (.ind 0x0300#16), .ora (.zpy 0x10#8),
     .eor (.zpy 0x10#8), .cmp (.zpy 0x10#8), .cpx (.zpx 0x10#8), .cpy (.absx 0x0300#16), .bit (.imm 0x10#8),
     .inc (.absy 0x0300#16), .dec (.imm 0x10#8), .asl (.mem (.imm 0x10#8)), .lsr (.mem (.absy 0x0300#16)),
     .rol (.mem (.indx 0x10#8)), .ror (.mem (.indy 0x10#8)), .jmp (.absx 0x0300#16), .slo (.imm 0x10#8),
     .rla (.zpy 0x10#8), .sre (.ind 0x0300#16), .rra (.imm 0x10#8), .isc (.zpy 0x10#8), .dcp (.imm 0x10#8),
     .sax (.absy 0x0300#16), .lax (.imm 0x10#8)].all (fun i => !i.wf) = true := by decide

/-- No byte outside 30_encoding.md R84, R85, R86 passes, and a no-op's byte must have its operand's mode. -/
theorem test_wf_refuses_opcode :
    [Instr.unknown 0xEA#8, .jam 0x82#8, .nop 0xEB#8 none, .nop 0xEA#8 (some (.imm 0x10#8)), .nop 0x80#8 none,
     .nop 0x0C#8 (some (.absx 0x0300#16)), .nop 0x04#8 (some (.indx 0x10#8))].all (fun i => !i.wf) = true := by decide

/-- A meaning refuses an ill-formed term. -/
theorem test_ill_formed_refused : exec (.sta (.imm 0x10#8)) State.reset = .refused .illFormed := rfl

/-! ## Decoding: words written out from 30_encoding.md R83 -/

/-- The decoder reads exactly this instruction from these bytes, and the encoder gives the bytes back. -/
def codes (p : List Byte × Instr) : Bool :=
  (match decode p.1 with
    | .ok (i, rest) => decide (i = p.2) && rest.isEmpty
    | .error _ => false) && decide (encode p.2 = p.1)

theorem test_decode_loads_stores :
    [([0xB9#8, 0xF0#8, 0x12#8], Instr.lda (.absy 0x12F0#16)), ([0xB6#8, 0xFF#8], .ldx (.zpy 0xFF#8)),
     ([0xBC#8, 0x34#8, 0x12#8], .ldy (.absx 0x1234#16)), ([0x91#8, 0x20#8], .sta (.indy 0x20#8)),
     ([0x8E#8, 0x01#8, 0x08#8], .stx (.abs 0x0801#16)), ([0x94#8, 0x10#8], .sty (.zpx 0x10#8)),
     ([0x87#8, 0x10#8], .sax (.zp 0x10#8)), ([0xBF#8, 0x00#8, 0x03#8], .lax (.absy 0x0300#16))].all codes = true := by
  decide

theorem test_decode_transfers :
    [([0xAA#8], Instr.tax), ([0xA8#8], .tay), ([0x8A#8], .txa), ([0x98#8], .tya), ([0xBA#8], .tsx),
     ([0x9A#8], .txs)].all codes = true := by decide

theorem test_decode_alu :
    [([0x69#8, 0x20#8], Instr.adc (.imm 0x20#8)), ([0xE1#8, 0x20#8], .sbc (.indx 0x20#8)),
     ([0x35#8, 0x10#8], .and (.zpx 0x10#8)), ([0x19#8, 0x00#8, 0x03#8], .ora (.absy 0x0300#16)),
     ([0x5D#8, 0x00#8, 0x03#8], .eor (.absx 0x0300#16)), ([0xD1#8, 0x20#8], .cmp (.indy 0x20#8)),
     ([0xE0#8, 0x05#8], .cpx (.imm 0x05#8)), ([0xCC#8, 0x00#8, 0x03#8], .cpy (.abs 0x0300#16)),
     ([0x24#8, 0x10#8], .bit (.zp 0x10#8)), ([0xFE#8, 0x00#8, 0x03#8], .inc (.absx 0x0300#16)),
     ([0xC6#8, 0x10#8], .dec (.zp 0x10#8)), ([0xE8#8], .inx), ([0xC8#8], .iny), ([0xCA#8], .dex),
     ([0x88#8], .dey)].all codes = true := by decide

theorem test_decode_shifts :
    [([0x0A#8], Instr.asl .acc), ([0x46#8, 0x10#8], .lsr (.mem (.zp 0x10#8))),
     ([0x3E#8, 0x00#8, 0x03#8], .rol (.mem (.absx 0x0300#16))), ([0x6A#8], .ror .acc),
     ([0x6E#8, 0x00#8, 0x03#8], .ror (.mem (.abs 0x0300#16)))].all codes = true := by decide

theorem test_decode_control :
    [([0x10#8, 0x04#8], Instr.bpl 0x04#8), ([0x30#8, 0x04#8], .bmi 0x04#8), ([0x50#8, 0xF0#8], .bvc 0xF0#8),
     ([0x70#8, 0x7F#8], .bvs 0x7F#8), ([0x90#8, 0x80#8], .bcc 0x80#8), ([0xB0#8, 0x20#8], .bcs 0x20#8),
     ([0xD0#8, 0xFB#8], .bne 0xFB#8), ([0xF0#8, 0xFE#8], .beq 0xFE#8), ([0x4C#8, 0x34#8, 0x12#8], .jmp (.abs 0x1234#16)),
     ([0x6C#8, 0xFF#8, 0x30#8], .jmp (.ind 0x30FF#16)), ([0x20#8, 0x00#8, 0x40#8], .jsr 0x4000#16),
     ([0x60#8], .rts)].all codes = true := by decide

theorem test_decode_stack_flags :
    [([0x48#8], Instr.pha), ([0x68#8], .pla), ([0x08#8], .php), ([0x28#8], .plp), ([0x18#8], .clc), ([0x38#8], .sec),
     ([0x58#8], .cli), ([0x78#8], .sei), ([0xD8#8], .cld), ([0xF8#8], .sed), ([0xB8#8], .clv)].all codes = true := by
  decide

theorem test_decode_undocumented :
    [([0x07#8, 0x10#8], Instr.slo (.zp 0x10#8)), ([0x33#8, 0x10#8], .rla (.indy 0x10#8)),
     ([0x5B#8, 0x00#8, 0x03#8], .sre (.absy 0x0300#16)), ([0x77#8, 0x10#8], .rra (.zpx 0x10#8)),
     ([0xE3#8, 0x10#8], .isc (.indx 0x10#8)), ([0xCF#8, 0x00#8, 0x03#8], .dcp (.abs 0x0300#16)),
     ([0x3A#8], .nop 0x3A#8 none), ([0x89#8, 0xFF#8], .nop 0x89#8 (some (.imm 0xFF#8))),
     ([0x0C#8, 0x00#8, 0x20#8], .nop 0x0C#8 (some (.abs 0x2000#16))), ([0xD2#8], .jam 0xD2#8)].all codes = true := by
  decide

theorem test_decode_system :
    [([0x00#8], Instr.brk), ([0x40#8], .rti), ([0xEB#8], .unknown 0xEB#8), ([0x0B#8], .unknown 0x0B#8)].all codes = true := by
  decide

/-- Missing bytes are refused by name. -/
theorem test_decode_missing_bytes :
    (match decode [] with | .error .noOpcode => true | _ => false) = true ∧
    (match decode [0xAD#8, 0x00#8] with | .error (.missingOperand op) => op == 0xAD#8 | _ => false) = true := by decide

/-- The table's numbering: the first byte is bits 7..0. Bits above the row's are zero. -/
theorem test_decode_table_word :
    decodeTableWord 24 0xFFF0BD = some (.lda (.absx 0xFFF0#16)) ∧ decodeTableWord 8 0xAA = some .tax ∧
    decodeTableWord 8 0xBD = some (.lda (.absx 0x0000#16)) := by decide

/-! ## One step of each instruction -/

/-- A runnable state after reset: NROM installed, code at `pc`, and further cells. -/
def ready (pc : Word) (code : List Byte) (cells : List Host.Cell) : State :=
  { State.reset with
    mapper := some (nrom [] [])
    pc := pc
    mem := cells.foldl (fun m cell => m.write cell.1 cell.2) (Memory.writeBytes [] pc.toNat code) }

/-- A step answers a next state with this property. -/
def stepsTo (s : State) (want : State → Bool) : Bool :=
  match step s with
  | .next t => want t
  | _ => false

/-- V4, R108: absx wraps at 16 bits. -/
theorem test_lda_v4 : stepsTo { ready 0x8000#16 [0xBD#8, 0xF0#8, 0xFF#8] [(0x0010, 0x11#8)] with x := 0x20#8 } (fun t =>
    decide (t.a = 0x11#8 ∧ t.pc = 0x8003#16 ∧ t.internalClock = 1)) = true := by decide

/-- V24, R120: LDA #$00 sets Z. -/
theorem test_lda_v24 : stepsTo { ready 0x8000#16 [0xA9#8, 0x00#8] [] with a := 0x12#8 } (fun t =>
    decide (t.a = 0x00#8 ∧ t.p = 0x36#8 ∧ t.pc = 0x8002#16 ∧ t.internalClock = 1)) = true := by decide

/-- V3, R106: zpy wraps in zero page. -/
theorem test_ldx_v3 : stepsTo { ready 0x8000#16 [0xB6#8, 0xFF#8] [(0x0001, 0x33#8)] with y := 0x02#8 } (fun t =>
    decide (t.x = 0x33#8 ∧ t.pc = 0x8002#16 ∧ t.internalClock = 1)) = true := by decide

/-- V26, R122: LDY $10. -/
theorem test_ldy_v26 : stepsTo (ready 0x8000#16 [0xA4#8, 0x10#8] [(0x0010, 0xFF#8)]) (fun t =>
    decide (t.y = 0xFF#8 ∧ t.p = 0xB4#8 ∧ t.pc = 0x8002#16 ∧ t.internalClock = 1)) = true := by decide

/-- V14, R47: 0x0801 aliases 0x0001 (§8). -/
theorem test_sta_v14 : stepsTo { ready 0x8000#16 [0x8D#8, 0x01#8, 0x08#8] [] with a := 0x55#8 } (fun t =>
    decide (t.pc = 0x8003#16 ∧ t.mem.read 0x0001 = 0x55#8 ∧ t.internalClock = 1)) = true := by decide

/-- V28, R124: STX $10,Y wraps. -/
theorem test_stx_v28 : stepsTo { ready 0x8000#16 [0x96#8, 0x10#8] [] with x := 0x01#8, y := 0xF5#8 } (fun t =>
    decide (t.pc = 0x8002#16 ∧ t.mem.read 0x0005 = 0x01#8 ∧ t.internalClock = 1)) = true := by decide

/-- V29, R125: STY $2000 discarded. -/
theorem test_sty_v29 : stepsTo { ready 0x8000#16 [0x8C#8, 0x00#8, 0x20#8] [] with y := 0x09#8 } (fun t =>
    decide (t.pc = 0x8003#16 ∧ t.internalClock = 1)) = true := by decide

/-- V30, R126: TAX. -/
theorem test_tax_v30 : stepsTo { ready 0x8000#16 [0xAA#8] [] with a := 0xFF#8 } (fun t =>
    decide (t.x = 0xFF#8 ∧ t.p = 0xB4#8 ∧ t.pc = 0x8001#16 ∧ t.internalClock = 1)) = true := by decide

/-- V31, R127: TAY zero. -/
theorem test_tay_v31 : stepsTo { ready 0x8000#16 [0xA8#8] [] with a := 0x00#8 } (fun t =>
    decide (t.p = 0x36#8 ∧ t.pc = 0x8001#16 ∧ t.internalClock = 1)) = true := by decide

/-- V32, R128: TXA. -/
theorem test_txa_v32 : stepsTo { ready 0x8000#16 [0x8A#8] [] with x := 0x80#8 } (fun t =>
    decide (t.a = 0x80#8 ∧ t.p = 0xB4#8 ∧ t.pc = 0x8001#16 ∧ t.internalClock = 1)) = true := by decide

/-- V33, R129: TYA. -/
theorem test_tya_v33 : stepsTo { ready 0x8000#16 [0x98#8] [] with y := 0x01#8 } (fun t =>
    decide (t.a = 0x01#8 ∧ t.pc = 0x8001#16 ∧ t.internalClock = 1)) = true := by decide

/-- V34, R130: TSX. -/
theorem test_tsx_v34 : stepsTo { ready 0x8000#16 [0xBA#8] [] with sp := 0x00#8 } (fun t =>
    decide (t.p = 0x36#8 ∧ t.pc = 0x8001#16 ∧ t.internalClock = 1)) = true := by decide

/-- V35, R131: TXS sets no flag. -/
theorem test_txs_v35 : stepsTo { ready 0x8000#16 [0x9A#8] [] with x := 0x00#8, p := 0x34#8 } (fun t =>
    decide (t.sp = 0x00#8 ∧ t.pc = 0x8001#16 ∧ t.internalClock = 1)) = true := by decide

/-- V38, R142: ADC signed overflow 0x7F+0x01. -/
theorem test_adc_v38 : stepsTo { ready 0x8000#16 [0x69#8, 0x01#8] [] with a := 0x7F#8, p := 0x34#8 } (fun t =>
    decide (t.a = 0x80#8 ∧ t.p = 0xF4#8 ∧ t.pc = 0x8002#16 ∧ t.internalClock = 1)) = true := by decide

/-- V40, R142: ADC 0xFF+0xFF+1. -/
theorem test_adc_v40 : stepsTo { ready 0x8000#16 [0x69#8, 0xFF#8] [] with a := 0xFF#8, p := 0x35#8 } (fun t =>
    decide (t.p = 0xB5#8 ∧ t.pc = 0x8002#16 ∧ t.internalClock = 1)) = true := by decide

/-- V43, R143: SBC with overflow. -/
theorem test_sbc_v43 : stepsTo { ready 0x8000#16 [0xE9#8, 0xB0#8] [] with a := 0x50#8, p := 0x35#8 } (fun t =>
    decide (t.a = 0xA0#8 ∧ t.p = 0xF4#8 ∧ t.pc = 0x8002#16 ∧ t.internalClock = 1)) = true := by decide

/-- V44, R143: SBC borrow (C=0 in). -/
theorem test_sbc_v44 : stepsTo { ready 0x8000#16 [0xE9#8, 0x00#8] [] with a := 0x00#8, p := 0x34#8 } (fun t =>
    decide (t.a = 0xFF#8 ∧ t.p = 0xB4#8 ∧ t.pc = 0x8002#16 ∧ t.internalClock = 1)) = true := by decide

/-- V47, R144: AND to zero. -/
theorem test_and_v47 : stepsTo { ready 0x8000#16 [0x29#8, 0x0F#8] [] with a := 0xF0#8 } (fun t =>
    decide (t.a = 0x00#8 ∧ t.p = 0x36#8 ∧ t.pc = 0x8002#16 ∧ t.internalClock = 1)) = true := by decide

/-- V48, R145: ORA. -/
theorem test_ora_v48 : stepsTo { ready 0x8000#16 [0x09#8, 0x80#8] [] with a := 0x0F#8 } (fun t =>
    decide (t.a = 0x8F#8 ∧ t.p = 0xB4#8 ∧ t.pc = 0x8002#16 ∧ t.internalClock = 1)) = true := by decide

/-- V49, R146: EOR. -/
theorem test_eor_v49 : stepsTo { ready 0x8000#16 [0x49#8, 0x0F#8] [] with a := 0xFF#8 } (fun t =>
    decide (t.a = 0xF0#8 ∧ t.p = 0xB4#8 ∧ t.pc = 0x8002#16 ∧ t.internalClock = 1)) = true := by decide

/-- V52, R148: CMP less (N from difference). -/
theorem test_cmp_v52 : stepsTo { ready 0x8000#16 [0xC9#8, 0x40#8] [] with a := 0x30#8 } (fun t =>
    decide (t.p = 0xB4#8 ∧ t.pc = 0x8002#16 ∧ t.internalClock = 1)) = true := by decide

/-- V54, R149: CPX equal. -/
theorem test_cpx_v54 : stepsTo { ready 0x8000#16 [0xE0#8, 0x05#8] [] with x := 0x05#8 } (fun t =>
    decide (t.p = 0x37#8 ∧ t.pc = 0x8002#16 ∧ t.internalClock = 1)) = true := by decide

/-- V55, R150: CPY less. -/
theorem test_cpy_v55 : stepsTo { ready 0x8000#16 [0xC0#8, 0x02#8] [] with y := 0x01#8 } (fun t =>
    decide (t.p = 0xB4#8 ∧ t.pc = 0x8002#16 ∧ t.internalClock = 1)) = true := by decide

/-- V56, R151: BIT zero, V and N from operand. -/
theorem test_bit_v56 : stepsTo { ready 0x8000#16 [0x24#8, 0x10#8] [(0x0010, 0xC0#8)] with a := 0x01#8 } (fun t =>
    decide (t.p = 0xF6#8 ∧ t.pc = 0x8002#16 ∧ t.internalClock = 1)) = true := by decide

/-- V58, R152: INC wraps to zero. -/
theorem test_inc_v58 : stepsTo (ready 0x8000#16 [0xE6#8, 0x10#8] [(0x0010, 0xFF#8)]) (fun t =>
    decide (t.p = 0x36#8 ∧ t.pc = 0x8002#16 ∧ t.mem.read 0x0010 = 0x00#8 ∧ t.internalClock = 1)) = true := by decide

/-- V60, R153: DEC wraps to 0xFF. -/
theorem test_dec_v60 : stepsTo (ready 0x8000#16 [0xC6#8, 0x10#8] [(0x0010, 0x00#8)]) (fun t =>
    decide (t.p = 0xB4#8 ∧ t.pc = 0x8002#16 ∧ t.mem.read 0x0010 = 0xFF#8 ∧ t.internalClock = 1)) = true := by decide

/-- V62, R154: INX wraps. -/
theorem test_inx_v62 : stepsTo { ready 0x8000#16 [0xE8#8] [] with x := 0xFF#8 } (fun t =>
    decide (t.x = 0x00#8 ∧ t.p = 0x36#8 ∧ t.pc = 0x8001#16 ∧ t.internalClock = 1)) = true := by decide

/-- V63, R155: INY wraps. -/
theorem test_iny_v63 : stepsTo { ready 0x8000#16 [0xC8#8] [] with y := 0xFF#8 } (fun t =>
    decide (t.y = 0x00#8 ∧ t.p = 0x36#8 ∧ t.pc = 0x8001#16 ∧ t.internalClock = 1)) = true := by decide

/-- V64, R156: DEX to zero. -/
theorem test_dex_v64 : stepsTo { ready 0x8000#16 [0xCA#8] [] with x := 0x01#8 } (fun t =>
    decide (t.x = 0x00#8 ∧ t.p = 0x36#8 ∧ t.pc = 0x8001#16 ∧ t.internalClock = 1)) = true := by decide

/-- V65, R157: DEY wraps. -/
theorem test_dey_v65 : stepsTo { ready 0x8000#16 [0x88#8] [] with y := 0x00#8 } (fun t =>
    decide (t.y = 0xFF#8 ∧ t.p = 0xB4#8 ∧ t.pc = 0x8001#16 ∧ t.internalClock = 1)) = true := by decide

/-- V66, R166: ASL A. -/
theorem test_asl_v66 : stepsTo { ready 0x8000#16 [0x0A#8] [] with a := 0x81#8 } (fun t =>
    decide (t.a = 0x02#8 ∧ t.p = 0x35#8 ∧ t.pc = 0x8001#16 ∧ t.internalClock = 1)) = true := by decide

/-- V68, R166: ASL zp. -/
theorem test_asl_v68 : stepsTo (ready 0x8000#16 [0x06#8, 0x10#8] [(0x0010, 0x40#8)]) (fun t =>
    decide (t.p = 0xB4#8 ∧ t.pc = 0x8002#16 ∧ t.mem.read 0x0010 = 0x80#8 ∧ t.internalClock = 1)) = true := by decide

/-- V69, R167: LSR zp. -/
theorem test_lsr_v69 : stepsTo (ready 0x8000#16 [0x46#8, 0x10#8] [(0x0010, 0x03#8)]) (fun t =>
    decide (t.p = 0x35#8 ∧ t.pc = 0x8002#16 ∧ t.mem.read 0x0010 = 0x01#8 ∧ t.internalClock = 1)) = true := by decide

/-- V70, R167: LSR A 0x01 to zero. -/
theorem test_lsr_v70 : stepsTo { ready 0x8000#16 [0x4A#8] [] with a := 0x01#8 } (fun t =>
    decide (t.a = 0x00#8 ∧ t.p = 0x37#8 ∧ t.pc = 0x8001#16 ∧ t.internalClock = 1)) = true := by decide

/-- V71, R168: ROL A carry in. -/
theorem test_rol_v71 : stepsTo { ready 0x8000#16 [0x2A#8] [] with a := 0x40#8, p := 0x35#8 } (fun t =>
    decide (t.a = 0x81#8 ∧ t.p = 0xB4#8 ∧ t.pc = 0x8001#16 ∧ t.internalClock = 1)) = true := by decide

/-- V72, R168: ROL A 0x80 C=0. -/
theorem test_rol_v72 : stepsTo { ready 0x8000#16 [0x2A#8] [] with a := 0x80#8, p := 0x34#8 } (fun t =>
    decide (t.a = 0x00#8 ∧ t.p = 0x37#8 ∧ t.pc = 0x8001#16 ∧ t.internalClock = 1)) = true := by decide

/-- V73, R169: ROR abs. -/
theorem test_ror_v73 : stepsTo { ready 0x8000#16 [0x6E#8, 0x00#8, 0x03#8] [(0x0300, 0x02#8)] with p := 0x35#8 } (fun t =>
    decide (t.p = 0xB4#8 ∧ t.pc = 0x8003#16 ∧ t.mem.read 0x0300 = 0x81#8 ∧ t.internalClock = 1)) = true := by decide

/-- V74, R169: ROR A 0x01 C=0. -/
theorem test_ror_v74 : stepsTo { ready 0x8000#16 [0x6A#8] [] with a := 0x01#8, p := 0x34#8 } (fun t =>
    decide (t.a = 0x00#8 ∧ t.p = 0x37#8 ∧ t.pc = 0x8001#16 ∧ t.internalClock = 1)) = true := by decide

/-- V75, R176: BPL taken. -/
theorem test_bpl_v75 : stepsTo { ready 0x8000#16 [0x10#8, 0x04#8] [] with p := 0x34#8 } (fun t =>
    decide (t.pc = 0x8006#16 ∧ t.internalClock = 1)) = true := by decide

/-- V76, R177: BMI not taken. -/
theorem test_bmi_v76 : stepsTo { ready 0x8000#16 [0x30#8, 0x04#8] [] with p := 0x34#8 } (fun t =>
    decide (t.pc = 0x8002#16 ∧ t.internalClock = 1)) = true := by decide

/-- V77, R178: BVC taken backwards. -/
theorem test_bvc_v77 : stepsTo { ready 0x8010#16 [0x50#8, 0xF0#8] [] with p := 0x34#8 } (fun t =>
    decide (t.pc = 0x8002#16 ∧ t.internalClock = 1)) = true := by decide

/-- V78, R179: BVS taken +127. -/
theorem test_bvs_v78 : stepsTo { ready 0x8000#16 [0x70#8, 0x7F#8] [] with p := 0x74#8 } (fun t =>
    decide (t.pc = 0x8081#16 ∧ t.internalClock = 1)) = true := by decide

/-- V79, R180: BCC taken -128. -/
theorem test_bcc_v79 : stepsTo { ready 0x8000#16 [0x90#8, 0x80#8] [] with p := 0x34#8 } (fun t =>
    decide (t.pc = 0x7F82#16 ∧ t.internalClock = 1)) = true := by decide

/-- V80, R181: BCS taken, wraps past 0xFFFF. -/
theorem test_bcs_v80 : stepsTo { ready 0xFFF0#16 [0xB0#8, 0x20#8] [] with p := 0x35#8 } (fun t =>
    decide (t.pc = 0x0012#16 ∧ t.internalClock = 1)) = true := by decide

/-- V81, R182: BNE taken backwards. -/
theorem test_bne_v81 : stepsTo { ready 0x8005#16 [0xD0#8, 0xFB#8] [] with p := 0x34#8 } (fun t =>
    decide (t.pc = 0x8002#16 ∧ t.internalClock = 1)) = true := by decide

/-- V82, R183: BEQ to itself. -/
theorem test_beq_v82 : stepsTo { ready 0x8000#16 [0xF0#8, 0xFE#8] [] with p := 0x36#8 } (fun t =>
    decide (t.pc = 0x8000#16 ∧ t.internalClock = 1)) = true := by decide

/-- V7, R110: JMP ($02FF) bug: high byte from 0x0200. -/
theorem test_jmp_v7 : stepsTo (ready 0x8000#16 [0x6C#8, 0xFF#8, 0x02#8] [(0x02FF, 0x00#8), (0x0200, 0x80#8), (0x0300, 0x90#8)]) (fun t =>
    decide (t.pc = 0x8000#16 ∧ t.internalClock = 1)) = true := by decide

/-- V84, R184: JMP abs. -/
theorem test_jmp_v84 : stepsTo (ready 0x8000#16 [0x4C#8, 0x34#8, 0x12#8] []) (fun t =>
    decide (t.pc = 0x1234#16 ∧ t.internalClock = 1)) = true := by decide

/-- V86, R185: JSR with SP=0x01 wraps the stack. -/
theorem test_jsr_v86 : stepsTo { ready 0x8000#16 [0x20#8, 0x00#8, 0x03#8] [] with sp := 0x01#8 } (fun t =>
    decide (t.sp = 0xFF#8 ∧ t.pc = 0x0300#16 ∧ t.mem.read 0x0000 = 0x80#8 ∧ t.mem.read 0x00FF = 0x02#8 ∧ t.internalClock = 1)) = true := by decide

/-- V88, R186: RTS from 0xFFFF returns to 0x0000. -/
theorem test_rts_v88 : stepsTo { ready 0x0300#16 [0x60#8] [(0x00FB, 0xFF#8), (0x00FC, 0xFF#8)] with sp := 0xFB#8 } (fun t =>
    decide (t.sp = 0xFD#8 ∧ t.pc = 0x0000#16 ∧ t.internalClock = 1)) = true := by decide

/-- V90, R187: PHA with SP=0x00 writes 0x00FF. -/
theorem test_pha_v90 : stepsTo { ready 0x8000#16 [0x48#8] [] with a := 0x12#8, sp := 0x00#8 } (fun t =>
    decide (t.sp = 0xFF#8 ∧ t.pc = 0x8001#16 ∧ t.mem.read 0x00FF = 0x12#8 ∧ t.internalClock = 1)) = true := by decide

/-- V91, R188: PLA sets N. -/
theorem test_pla_v91 : stepsTo { ready 0x8000#16 [0x68#8] [(0x00FC, 0x80#8)] with sp := 0xFC#8 } (fun t =>
    decide (t.a = 0x80#8 ∧ t.p = 0xB4#8 ∧ t.sp = 0xFD#8 ∧ t.pc = 0x8001#16 ∧ t.internalClock = 1)) = true := by decide

/-- V93, R189: PHP forces bits 5 and 4. -/
theorem test_php_v93 : stepsTo { ready 0x8000#16 [0x08#8] [] with p := 0xC3#8, sp := 0xFD#8 } (fun t =>
    decide (t.sp = 0xFC#8 ∧ t.pc = 0x8001#16 ∧ t.mem.read 0x00FC = 0xF3#8 ∧ t.internalClock = 1)) = true := by decide

/-- V94, R190: PLP keeps B, forces U. -/
theorem test_plp_v94 : stepsTo { ready 0x8000#16 [0x28#8] [(0x00FC, 0xC3#8)] with p := 0x34#8, sp := 0xFC#8 } (fun t =>
    decide (t.p = 0xF3#8 ∧ t.sp = 0xFD#8 ∧ t.pc = 0x8001#16 ∧ t.internalClock = 1)) = true := by decide

/-- V96, R191: CLC. -/
theorem test_clc_v96 : stepsTo { ready 0x8000#16 [0x18#8] [] with p := 0x35#8 } (fun t =>
    decide (t.p = 0x34#8 ∧ t.pc = 0x8001#16 ∧ t.internalClock = 1)) = true := by decide

/-- V97, R192: SEC. -/
theorem test_sec_v97 : stepsTo { ready 0x8000#16 [0x38#8] [] with p := 0x34#8 } (fun t =>
    decide (t.p = 0x35#8 ∧ t.pc = 0x8001#16 ∧ t.internalClock = 1)) = true := by decide

/-- V98, R193: CLI. -/
theorem test_cli_v98 : stepsTo { ready 0x8000#16 [0x58#8] [] with p := 0x34#8 } (fun t =>
    decide (t.p = 0x30#8 ∧ t.pc = 0x8001#16 ∧ t.internalClock = 1)) = true := by decide

/-- V99, R194: SEI. -/
theorem test_sei_v99 : stepsTo { ready 0x8000#16 [0x78#8] [] with p := 0x30#8 } (fun t =>
    decide (t.p = 0x34#8 ∧ t.pc = 0x8001#16 ∧ t.internalClock = 1)) = true := by decide

/-- V100, R195: CLD. -/
theorem test_cld_v100 : stepsTo { ready 0x8000#16 [0xD8#8] [] with p := 0x3C#8 } (fun t =>
    decide (t.p = 0x34#8 ∧ t.pc = 0x8001#16 ∧ t.internalClock = 1)) = true := by decide

/-- V101, R196: SED. -/
theorem test_sed_v101 : stepsTo { ready 0x8000#16 [0xF8#8] [] with p := 0x34#8 } (fun t =>
    decide (t.p = 0x3C#8 ∧ t.pc = 0x8001#16 ∧ t.internalClock = 1)) = true := by decide

/-- V102, R197: CLV. -/
theorem test_clv_v102 : stepsTo { ready 0x8000#16 [0xB8#8] [] with p := 0x74#8 } (fun t =>
    decide (t.p = 0x34#8 ∧ t.pc = 0x8001#16 ∧ t.internalClock = 1)) = true := by decide

/-- V103, R201: SLO zp. -/
theorem test_slo_v103 : stepsTo { ready 0x8000#16 [0x07#8, 0x10#8] [(0x0010, 0x81#8)] with a := 0x01#8 } (fun t =>
    decide (t.a = 0x03#8 ∧ t.p = 0x35#8 ∧ t.pc = 0x8002#16 ∧ t.mem.read 0x0010 = 0x02#8 ∧ t.internalClock = 1)) = true := by decide

/-- V105, R202: RLA zp. -/
theorem test_rla_v105 : stepsTo { ready 0x8000#16 [0x27#8, 0x10#8] [(0x0010, 0x80#8)] with a := 0xFF#8, p := 0x35#8 } (fun t =>
    decide (t.a = 0x01#8 ∧ t.pc = 0x8002#16 ∧ t.mem.read 0x0010 = 0x01#8 ∧ t.internalClock = 1)) = true := by decide

/-- V106, R203: SRE zp. -/
theorem test_sre_v106 : stepsTo { ready 0x8000#16 [0x47#8, 0x10#8] [(0x0010, 0x03#8)] with a := 0x81#8 } (fun t =>
    decide (t.a = 0x80#8 ∧ t.p = 0xB5#8 ∧ t.pc = 0x8002#16 ∧ t.mem.read 0x0010 = 0x01#8 ∧ t.internalClock = 1)) = true := by decide

/-- V107, R204: RRA zp (carry from ROR feeds ADC). -/
theorem test_rra_v107 : stepsTo { ready 0x8000#16 [0x67#8, 0x10#8] [(0x0010, 0x03#8)] with a := 0x10#8, p := 0x34#8 } (fun t =>
    decide (t.a = 0x12#8 ∧ t.pc = 0x8002#16 ∧ t.mem.read 0x0010 = 0x01#8 ∧ t.internalClock = 1)) = true := by decide

/-- V108, R205: ISC zp. -/
theorem test_isc_v108 : stepsTo { ready 0x8000#16 [0xE7#8, 0x10#8] [(0x0010, 0x04#8)] with a := 0x10#8, p := 0x35#8 } (fun t =>
    decide (t.a = 0x0B#8 ∧ t.pc = 0x8002#16 ∧ t.mem.read 0x0010 = 0x05#8 ∧ t.internalClock = 1)) = true := by decide

/-- V110, R206: DCP zp equal. -/
theorem test_dcp_v110 : stepsTo { ready 0x8000#16 [0xC7#8, 0x10#8] [(0x0010, 0x06#8)] with a := 0x05#8 } (fun t =>
    decide (t.p = 0x37#8 ∧ t.pc = 0x8002#16 ∧ t.mem.read 0x0010 = 0x05#8 ∧ t.internalClock = 1)) = true := by decide

/-- V113, R207: SAX zpy wraps. -/
theorem test_sax_v113 : stepsTo { ready 0x8000#16 [0x97#8, 0xF0#8] [] with a := 0xFF#8, x := 0x0F#8, y := 0x20#8 } (fun t =>
    decide (t.pc = 0x8002#16 ∧ t.mem.read 0x0010 = 0x0F#8 ∧ t.internalClock = 1)) = true := by decide

/-- V115, R208: LAX absy. -/
theorem test_lax_v115 : stepsTo { ready 0x8000#16 [0xBF#8, 0x00#8, 0x03#8] [(0x0301, 0x00#8)] with y := 0x01#8 } (fun t =>
    decide (t.p = 0x36#8 ∧ t.pc = 0x8003#16 ∧ t.internalClock = 1)) = true := by decide

/-- V117, R209: NOP 0x1A. -/
theorem test_nop_v117 : stepsTo (ready 0x8000#16 [0x1A#8] []) (fun t =>
    decide (t.pc = 0x8001#16 ∧ t.internalClock = 1)) = true := by decide

/-- V119, R210: NOP abs reads stub. -/
theorem test_nop_v119 : stepsTo (ready 0x8000#16 [0x0C#8, 0x00#8, 0x20#8] []) (fun t =>
    decide (t.pc = 0x8003#16 ∧ t.internalClock = 1)) = true := by decide

/-- V122, R211: JAM 0xF2 with operand-like byte after it. -/
theorem test_jam_v122 : stepsTo (ready 0x8000#16 [0xF2#8] [(0x8001, 0xFF#8)]) (fun t =>
    decide (t.pc = 0x8001#16 ∧ t.halted = true ∧ t.internalClock = 1)) = true := by decide

/-- V123, R221: Unknown opcode 0xEB. -/
theorem test_unknown_v123 : stepsTo { ready 0x8000#16 [0xEB#8, 0x01#8] [] with a := 0x10#8 } (fun t =>
    decide (t.pc = 0x8001#16 ∧ t.fault.map (fun r => (r.kind, r.addr)) = some (.unimplementedOpcode, 0x8000#16) ∧ t.internalClock = 0)) = true := by decide

/-- V125, R228: BRK under BRK_RTI_MODE=Fatal. -/
theorem test_brk_v125 : stepsTo (ready 0x8000#16 [0x00#8, 0x00#8] []) (fun t =>
    decide (t.pc = 0x8001#16 ∧ t.fault.map (fun r => (r.kind, r.addr)) = some (.unimplementedOpcode, 0x8000#16) ∧ t.internalClock = 0)) = true := by decide

/-- V127, R226: BRK under Standard. -/
theorem test_brk_v127 : stepsTo { ready 0x8000#16 [0x00#8, 0x00#8] [(0xFFFE, 0x00#8), (0xFFFF, 0x90#8)] with p := 0x30#8, sp := 0xFD#8, params := { Params.default with brkRti := .standard } } (fun t =>
    decide (t.p = 0x34#8 ∧ t.sp = 0xFA#8 ∧ t.pc = 0x9000#16 ∧ t.mem.read 0x00FA = 0x30#8 ∧ t.mem.read 0x00FB = 0x02#8 ∧ t.mem.read 0x00FC = 0x80#8 ∧ t.internalClock = 1)) = true := by decide

/-- V126, R228: RTI under BRK_RTI_MODE=Fatal. -/
theorem test_rti_v126 : stepsTo (ready 0x8000#16 [0x40#8] []) (fun t =>
    decide (t.pc = 0x8001#16 ∧ t.fault.map (fun r => (r.kind, r.addr)) = some (.unimplementedOpcode, 0x8000#16) ∧ t.internalClock = 0)) = true := by decide

/-- V128, R227: RTI under Standard. -/
theorem test_rti_v128 : stepsTo { ready 0x9000#16 [0x40#8] [(0x00FB, 0x02#8), (0x00FC, 0x80#8), (0x00FA, 0x30#8)] with p := 0x34#8, sp := 0xFA#8, params := { Params.default with brkRti := .standard } } (fun t =>
    decide (t.p = 0x30#8 ∧ t.sp = 0xFD#8 ∧ t.pc = 0x8002#16 ∧ t.internalClock = 1)) = true := by decide

/-- V129, R222: TOP_CELL_POLICY=Fault: opcode fetch at 0xFFFF. -/
theorem test_fetch_v129 : stepsTo { ready 0xFFFF#16 [0xEA#8] [] with params := { Params.default with topCell := .fault } } (fun t =>
    decide (t.pc = 0xFFFF#16 ∧ t.fault.map (fun r => (r.kind, r.addr)) = some (.topCellAccess, 0xFFFF#16) ∧ t.internalClock = 0)) = true := by decide

/-! ## Parameters, addressing and the bus -/

/-- V12 and V13, R117: the pointer at 0x00FF takes its high byte from 0x0100, or from 0x0000 under `ZP_PTR_WRAP`. -/
theorem test_ea_v12_v13 :
    let s := ready 0x8000#16 [] [(0x00FF, 0x00#8), (0x0100, 0x03#8), (0x0000, 0x04#8)]
    s.ea (.indy 0xFF#8) = some 0x0300#16 ∧
    State.ea { s with params := { Params.default with zpPtrWrap := true } } (.indy 0xFF#8) = some 0x0400#16 := by decide

/-- V10, R111: the pointer index wraps in the zero page. -/
theorem test_ea_v10 :
    State.ea { ready 0x8000#16 [] [(0x0000, 0x10#8), (0x0001, 0x03#8)] with x := 0x01#8 } (.indx 0xFF#8)
      = some 0x0310#16 := by decide

/-- V16, V17, V18, R48, R50: 0x2008 and 0x401F are stubs, 0x4020 is not. -/
theorem test_peek_v16_v17_v18 :
    let s := ready 0x8000#16 [] [(0x2008, 0x66#8), (0x401F, 0x66#8), (0x4020, 0x12#8)]
    s.peek 0x2008#16 = some 0x00#8 ∧ s.peek 0x401F#16 = some 0x00#8 ∧ s.peek 0x4020#16 = some 0x12#8 := by decide

/-- V21 and V22, R79: 0xFFFF under both policies. -/
theorem test_peek_v21_v22 :
    let s := ready 0x8000#16 [] [(0xFFFF, 0x5C#8)]
    s.peek 0xFFFF#16 = some 0x5C#8 ∧
    State.peek { s with params := { Params.default with topCell := .fault } } 0xFFFF#16 = none := by decide

/-- 70_reset_and_hazards.md R240. -/
theorem test_reset : State.reset.p = 0x34#8 ∧ State.reset.sp = 0xFD#8 ∧ State.reset.mem.wf = true := by decide

/-- The next step after placing a table word runs exactly it, from reset and from a runnable state. -/
theorem test_with_fetch_word :
    stepsTo (State.reset.withFetchWord 8 0xE8) (fun t => decide (t.x = 0x01#8 ∧ t.pc = 0x8001#16)) = true ∧
    stepsTo ((ready 0x0300#16 [] []).withFetchWord 16 0x42A9) (fun t => decide (t.a = 0x42#8 ∧ t.pc = 0x0302#16)) = true := by
  decide

/-- 95_test_vectors.md W7 in small: a bad magic and a short file fail, and an unsupported mapper is named. -/
theorem test_load_failures :
    (match parseContainer .low [0x4E#8, 0x45#8, 0x53#8, 0x00#8] with | .error .badMagic => true | _ => false) = true ∧
    (match parseContainer .low [0x4E#8, 0x45#8] with | .error .shortRead => true | _ => false) = true ∧
    (match State.reset.loadCartridge ⟨[], [], 0x01#8⟩ with
      | .error (.unsupportedMapper id) => id == 0x01#8 | _ => false) = true ∧
    (match State.reset.loadRom none with | .error .missingFile => true | _ => false) = true := by decide

/-- 70_reset_and_hazards.md R250: the mapper id's nibbles, and 0x44 in flags-7 taken as 0. -/
theorem test_mapper_id :
    mapperId .low 0x31#8 0x20#8 = 0x21#8 ∧ mapperId .high 0x31#8 0x20#8 = 0x23#8 ∧ mapperId .low 0x31#8 0x44#8 = 0x01#8 := by
  decide

/-- P7: one halt-class instruction ends the budget. -/
theorem test_budget_halts :
    (match hostStep 1024 (ready 0x8000#16 [0x02#8] []) with
      | .next t => decide (t.halted = true ∧ t.internalClock = 1 ∧ t.masterClock = 1024 ∧ t.runEnd = .succeeded)
      | _ => false) = true := by decide

/-- `CLOCK_BITS` = 8 wraps the count (10_state.md R35). -/
theorem test_clock_bits :
    stepsTo { ready 0x8000#16 [0xEA#8] [] with
        params := { Params.default with clockBits := some 8 }, internalClock := 255 }
      (fun t => decide (t.internalClock = 0)) = true := by decide

/-- A budget of three: two instructions are counted and a fatal condition ends it, which takes three steps. -/
theorem test_budget_steps :
    let s := { ready 0x8000#16 [0xEA#8, 0xEA#8, 0xEB#8] [] with masterClock := 3 }
    ∃ t : State, Host.Core.run core 3 s = .next t ∧ catchUp 3 s = .next t ∧ t.internalClock = 2 ∧
      t.fault.isSome = true := ⟨_, rfl, rfl, rfl, rfl⟩

/-! ## Witnesses: what meets the statements' hypotheses -/

/-- A runnable state under `TOP_CELL_POLICY = Fault`. -/
def noTop (pc : Word) (code : List Byte) : State :=
  { ready pc code [] with params := { Params.default with topCell := .fault } }

/-- A runnable state with a mapper whose register window is 0x0000 to 0x7FFF. -/
def windowed : State :=
  { ready 0x8000#16 [] [] with mapper := some ⟨.nrom, [], [], ⟨0x8000#16, 0x0000#16, 0x7FFF#16⟩⟩ }

theorem ready_noWindow (pc : Word) (code : List Byte) (cells : List Host.Cell) : (ready pc code cells).noWindow := by
  intro mp h
  cases h
  exact ⟨rfl, rfl⟩

theorem ready_runnable (pc : Word) (code : List Byte) (cells : List Host.Cell) : (ready pc code cells).runnable :=
  ⟨rfl, rfl, rfl⟩

theorem witness_DecodeOfEncode :
    (Instr.lda (.absx 0xFFFF#16)).wf = true ∧ (Instr.nop 0xFC#8 (some (.absx 0x0000#16))).wf = true ∧
    (Instr.asl .acc).wf = true ∧ (Instr.jam 0xF2#8).wf = true ∧ (Instr.unknown 0x0B#8).wf = true := by decide

theorem witness_EncodeOfDecode : decode [0x6C#8, 0xFF#8, 0x30#8, 0x99#8] = .ok (.jmp (.ind 0x30FF#16), [0x99#8]) := rfl

theorem witness_OpcodeFixesLength :
    decode [0xAD#8, 0xFF#8, 0xFF#8] = .ok (.lda (.abs 0xFFFF#16), []) ∧
    decode [0xAD#8, 0x00#8, 0x00#8, 0x01#8] = .ok (.lda (.abs 0x0000#16), [0x01#8]) := ⟨rfl, rfl⟩

theorem witness_RamMirrorsShareCell :
    (0 < 0x0800 ∧ 0x07FF < 0x0800 ∧ 3 < 4) ∧
    (ready 0x8000#16 [] []).windowMapper (BitVec.ofNat 16 0) = none ∧
    (ready 0x8000#16 [] []).windowMapper (BitVec.ofNat 16 0x07FF) = none := by decide

theorem witness_StubWindowsReadZeroDiscardWrites :
    (∃ n, n = 0x2000 ∧ (0x2000 ≤ n ∧ n ≤ 0x3FFF)) ∧ (∃ n, n = 0x3FFF ∧ (0x2000 ≤ n ∧ n ≤ 0x3FFF)) ∧
    (∃ n, n = 0x4000 ∧ (0x4000 ≤ n ∧ n ≤ 0x401F)) ∧ (∃ n, n = 0x401F ∧ (0x4000 ≤ n ∧ n ≤ 0x401F)) :=
  ⟨⟨_, rfl, by decide⟩, ⟨_, rfl, by decide⟩, ⟨_, rfl, by decide⟩, ⟨_, rfl, by decide⟩⟩

theorem witness_ReadAfterWrite :
    (0x1FFF < 0x2000 ∧ 0x4000 ≤ (0x4000#16).toNat ∧ 0x4000 ≤ (0xFFFF#16).toNat) ∧
    (isStub (mirror 0xFFFF#16) = false ∧ ¬ ((ready 0x8000#16 [] []).params.topCell = .fault ∧ 0xFFFF#16 = 0xFFFF#16) ∧
      isStub (mirror 0x4020#16) = false ∧ ¬ ((noTop 0x8000#16 []).params.topCell = .fault ∧ 0x4020#16 = 0xFFFF#16)) ∧
    isStub (mirror 0x1FFF#16) = false ∧ (ready 0x8000#16 [] []).windowMapper (mirror 0x1FFF#16) = none ∧
    (∃ t, busWrite 0x1FFF#16 0x42#8 (ready 0x8000#16 [] []) = .ok () t) ∧
    mirror 0x07FF#16 = mirror 0x1FFF#16 ∧ mirror 0x4020#16 ≠ mirror 0x1FFF#16 :=
  ⟨by decide, by decide, by decide, by decide, ⟨_, rfl⟩, by decide, by decide⟩

theorem witness_WindowDelegatesToMapper :
    (∃ mp, windowed.mapper = some mp ∧ covers mp.desc (mirror 0x0000#16) = true ∧
      covers mp.desc (mirror 0x7FFF#16) = true ∧ covers mp.desc (mirror 0x8000#16) = false) ∧
    isStub (mirror 0x0000#16) = false ∧ isStub (mirror 0x7FFF#16) = false ∧
    (∃ t, busWrite 0x8000#16 0x42#8 windowed = .ok () t) ∧
    (∀ mp ∈ (ready 0x8000#16 [] []).mapper, covers mp.desc (mirror 0x0000#16) = false) ∧
    ∃ t, busWrite 0x0000#16 0x42#8 (ready 0x8000#16 [] []) = .ok () t := by
  refine ⟨⟨_, rfl, by decide⟩, by decide, by decide, ⟨_, rfl⟩, fun mp h => ?_, ⟨_, rfl⟩⟩
  cases h
  decide

theorem witness_TopCellPolicy :
    writable (noTop 0x8000#16 []) 0xFFFE#16 ∧ ¬ writable (noTop 0x8000#16 []) 0xFFFF#16 ∧
    writable (ready 0x8000#16 [] []) 0xFFFF#16 ∧ (noTop 0x8000#16 []).peek 0xFFFF#16 = none := by
  unfold writable
  decide

theorem witness_WordsAreLittleEndian :
    (ready 0x8000#16 [] [(0xFFFF, 0x34#8), (0x0000, 0x12#8)]).peek 0xFFFF#16 = some 0x34#8 ∧
    (ready 0x8000#16 [] [(0xFFFF, 0x34#8), (0x0000, 0x12#8)]).peek (BitVec.ofNat 16 ((0xFFFF#16).toNat + 1)) = some 0x12#8 ∧
    (ready 0x8000#16 [] []).noWindow ∧ (ready 0x8000#16 [] []).params.topCell = .cell ∧
    isStub (mirror 0x07FF#16) = false ∧ isStub (mirror (0x07FF#16 + 1)) = false :=
  ⟨by decide, by decide, ready_noWindow _ _ _, rfl, by decide, by decide⟩

theorem witness_PushThenPull : State.noWindow { ready 0x8000#16 [] [] with sp := 0x00#8 } := ready_noWindow 0x8000#16 [] []

theorem witness_PointerModes :
    let s := ready 0x8000#16 [] [(0x00FF, 0x34#8), (0x0100, 0x12#8), (0x02FF, 0x34#8), (0x0200, 0x12#8)]
    let w := { s with params := { Params.default with zpPtrWrap := true }, mem := s.mem.write 0x0000 0x12#8 }
    s.peek (BitVec.ofNat 16 255) = some 0x34#8 ∧ s.peek (BitVec.ofNat 16 (255 + 1)) = some 0x12#8 ∧
    w.peek (BitVec.ofNat 16 255) = some 0x34#8 ∧ w.peek (BitVec.ofNat 16 ((255 + 1) % 256)) = some 0x12#8 ∧
    s.peek 0x02FF#16 = some 0x34#8 ∧ s.peek (BitVec.ofNat 16 (0x02FF - 255)) = some 0x12#8 ∧
    (noTop 0x8000#16 []).params.topCell = .fault ∧ (Operand.indy 0xFF#8).mode ≠ .ind := by decide

theorem witness_EveryOperandReadableUnderCell :
    State.reset.params.topCell = .cell ∧ (Operand.ind 0xFFFF#16).mode ≠ .imm := by decide

/-- A reading instruction's absolute form at 0xFFFF: readable under `Cell`, and not under `Fault`. -/
def readsTop (f : Operand → Instr) (op : Byte) : Bool :=
  decide ((f (.abs 0xFFFF#16)).opcode = some op ∧ (ready 0x8000#16 [] []).operand (.abs 0xFFFF#16) = some 0x00#8 ∧
    (noTop 0x8000#16 []).operand (.abs 0xFFFF#16) = none)

theorem witness_LoadsComplete :
    (readsTop .lda 0xAD#8 && readsTop .ldx 0xAE#8 && readsTop .ldy 0xAC#8 && readsTop .lax 0xAF#8) = true := by decide

theorem witness_AddWithCarryCompletes : readsTop .adc 0x6D#8 = true := by decide

theorem witness_SubtractWithCarryCompletes : readsTop .sbc 0xED#8 = true := by decide

theorem witness_LogicCompletes : (readsTop .and 0x2D#8 && readsTop .ora 0x0D#8 && readsTop .eor 0x4D#8) = true := by decide

theorem witness_ComparesComplete : (readsTop .cmp 0xCD#8 && readsTop .cpx 0xEC#8 && readsTop .cpy 0xCC#8) = true := by decide

theorem witness_BitTestCompletes : readsTop .bit 0x2C#8 = true := by decide

/-- For every storing instruction: a writable address, and a top cell that is not. -/
theorem witness_StoresComplete :
    (ready 0x8000#16 [] []).ea (.absx 0xFFFF#16) = some 0xFFFF#16 ∧ writable (ready 0x8000#16 [] []) 0xFFFF#16 ∧
    (noTop 0x8000#16 []).ea (.abs 0xFFFF#16) = some 0xFFFF#16 ∧ ¬ writable (noTop 0x8000#16 []) 0xFFFF#16 := by
  unfold writable
  decide

/-- A read-modify-write instruction's absolute form: at a stub and at 0xFFFF it has an address and a byte under `Cell`,
and at 0xFFFF no byte under `Fault`. -/
def modifiesTop (f : Operand → Instr) (op : Byte) : Bool :=
  decide ((f (.abs 0xFFFF#16)).opcode = some op ∧ (ready 0x8000#16 [] []).ea (.abs 0xFFFF#16) = some 0xFFFF#16 ∧
    (ready 0x8000#16 [] []).peek 0xFFFF#16 = some 0x00#8 ∧ (ready 0x8000#16 [] []).peek 0x2000#16 = some 0x00#8 ∧
    ((noTop 0x8000#16 []).ea (.abs 0xFFFF#16)).bind (noTop 0x8000#16 []).peek = none)

theorem witness_MemoryStepsComplete : (modifiesTop .inc 0xEE#8 && modifiesTop .dec 0xCE#8) = true := by decide

theorem witness_ShiftsComplete :
    (modifiesTop (fun o => .asl (.mem o)) 0x0E#8 && modifiesTop (fun o => .lsr (.mem o)) 0x4E#8 &&
      modifiesTop (fun o => .rol (.mem o)) 0x2E#8 && modifiesTop (fun o => .ror (.mem o)) 0x6E#8) = true ∧
    (Instr.ror .acc, 0x6A#8, rotatedRight State.reset.a (State.reset.flag .c), rightCarry State.reset.a) ∈
      [(Instr.asl .acc, 0x0A#8, shiftedLeft State.reset.a, leftCarry State.reset.a),
       (Instr.lsr .acc, 0x4A#8, shiftedRight State.reset.a, rightCarry State.reset.a),
       (Instr.rol .acc, 0x2A#8, rotatedLeft State.reset.a (State.reset.flag .c), leftCarry State.reset.a),
       (Instr.ror .acc, 0x6A#8, rotatedRight State.reset.a (State.reset.flag .c), rightCarry State.reset.a)] := by decide

theorem witness_ShiftThenLogicComplete :
    (modifiesTop .slo 0x0F#8 && modifiesTop .rla 0x2F#8 && modifiesTop .sre 0x4F#8) = true := by decide

theorem witness_ModifyThenArithmeticComplete :
    (modifiesTop .rra 0x6F#8 && modifiesTop .isc 0xEF#8 && modifiesTop .dcp 0xCF#8) = true := by decide

theorem witness_OverflowIsSigned :
    let s := { ready 0x8000#16 [] [(0x0010, 0x01#8)] with a := 0x7F#8 }
    let u := { ready 0x8000#16 [] [(0x0010, 0x01#8)] with a := 0x80#8 }
    (s.operand (.imm 0x01#8) = some 0x01#8 ∧ s.operand (.zp 0x10#8) = some 0x01#8 ∧ u.operand (.zp 0x10#8) = some 0x01#8) ∧
    (∃ t, exec (.adc (.imm 0x01#8)) s = .next t) ∧ (∃ t, exec (.adc (.zp 0x10#8)) s = .next t) ∧
    ∃ t, exec (.sbc (.zp 0x10#8)) u = .next t := ⟨by decide, ⟨_, rfl⟩, ⟨_, rfl⟩, ⟨_, rfl⟩⟩

theorem witness_SubtractUndoesAdd :
    let s := { ready 0x8000#16 [] [(0x0010, 0x5A#8)] with a := 0x37#8 }
    ∃ t u v, s.operand (.zp 0x10#8) = some 0x5A#8 ∧ State.operand u (.imm 0x5A#8) = some 0x5A#8 ∧
      exec (.adc (.zp 0x10#8)) s = .next t ∧ u.a = t.a ∧ u.flag .c = !s.flag .c ∧
      exec (.sbc (.imm 0x5A#8)) u = .next v :=
  ⟨_, { ready 0x8000#16 [] [] with a := 0x91#8, p := 0x35#8 }, _, by decide, rfl, rfl, by decide, by decide, rfl⟩

theorem witness_BranchesComplete :
    let s := State.reset
    let d := 0x80#8
    (Instr.beq d, 0xF0#8, s.flag .z) ∈
      [(Instr.bpl d, 0x10#8, !s.flag .n), (Instr.bmi d, 0x30#8, s.flag .n), (Instr.bvc d, 0x50#8, !s.flag .v),
       (Instr.bvs d, 0x70#8, s.flag .v), (Instr.bcc d, 0x90#8, !s.flag .c), (Instr.bcs d, 0xB0#8, s.flag .c),
       (Instr.bne d, 0xD0#8, !s.flag .z), (Instr.beq d, 0xF0#8, s.flag .z)] := by decide

theorem witness_JumpCompletes :
    [(Mode.abs, 0x4C#8), (.ind, 0x6C#8)].lookup (Operand.ind 0xFFFF#16).mode = some 0x6C#8 ∧
    (ready 0x8000#16 [] [(0xFFFF, 0x34#8), (0xFF00, 0x12#8)]).ea (.ind 0xFFFF#16) = some 0x1234#16 ∧
    (noTop 0x8000#16 []).ea (.ind 0xFFFE#16) = none := by decide

theorem witness_ReturnAfterCall :
    (ready 0x8000#16 [] []).noWindow ∧
    ∃ t u, exec (.jsr 0x0300#16) { ready 0x8000#16 [] [] with sp := 0x01#8 } = .next t ∧ exec .rts t = .next u :=
  ⟨ready_noWindow _ _ _, _, _, rfl, rfl⟩

theorem witness_FlagInstructionsComplete :
    (Instr.clv, 0xB8#8, Flag.v, false) ∈
      [(Instr.clc, 0x18#8, Flag.c, false), (Instr.sec, 0x38#8, Flag.c, true), (Instr.cli, 0x58#8, Flag.i, false),
       (Instr.sei, 0x78#8, Flag.i, true), (Instr.cld, 0xD8#8, Flag.d, false), (Instr.sed, 0xF8#8, Flag.d, true),
       (Instr.clv, 0xB8#8, Flag.v, false)] := by decide

theorem witness_NoOpsComplete :
    0xFA#8 ∈ [0xEA#8, 0x1A#8, 0x3A#8, 0x5A#8, 0x7A#8, 0xDA#8, 0xFA#8] ∧
    ((Operand.absx 0xFFFF#16).mode, 0xFC#8) ∈
      [(Mode.imm, 0x80#8), (.imm, 0x82#8), (.imm, 0x89#8), (.imm, 0xC2#8), (.imm, 0xE2#8), (.zp, 0x04#8), (.zp, 0x44#8),
       (.zp, 0x64#8), (.zpx, 0x14#8), (.zpx, 0x34#8), (.zpx, 0x54#8), (.zpx, 0x74#8), (.zpx, 0xD4#8), (.zpx, 0xF4#8),
       (.abs, 0x0C#8), (.absx, 0x1C#8), (.absx, 0x3C#8), (.absx, 0x5C#8), (.absx, 0x7C#8), (.absx, 0xDC#8),
       (.absx, 0xFC#8)] ∧
    (ready 0x8000#16 [] []).operand (.absx 0xFFFF#16) = some 0x00#8 ∧
    (noTop 0x8000#16 []).operand (.absx 0xFFFF#16) = none := by decide

theorem witness_HaltClassHalts : 0xF2#8 ∈ twelveJam ∧ (ready 0x8000#16 [] []).runnable := ⟨by decide, ready_runnable _ _ _⟩

theorem witness_UnimplementedOpcodesAreFatal :
    0xBB#8 ∈ fourteenUnknown ∧ State.reset.params.brkRti = .fatal ∧ (ready 0x8000#16 [] []).mapper.isSome = true := by decide

/-- A state under `BRK_RTI_MODE = Standard`. -/
def standard (topCell : TopCellPolicy) : State :=
  { ready 0x8000#16 [] [] with params := { Params.default with brkRti := .standard, topCell := topCell } }

theorem witness_BreakStandardEntry :
    ((standard .cell).params.brkRti = .standard ∧ (standard .cell).params.topCell = .cell) ∧
    ((standard .fault).params.brkRti = .standard ∧ (standard .fault).params.topCell = .fault ∧
      (standard .fault).pc ≠ 0xFFFE#16) ∧
    State.pc { standard .fault with pc := 0xFFFE#16 } = 0xFFFE#16 := by decide

theorem witness_ReturnFromBreakStandard : (standard .fault).params.brkRti = .standard := rfl

theorem witness_StepRunsDecodedInstruction :
    (ready 0xFFFE#16 [0xBD#8, 0xF0#8] [(0x0000, 0xFF#8)]).runnable ∧ (Instr.lda (.absx 0xFFF0#16)).wf = true ∧
    ∀ k (h : k < (encode (.lda (.absx 0xFFF0#16))).length),
      (ready 0xFFFE#16 [0xBD#8, 0xF0#8] [(0x0000, 0xFF#8)]).peek (0xFFFE#16 + BitVec.ofNat 16 k) =
        some ((encode (.lda (.absx 0xFFF0#16)))[k]'h) := by
  refine ⟨ready_runnable _ _ _, rfl, fun k h => ?_⟩
  match k, h with
  | 0, _ => rfl
  | 1, _ => rfl
  | 2, _ => rfl

theorem witness_NoStepWhenStopped :
    State.reset.mapper = none ∧
    (State.fault { ready 0x8000#16 [] [] with fault := some ⟨.topCellAccess, 0xEA#8, 0x8000#16⟩ } =
      some ⟨.topCellAccess, 0xEA#8, 0x8000#16⟩) ∧
    (State.halted { ready 0x8000#16 [] [] with halted := true } = true ∧ (ready 0x8000#16 [] []).fault = none) := by decide

theorem witness_RunnableStateSteps : (ready 0x8000#16 [] []).runnable := ready_runnable _ _ _

/-- A step that completes and one that does not. -/
theorem witness_StepCountsCompleted :
    stepsTo (ready 0x8000#16 [0xEA#8] []) (fun t => t.fault.isNone) = true ∧
    stepsTo (ready 0x8000#16 [0xEB#8] []) (fun t => t.fault.isSome) = true := by decide

/-- A step that halts and one that does not. -/
theorem witness_OnlyHaltClassHalts :
    stepsTo (ready 0x8000#16 [0xB2#8] []) (fun t => t.halted) = true ∧
    stepsTo (ready 0x8000#16 [0xEA#8] []) (fun t => !t.halted) = true := by decide

/-- Both kinds of fatal condition arise. -/
theorem witness_FatalConditionCauses :
    stepsTo (ready 0x8000#16 [0x00#8] []) (fun t => t.fault.map (·.kind) == some .unimplementedOpcode) = true ∧
    stepsTo (noTop 0x8000#16 [0x4C#8, 0xFF#8, 0xFF#8]) (fun t => t.fault.isNone) = true ∧
    stepsTo (noTop 0x8000#16 [0xAD#8, 0xFF#8, 0xFF#8]) (fun t => t.fault.map (·.kind) == some .topCellAccess) = true := by
  decide

/-- Each clause at its own PC, for an immediate, a relative, a zero-page and an absolute operand. -/
theorem witness_FetchMeetsTopCell :
    ((noTop 0xFFFF#16 []).runnable ∧ (noTop 0xFFFF#16 []).params.topCell = .fault) ∧
    [0xA9#8, 0xD0#8, 0xA5#8, 0xAD#8].all (fun op =>
      decide ((noTop 0xFFFE#16 [op]).peek 0xFFFE#16 = some op ∧ (opcodeEntry op).mode.operandBytes ≠ 0)) = true ∧
    (noTop 0xFFFD#16 [0xAD#8]).peek 0xFFFD#16 = some 0xAD#8 ∧ (opcodeEntry 0xAD#8).mode.operandBytes = 2 := by decide

theorem witness_StepKeepsStorageCanonical :
    (ready 0x8000#16 [0x85#8, 0x10#8] []).mem.wf = true ∧
    stepsTo (ready 0x8000#16 [0x85#8, 0x10#8] []) (fun _ => true) = true := by decide

theorem witness_StepKeepsForcedBits :
    (ready 0x8000#16 [0x28#8] []).forcedBits ∧ stepsTo (ready 0x8000#16 [0x28#8] []) (fun _ => true) = true := by decide

theorem witness_StepKeepsWindowlessMapper :
    (ready 0x8000#16 [0x85#8, 0x10#8] []).noWindow ∧
    stepsTo (ready 0x8000#16 [0x85#8, 0x10#8] []) (fun _ => true) = true := ⟨ready_noWindow _ _ _, by decide⟩

theorem witness_StepKeepsClocksInWidth :
    State.clocksFit { ready 0x8000#16 [0xEA#8] [] with
      params := { Params.default with clockBits := some 8 }, internalClock := 255 } ∧
    stepsTo { ready 0x8000#16 [0xEA#8] [] with
      params := { Params.default with clockBits := some 8 }, internalClock := 255 } (fun _ => true) = true := by decide

theorem witness_PowerOnMeetsInvariants : Memory.wf [(0x0000, 0x01#8), (0xFFFF, 0xFF#8)] = true := by decide

theorem witness_DecimalFlagHasNoEffect :
    Instr.adc (.imm 0x01#8) ∉ [Instr.sed, .cld, .php, .plp, .brk, .rti] ∧
    ∃ t, exec (.adc (.imm 0x01#8)) { ready 0x8000#16 [] [] with a := 0x09#8, p := 0x3C#8 } = .next t :=
  ⟨by decide, _, rfl⟩

theorem witness_LoadRomProjects :
    (Cartridge.mapperId ⟨[], [], 0x01#8⟩ ≠ 0x00#8) ∧
    ((Cartridge.prg ⟨[], [], 0x00#8⟩).length ≠ 16384 ∧ (Cartridge.prg ⟨[], [], 0x00#8⟩).length ≠ 32768) ∧
    (Cartridge.prg ⟨List.replicate 16384 0xEA#8, [], 0x00#8⟩).length = 16384 ∧
    (Cartridge.prg ⟨List.replicate 32768 0xEA#8, [], 0x00#8⟩).length = 32768 :=
  ⟨by decide, by decide, List.length_replicate, List.length_replicate⟩

theorem witness_BudgetIsExact :
    (ready 0x8000#16 [0xEA#8] []).mapper.isSome = true ∧ (ready 0x8000#16 [0xEA#8] []).params.clockBits = none ∧
    (ready 0x8000#16 [0xEA#8] []).internalClock ≤ (ready 0x8000#16 [0xEA#8] []).masterClock := by decide

/-- Each operation from a state that meets every invariant. -/
theorem witness_HostOperationsKeepInvariants :
    let s := ready 0x8000#16 [0xEA#8] []
    s.mem.wf = true ∧ s.forcedBits ∧ s.noWindow ∧ s.clocksFit ∧
    (∃ t, (Block.powered s).apply .powerOn = .ok (.powered t)) ∧
    (∃ t, (Block.powered s).apply (.step 1) = .ok (.powered t)) :=
  ⟨by decide, by decide, ready_noWindow _ _ _, by decide, ⟨_, rfl⟩, ⟨_, rfl⟩⟩

theorem witness_BootOrder : State.reset.mapper = none := rfl

end Sys2Proof.Tests
end

section
/-! PROOFS. What every step keeps of the state (10_state.md R30, R31, R35, R36, R41, R42), and when it counts an
instruction (30_encoding.md R90). -/

namespace Sys2Proof.Machine

/-- How every step ends, told by what it counts and records: the instruction's own effect leads to a state `u` with
everything that effects keep, and then the instruction is counted (a halt-class one having set `halted`) or a fatal
condition is recorded (a failed opcode fetch having drawn a free value). -/
theorem step_retires_or_raises {s t : State} (h : step s = .next t) :
    ∃ u, s.Kept u ∧
      ((∃ halted, t = State.retire { u with halted := halted }) ∨
        ∃ draws kind op, t = State.raiseFatal { u with freeDraws := draws } kind op s.pc) := by
  cases step_next h with
  | fetchFault op u hu _ _ ht =>
    refine ⟨{ s with pc := u.pc }, .of_registers rfl id, .inr ⟨u.freeDraws, .topCellAccess, op, ?_⟩⟩
    rw [ht, hu]
  | done _ u _ _ hk ht => exact ⟨u, hk, .inl ⟨u.halted, ht⟩⟩
  | jam op _ _ ht => exact ⟨s.past (.jam op), s.past_kept _, .inl ⟨true, ht⟩⟩
  | topCell op u _ _ hk _ ht => exact ⟨u, hk, .inr ⟨u.freeDraws, .topCellAccess, op, ht⟩⟩
  | absent op i _ _ _ ht => exact ⟨s.past i, s.past_kept i, .inr ⟨s.freeDraws, .unimplementedOpcode, op, ht⟩⟩

/-- What `CLOCK_BITS` bits hold of a count fits in them (10_state.md R35). -/
theorem clockFits_clockValue (params : Params) (n : Nat) : clockFits params (clockValue params n) := by
  intro bits hb
  rw [Option.mem_def] at hb
  simp only [clockValue, hb]
  exact Nat.mod_lt n (Nat.two_pow_pos bits)

/-- Settles O50: the state that a step ends from has a canonical storage array, and neither the count nor the record
touches it. -/
theorem stepKeepsStorageCanonical : Obligations.StepKeepsStorageCanonical := by
  intro s t hs h
  obtain ⟨u, hk, ⟨_, rfl⟩ | ⟨_, _, _, rfl⟩⟩ := step_retires_or_raises h
  · exact hk.mem hs
  · exact hk.mem hs

/-- Settles O51: the state that a step ends from keeps bits B and U, and neither the count nor the record touches the
status. -/
theorem stepKeepsForcedBits : Obligations.StepKeepsForcedBits := by
  intro s t hs h
  obtain ⟨u, hk, ⟨_, rfl⟩ | ⟨_, _, _, rfl⟩⟩ := step_retires_or_raises h
  · exact hk.forced hs
  · exact hk.forced hs

/-- Settles O53: a step leaves both clocks alone, except that counting an instruction sets one of them to a value that
`CLOCK_BITS` bits hold. -/
theorem stepKeepsClocksInWidth : Obligations.StepKeepsClocksInWidth := by
  intro s t hs h
  obtain ⟨u, hk, ht⟩ := step_retires_or_raises h
  have hu : u.clocksFit := by
    rw [State.clocksFit, hk.params, hk.internalClock, hk.masterClock]
    exact hs
  obtain ⟨_, rfl⟩ | ⟨_, _, _, rfl⟩ := ht
  · exact ⟨clockFits_clockValue _ _, hu.2⟩
  · exact hu

/-- Settles O46: a step from a runnable state that records no fatal condition ends by counting, and one that records a
fatal condition leaves the count alone. -/
theorem stepCountsCompleted : Obligations.StepCountsCompleted := by
  rintro s t ⟨-, hfault, -⟩ h
  obtain ⟨u, hk, ⟨_, rfl⟩ | ⟨_, _, _, rfl⟩⟩ := step_retires_or_raises h
  · refine ⟨fun _ => ?_, fun hne => absurd (hk.fault.trans hfault) hne⟩
    simp only [State.retire_internalClock, hk.params, hk.internalClock]
    cases hb : s.params.clockBits <;> simp [clockValue, hb]
  · exact ⟨nofun, fun _ => hk.internalClock⟩

end Sys2Proof.Machine
end

section
/-! PROOFS. The rules of the bus: when an address is a stub, when a register window covers it, what a read gives,
what a store leaves (20_memory.md R46 to R53, R79), and what loading a program leaves (R69). -/

namespace Sys2Proof.Machine

open Sys2Proof.Claims

/-! ## Addresses -/

/-- The addresses that reach a stub window (20_memory.md R46, R50). -/
theorem isStub_mirror_iff (a : Word) :
    isStub (mirror a) = true ↔
      (0x2000 ≤ a.toNat ∧ a.toNat ≤ 0x3FFF) ∨ (0x4000 ≤ a.toNat ∧ a.toNat ≤ 0x401F) := by
  rw [isStub_iff, mirror_toNat]
  split_ifs <;> omega

/-- The four mirrors of a RAM address reach the cell of that number (20_memory.md R47). -/
theorem mirror_ram {n j : Nat} (hn : n < 0x0800) (hj : j < 4) :
    mirror (BitVec.ofNat 16 (n + 0x0800 * j)) = BitVec.ofNat 16 n := by
  apply BitVec.eq_of_toNat_eq
  have hlow : (BitVec.ofNat 16 (n + 0x0800 * j)).toNat < 0x2000 := by rw [BitVec.toNat_ofNat]; omega
  rw [mirror_toNat, if_pos hlow, BitVec.toNat_ofNat, BitVec.toNat_ofNat]
  omega

/-- Neighbouring addresses, 0xFFFF and 0x0000 among them, never reach the same cell. -/
theorem mirror_add_one_ne (a : Word) : mirror (a + 1) ≠ mirror a := by
  intro h
  have h := congrArg BitVec.toNat h
  have hlt := a.isLt
  have hnext : (a + 1).toNat = (a.toNat + 1) % 65536 := BitVec.toNat_add a 1
  simp only [mirror_toNat, hnext] at h
  split_ifs at h <;> omega

/-- No cell of the RAM is a stub (20_memory.md R50). -/
theorem isStub_of_lt {m : Word} (h : m.toNat < 0x2000) : isStub m = false := by
  rw [Bool.eq_false_iff, ne_eq, isStub_iff]
  omega

theorem State.topCellFaults_of_lt (s : State) {m : Word} (h : m.toNat < 0xFFFF) : s.topCellFaults m = false := by
  have htop : m ≠ 0xFFFF#16 := by
    rintro rfl
    exact absurd h (by decide)
  simp [State.topCellFaults, htop]

theorem State.topCellFaults_mirror (s : State) (a : Word) :
    s.topCellFaults (mirror a) = true ↔ s.params.topCell = .fault ∧ a = 0xFFFF#16 := by
  simp [State.topCellFaults, mirror_eq_top, and_comm]

/-! ## The register window -/

/-- 20_memory.md R53 as numbers. -/
theorem covers_iff (desc : MapperDesc) (m : Word) :
    covers desc m = true ↔
      ¬ (desc.registersStart.toNat = 0 ∧ desc.registersEnd.toNat = 0) ∧
        desc.registersStart.toNat ≤ m.toNat ∧ m.toNat ≤ desc.registersEnd.toNat := by
  simp [covers, BitVec.le_def, ← BitVec.toNat_inj, imp_iff_not_or]

theorem State.windowMapper_eq_none {s : State} {m : Word} :
    s.windowMapper m = none ↔ ∀ mp ∈ s.mapper, covers mp.desc m = false := by
  simp [Option.eq_none_iff_forall_not_mem, State.windowMapper_eq_some]

/-- A window declared empty covers nothing (20_memory.md R53). -/
theorem covers_of_noWindow {s : State} (h : s.noWindow) : ∀ mp ∈ s.mapper, ∀ m, covers mp.desc m = false := by
  intro mp hmp m
  obtain ⟨hstart, hend⟩ := h mp hmp
  simp [covers, hstart, hend]

theorem State.windowMapper_of_noWindow {s : State} (h : s.noWindow) (m : Word) : s.windowMapper m = none :=
  State.windowMapper_eq_none.2 fun mp hmp => covers_of_noWindow h mp hmp m

theorem noWindow_of_mapper_eq {s t : State} (h : t.mapper = s.mapper) (hw : s.noWindow) : t.noWindow := by
  rw [State.noWindow, h]
  exact hw

/-! ## Reads -/

theorem State.peek_stub {s : State} {a : Word} (h : isStub (mirror a) = true) : s.peek a = some 0x00#8 := by
  simp [State.peek, h]

theorem State.peek_cell {s : State} {a : Word} (hs : isStub (mirror a) = false)
    (ht : s.topCellFaults (mirror a) = false) : s.peek a = some (s.mem.read (mirror a).toNat) := by
  simp [State.peek, hs, ht]

/-- A read fails at the missing top cell, and nowhere else (20_memory.md R79). -/
theorem State.peek_eq_none_iff (s : State) (a : Word) :
    s.peek a = none ↔ s.params.topCell = .fault ∧ a = 0xFFFF#16 := by
  rw [← State.topCellFaults_mirror]
  by_cases hs : isStub (mirror a) = true
  · have htop : a ≠ 0xFFFF#16 := by rintro rfl; exact absurd hs (by decide)
    simp [State.peek_stub hs, State.topCellFaults_mirror, htop]
  · simp [State.peek, hs]

/-- What a write of the cell that `a` reaches does to every read of the bus. -/
theorem State.peek_write {s : State} {a : Word} (hs : isStub (mirror a) = false)
    (ht : s.topCellFaults (mirror a) = false) (v : Byte) (b : Word) :
    State.peek { s with mem := s.mem.write (mirror a).toNat v } b =
      if mirror b = mirror a then some v else s.peek b := by
  split
  · rename_i h
    rw [State.peek_cell (h ▸ hs) (h ▸ ht), h, Memory.read_write_same]
  · rename_i h
    have hne : (mirror a).toNat ≠ (mirror b).toNat := fun e => h (BitVec.eq_of_toNat_eq e.symm)
    simp [State.peek, State.topCellFaults, Memory.read_write_other s.mem v hne]

/-- A word read is its two bytes (20_memory.md R54). -/
theorem State.peekWord_eq {s : State} {a : Word} {lo hi : Byte} (hlo : s.peek a = some lo)
    (hhi : s.peek (a + 1) = some hi) : s.peekWord a = some (word hi lo) := by
  rw [State.peekWord, hlo, Option.bind_some, hhi, Option.map_some]

/-! ## Stores -/

theorem busWrite_stub {a : Word} (v : Byte) (s : State) (h : isStub (mirror a) = true) :
    busWrite a v s = .ok () s := by
  simp [busWrite, h]

theorem busWrite_window {s : State} {a : Word} {mp : Mapper} (v : Byte) (hs : isStub (mirror a) = false)
    (hw : s.windowMapper (mirror a) = some mp) :
    busWrite a v s = .ok () { s with mapper := some (Config.mapperWrite mp (mirror a) v) } := by
  simp [busWrite, hs, hw]

theorem busWrite_cell {s : State} {a : Word} (v : Byte) (hs : isStub (mirror a) = false)
    (hw : s.windowMapper (mirror a) = none) (ht : s.topCellFaults (mirror a) = false) :
    busWrite a v s = .ok () { s with mem := s.mem.write (mirror a).toNat v } := by
  simp [busWrite, hs, hw, ht]

theorem busWrite_topCell {s : State} {a : Word} (v : Byte) (hs : isStub (mirror a) = false)
    (hw : s.windowMapper (mirror a) = none) (ht : s.topCellFaults (mirror a) = true) :
    busWrite a v s = .fatal .topCellAccess s := by
  simp [busWrite, hs, hw, ht]

/-- A successful store that no stub and no mapper takes has written its cell, which is not the missing top cell. -/
theorem busWrite_cell_of_ok {s t : State} {a : Word} {v : Byte} (hs : isStub (mirror a) = false)
    (hw : s.windowMapper (mirror a) = none) (h : busWrite a v s = .ok () t) :
    s.topCellFaults (mirror a) = false ∧ t = { s with mem := s.mem.write (mirror a).toNat v } := by
  cases ht : s.topCellFaults (mirror a) with
  | true => rw [busWrite_topCell v hs hw ht] at h; cases h
  | false => rw [busWrite_cell v hs hw ht] at h; cases h; exact ⟨rfl, rfl⟩

/-- A store to plain storage succeeds, and a read of the bus then gives the byte at every address of that cell and what
it gave before at every other. -/
theorem busWrite_plain {s : State} {a : Word} (v : Byte) (hs : isStub (mirror a) = false) (hw : s.noWindow)
    (hp : s.params.topCell = .cell) :
    ∃ t, busWrite a v s = .ok () t ∧ (t.mapper = s.mapper ∧ t.params = s.params) ∧
      ∀ b, t.peek b = if mirror b = mirror a then some v else s.peek b := by
  have ht : s.topCellFaults (mirror a) = false := by simp [State.topCellFaults, hp]
  exact ⟨_, busWrite_cell v hs (State.windowMapper_of_noWindow hw _) ht, ⟨rfl, rfl⟩, State.peek_write hs ht v⟩

theorem writable_iff {s : State} {a : Word} :
    writable s a ↔ ¬ (s.topCellFaults (mirror a) = true ∧ s.windowMapper (mirror a) = none) := by
  rw [writable, State.topCellFaults_mirror, and_assoc]
  refine not_congr (and_congr_right fun _ => and_congr_right fun ha => ?_)
  rw [(mirror_eq_top a).2 ha]

/-- A store that is allowed succeeds, does what a store does, and touches storage and mapper at most (20_memory.md R52,
R79). -/
theorem busWrite_of_writable {s : State} {a : Word} (v : Byte) (h : writable s a) :
    ∃ t, busWrite a v s = .ok () t ∧ t = { s with mem := t.mem, mapper := t.mapper } ∧ Stored s t a v := by
  rcases busWrite_cases a v s with ⟨hs, he⟩ | ⟨mp, hs, hw, he⟩ | ⟨_, hw, ht, _⟩ | ⟨hs, hw, _, he⟩
  · exact ⟨_, he, rfl, by simp [Stored, hs]⟩
  · exact ⟨_, he, rfl, by simp [Stored, hs, hw]⟩
  · exact absurd ⟨ht, hw⟩ (writable_iff.1 h)
  · exact ⟨_, he, rfl, by simp [Stored, hs, hw, Memory.read_write, eq_comm]⟩

/-- A store that is not allowed is `TopCellAccess` without effect (20_memory.md R79). -/
theorem busWrite_of_not_writable {s : State} {a : Word} (v : Byte) (h : ¬ writable s a) :
    busWrite a v s = .fatal .topCellAccess s := by
  obtain ⟨ht, hw⟩ := not_not.1 (mt writable_iff.2 h)
  obtain ⟨-, rfl⟩ := (s.topCellFaults_mirror a).1 ht
  exact busWrite_topCell v (by decide) hw ht

/-! ## The stack -/

/-- Every zero-page address is writable. -/
theorem writable_zext (s : State) (b : Byte) : writable s (zext b) := by
  simp [writable_iff, mirror_zext, topCellFaults_zext]

theorem stackCell_below (b : Byte) : stackCell (b.toNat + 255) = zext (b - 1) := by
  apply BitVec.eq_of_toNat_eq
  have hsub : (b - 1).toNat = (255 + b.toNat) % 256 := BitVec.toNat_sub b 1
  rw [zext_toNat, stackCell, BitVec.toNat_ofNat, hsub]
  omega

/-- Every push completes (20_memory.md R57). -/
theorem push_pushed (v : Byte) (s : State) : ∃ t, push v s = .ok () t ∧ Pushed s t v := by
  obtain ⟨t, he, ht, hst⟩ := busWrite_of_writable (s := { s with sp := s.sp - 1 }) v (writable_zext _ (s.sp - 1))
  refine ⟨t, he, ?_, ?_, ?_⟩
  · rw [ht]
  · rw [ht]
  · rw [stackCell_below]; exact hst

/-- A pull right after a push that no mapper took gives the byte back, and SP (20_memory.md R57, R58). -/
theorem pull_of_push {s t : State} {v : Byte} (hw : s.noWindow) (h : push v s = .ok () t) :
    pull t = .ok v { s with mem := t.mem } := by
  rw [push_eq v (State.windowMapper_of_noWindow hw _)] at h
  cases h
  simp [pull_eq]

/-! ## A loaded program -/

theorem nromProject_twice {prg : List Byte} (mem : Memory) (h : prg.length = 16384) :
    nromProject prg mem = (mem.writeBytes 0x8000 prg).writeBytes 0xC000 prg := by
  simp [nromProject, h]

theorem nromProject_once {prg : List Byte} (mem : Memory) (h : prg.length ≠ 16384) :
    nromProject prg mem = mem.writeBytes 0x8000 prg := by
  simp [nromProject, h]

/-- A program stands at 0x8000, whether or not it is projected twice (20_memory.md R69). -/
theorem nromProject_read_low {prg : List Byte} (mem : Memory) {k : Nat} (h : k < prg.length) :
    (nromProject prg mem).read (0x8000 + k) = prg[k] := by
  have hfirst : (mem.writeBytes 0x8000 prg).read (0x8000 + k) = prg[k] := by
    rw [Memory.read_writeBytes, dif_pos (by omega)]
    simp
  by_cases hl : prg.length = 16384
  · rw [nromProject_twice mem hl, Memory.read_writeBytes, dif_neg (by omega), hfirst]
  · rw [nromProject_once mem hl, hfirst]

/-- A program of 16 KiB stands again at 0xC000 (20_memory.md R69). -/
theorem nromProject_read_high {prg : List Byte} (mem : Memory) (hl : prg.length = 16384) {k : Nat}
    (h : k < prg.length) : (nromProject prg mem).read (0xC000 + k) = prg[k] := by
  rw [nromProject_twice mem hl, Memory.read_writeBytes, dif_pos (by omega)]
  simp

/-- The cells below the program are unchanged (20_memory.md R69). -/
theorem nromProject_read_below (prg : List Byte) (mem : Memory) {b : Nat} (h : b < 0x8000) :
    (nromProject prg mem).read b = mem.read b := by
  have hfirst : (mem.writeBytes 0x8000 prg).read b = mem.read b := by
    rw [Memory.read_writeBytes, dif_neg (by omega)]
  by_cases hl : prg.length = 16384
  · rw [nromProject_twice mem hl, Memory.read_writeBytes, dif_neg (by omega), hfirst]
  · rw [nromProject_once mem hl, hfirst]

/-- A load that is not refused (70_reset_and_hazards.md R242). -/
theorem State.loadCartridge_ok (s : State) {c : Cartridge} (hid : c.mapperId = 0x00#8)
    (hl : c.prg.length = 16384 ∨ c.prg.length = 32768) :
    s.loadCartridge c = .ok { s with
      mapper := some (nrom c.prg c.chr)
      mem := nromProject c.prg s.mem
      pc := nromDesc.resetVector
      halted := false } := by
  rw [State.loadCartridge, if_neg (not_not.2 hid), if_neg (by omega)]

end Sys2Proof.Machine
end

section
/-! PROOFS. The memory and the bus: mirrors, stub windows, the register window, the top cell, words, the stack, and the
projection of a program (20_memory.md). -/

namespace Sys2Proof.Machine

open Sys2Proof.Claims

/-- Settles O52: every effect keeps a mapper whose window covers nothing, and neither the count nor the record touches
it. -/
theorem stepKeepsWindowlessMapper : Obligations.StepKeepsWindowlessMapper := by
  intro s t hw h
  have hm : t.mapper = s.mapper := by
    obtain ⟨u, hk, ⟨_, rfl⟩ | ⟨_, _, _, rfl⟩⟩ := step_retires_or_raises h
    · exact hk.mapper (covers_of_noWindow hw)
    · exact hk.mapper (covers_of_noWindow hw)
  exact ⟨hm, noWindow_of_mapper_eq hm hw⟩

/-- Settles O5: the four mirrors are one mirrored address, so the store and the read meet in one cell. -/
theorem ramMirrorsShareCell : Obligations.RamMirrorsShareCell := by
  intro s n j k v hn hj hk hw
  have hcell : (BitVec.ofNat 16 n).toNat = n := by rw [BitVec.toNat_ofNat]; omega
  have hs : isStub (BitVec.ofNat 16 n) = false := isStub_of_lt (by omega)
  have ht : s.topCellFaults (BitVec.ofNat 16 n) = false := s.topCellFaults_of_lt (by omega)
  rw [← mirror_ram hn hj] at hw hs ht
  refine ⟨_, busWrite_cell v hs hw ht, ?_, ?_⟩
  · rw [State.peek_write hs ht, mirror_ram hn hk, mirror_ram hn hj, if_pos rfl]
  · rw [mirror_ram hn hj, hcell, Memory.read_write_same]

/-- Settles O6: a stub is a range of mirrored addresses, and so is what reaches one; there neither a read nor a write
looks at the cells. -/
theorem stubWindowsReadZeroDiscardWrites : Obligations.StubWindowsReadZeroDiscardWrites := by
  refine ⟨fun n hlo hhi => ?_, isStub_iff, fun s n v hn => ?_⟩
  · rw [mirror_toNat, BitVec.toNat_ofNat, if_neg (by omega), if_pos (by omega)]
    omega
  · have hs : isStub (mirror (BitVec.ofNat 16 n)) = true := by
      rw [isStub_mirror_iff, BitVec.toNat_ofNat]
      omega
    exact ⟨State.peek_stub hs, busWrite_stub v s hs⟩

/-- Settles O7: a read sees only the cell of its mirrored address, and a successful store wrote just that cell. -/
theorem readAfterWrite : Obligations.ReadAfterWrite := by
  refine ⟨fun n hn => ?_, fun a ha => ?_, fun s a hs htop => ?_, fun s t a b v hs hw h => ?_⟩
  · rw [mirror_toNat, BitVec.toNat_ofNat, if_pos (by omega)]
    omega
  · apply BitVec.eq_of_toNat_eq
    rw [mirror_toNat, if_neg (by omega), if_neg (by omega)]
  · exact State.peek_cell hs (Bool.eq_false_iff.2 (mt (s.topCellFaults_mirror a).1 htop))
  · obtain ⟨ht, rfl⟩ := busWrite_cell_of_ok hs hw h
    rw [State.peek_write hs ht]
    exact ⟨fun e => if_pos e, fun e => if_neg e⟩

/-- Settles O8: what is covered goes to the mapper, and what is not is discarded or written to its cell. -/
theorem windowDelegatesToMapper : Obligations.WindowDelegatesToMapper := by
  refine ⟨covers_iff, fun s mp a v hm hs hc => ?_, fun s a v t hw h => ?_⟩
  · exact busWrite_window v hs (State.windowMapper_eq_some.2 ⟨hm, hc⟩)
  · have hn := State.windowMapper_eq_none.2 hw
    cases hs : isStub (mirror a) with
    | true => rw [busWrite_stub v s hs] at h; cases h; rfl
    | false => rw [(busWrite_cell_of_ok hs hn h).2]

/-- Settles O9: only 0xFFFF reaches the missing top cell, and it is no stub. -/
theorem topCellPolicy : Obligations.TopCellPolicy := by
  intro s a v
  refine ⟨s.peek_eq_none_iff a, fun h => ?_, busWrite_of_not_writable v⟩
  obtain ⟨t, he, -⟩ := busWrite_of_writable v h
  exact ⟨t, he⟩

/-- Settles O10: the two bytes of a word lie in different cells, so the second store leaves the first byte alone. -/
theorem wordsAreLittleEndian : Obligations.WordsAreLittleEndian := by
  refine ⟨fun s a lo hi hlo hhi => ?_, fun s a v hw hp hs hs' => ?_⟩
  · have hnext : BitVec.ofNat 16 (a.toNat + 1) = a + 1 := by
      rw [BitVec.ofNat_add, BitVec.ofNat_toNat, BitVec.setWidth_eq]
      rfl
    rw [hnext] at hhi
    exact ⟨_, State.peekWord_eq hlo hhi, word_toNat hi lo⟩
  · obtain ⟨t, hlow, ⟨hmt, hpt⟩, hrt⟩ := busWrite_plain (lowByte v) hs hw hp
    obtain ⟨u, hhigh, -, hru⟩ := busWrite_plain (highByte v) hs' (noWindow_of_mapper_eq hmt hw) (hpt ▸ hp)
    have hwrite : busWriteWord a v s = .ok () u := by rw [busWriteWord, hlow, Access.ok_andThen, hhigh]
    have hlo : u.peek a = some (lowByte v) := by rw [hru, if_neg (mirror_add_one_ne a).symm, hrt, if_pos rfl]
    have hhi : u.peek (a + 1) = some (highByte v) := by rw [hru, if_pos rfl]
    refine ⟨u, hwrite, ?_, hlo, hhi⟩
    rw [State.peekWord_eq hlo hhi, word_highByte_lowByte]

/-- Settles O11: every zero-page store succeeds, and a pull reads the cell that the push wrote. -/
theorem pushThenPull : Obligations.PushThenPull := by
  intro s v
  obtain ⟨t, he, hp⟩ := push_pushed v s
  have htop : stackByte s 0 = s.mem.read s.sp.toNat := by
    rw [stackByte, Nat.add_zero, Nat.mod_eq_of_lt s.sp.isLt]
  exact ⟨htop ▸ pull_eq s, t, he, hp, fun hw => pull_of_push hw he⟩

/-- Settles O57: the second projection of a 16 KiB program begins where the first one ends, and neither reaches below
0x8000. -/
theorem loadRomProjects : Obligations.LoadRomProjects := by
  refine fun s c => ⟨fun hid => ?_, fun hid h16 h32 => ?_, fun hid hl => ?_⟩
  · simp [State.loadCartridge, hid]
  · simp [State.loadCartridge, hid, h16, h32]
  · exact ⟨_, _, s.loadCartridge_ok hid hl, rfl, rfl, fun k h => nromProject_read_low s.mem h,
      fun h16 k h => nromProject_read_high s.mem h16 h, fun b h => nromProject_read_below c.prg s.mem h⟩

end Sys2Proof.Machine
end

section
/-! PROOFS. How runs go on: every runnable state has a next state, no other state has one (30_encoding.md R94), and the
budget loop of `step(n)` counts one instruction a turn until the clocks meet (70_reset_and_hazards.md R246). -/

namespace Sys2Proof.Machine

open Sys2Proof.Claims

theorem noStep_runnable {s : State} (hs : s.runnable) : noStep s = none := noStep_of_runnable hs.1 hs.2.1 hs.2.2

theorem step_noMapper {s : State} (hm : s.mapper = none) : step s = .refused .noMapper := by
  simp [step, noStep, hm]

theorem step_faulted {s : State} {r : FatalRecord} (hm : s.mapper.isSome = true) (hf : s.fault = some r) :
    step s = .fault (.fatal r) := by
  obtain ⟨mp, hm⟩ := Option.isSome_iff_exists.1 hm
  simp [step, noStep, hm, hf]

theorem step_halted {s : State} (hm : s.mapper.isSome = true) (hf : s.fault = none) (hh : s.halted = true) :
    step s = .fault .halted := by
  obtain ⟨mp, hm⟩ := Option.isSome_iff_exists.1 hm
  simp [step, noStep, hm, hf, hh]

/-- Settles O44: the three reasons for no step, in the order in which `noStep` asks for them. -/
theorem noStepWhenStopped : Obligations.NoStepWhenStopped :=
  fun _ => ⟨step_noMapper, fun _ => step_faulted, step_halted⟩

/-- Settles O45: the inversion of a step names its next state, and neither the count nor the record touches the
parameters, the master clock or the mapper. -/
theorem runnableStateSteps : Obligations.RunnableStateSteps := by
  rintro s ⟨hm, hf, hh⟩
  obtain ⟨t, h, -⟩ := step_stepped hm hf hh
  refine ⟨t, h, ?_⟩
  obtain ⟨u, hk, ⟨_, rfl⟩ | ⟨_, _, _, rfl⟩⟩ := step_retires_or_raises h
  · exact ⟨hk.params, hk.masterClock, hk.installed hm⟩
  · exact ⟨hk.params, hk.masterClock, hk.installed hm⟩

/-! ## The budget loop -/

/-- When the budget loop goes on (70_reset_and_hazards.md R246). -/
theorem State.behind_iff (s : State) :
    s.behind = true ↔ s.fault = none ∧ s.halted = false ∧ s.internalClock < s.masterClock := by
  simp [State.behind, and_assoc]

/-- `t` is `k` steps from `s`, and is where a budget loop that starts in `s` ends (70_reset_and_hazards.md R246). -/
structure CaughtUp (s t : State) (k : Nat) : Prop where
  run : Host.Core.run core k s = .next t
  counted : t.internalClock + (if t.fault = s.fault then 0 else 1) = s.internalClock + k
  masterClock : t.masterClock = s.masterClock
  notBefore : s.internalClock ≤ t.internalClock
  notPast : t.internalClock ≤ t.masterClock
  finished : t.fault = none → t.halted = false → t.internalClock = t.masterClock

/-- A loop that is not behind has ended. -/
theorem CaughtUp.refl {s : State} (hb : s.behind = false) (hle : s.internalClock ≤ s.masterClock) :
    CaughtUp s s 0 where
  run := run_zero s
  counted := by simp
  masterClock := rfl
  notBefore := le_rfl
  notPast := hle
  finished hf hh := by
    have hnot : ¬ s.internalClock < s.masterClock := fun hlt =>
      Bool.eq_false_iff.1 hb (s.behind_iff.2 ⟨hf, hh, hlt⟩)
    omega

/-- A step that records a fatal condition ends the loop, uncounted. -/
theorem CaughtUp.of_fatal {s t : State} (h : step s = .next t) (hs : s.fault = none) (ht : t.fault ≠ none)
    (hc : t.internalClock = s.internalClock) (hm : t.masterClock = s.masterClock)
    (hle : s.internalClock ≤ s.masterClock) : CaughtUp s t 1 where
  run := run_succ h 0
  counted := by rw [hs, if_neg ht, hc]
  masterClock := hm
  notBefore := hc.ge
  notPast := by omega
  finished hf := absurd hf ht

/-- A step that counts one instruction goes before what the loop does from there. -/
theorem CaughtUp.of_step {s u t : State} {k : Nat} (h : step s = .next u) (hf : u.fault = s.fault)
    (hc : u.internalClock = s.internalClock + 1) (hm : u.masterClock = s.masterClock) (hr : CaughtUp u t k) :
    CaughtUp s t (k + 1) where
  run := (run_succ h k).trans hr.run
  counted := by rw [← hf, hr.counted, hc]; omega
  masterClock := hr.masterClock.trans hm
  notBefore := by have := hr.notBefore; omega
  notPast := hr.notPast
  finished := hr.finished

/-- A turn of the loop from a state that is behind, with clocks of unbounded width: a fatal condition, uncounted, or an
instruction counted. -/
theorem step_of_behind {s : State} (hm : s.mapper.isSome = true) (hb : s.behind = true)
    (hcb : s.params.clockBits = none) :
    ∃ t, step s = .next t ∧ t.mapper.isSome = true ∧ t.params.clockBits = none ∧ t.masterClock = s.masterClock ∧
      ((t.fault ≠ none ∧ t.internalClock = s.internalClock) ∨
        (t.fault = none ∧ t.internalClock = s.internalClock + 1)) := by
  obtain ⟨hf, hh, -⟩ := s.behind_iff.1 hb
  obtain ⟨t, h, hp, hmc, hmt⟩ := runnableStateSteps s ⟨hm, hf, hh⟩
  obtain ⟨hdone, hfatal⟩ := stepCountsCompleted s t ⟨hm, hf, hh⟩ h
  refine ⟨t, h, hmt, hp ▸ hcb, hmc, ?_⟩
  by_cases ht : t.fault = none
  · have hc := hdone ht
    rw [hcb] at hc
    exact .inr ⟨ht, hc⟩
  · exact .inl ⟨ht, hfatal ht⟩

/-- The budget loop, given as many turns as the clocks differ, ends where it should: by induction on the turns. -/
theorem catchUp_caughtUp (j : Nat) : ∀ s : State, s.mapper.isSome = true → s.params.clockBits = none →
    s.masterClock = s.internalClock + j → ∃ t k, catchUp j s = .next t ∧ CaughtUp s t k := by
  induction j with
  | zero =>
    intro s _ _ hj
    have hb : s.behind = false := by simp [State.behind, hj]
    exact ⟨s, 0, rfl, .refl hb (by omega)⟩
  | succ j ih =>
    intro s hm hcb hj
    cases hb : s.behind with
    | false => exact ⟨s, 0, catchUp_done hb _, .refl hb (by omega)⟩
    | true =>
      obtain ⟨hf, -, -⟩ := s.behind_iff.1 hb
      obtain ⟨u, h, hmu, hcbu, hmc, ⟨hfu, hc⟩ | ⟨hfu, hc⟩⟩ := step_of_behind hm hb hcb
      · have hbu : u.behind = false := Bool.eq_false_iff.2 fun hbu => hfu (u.behind_iff.1 hbu).1
        exact ⟨u, 1, (catchUp_step hb h j).trans (catchUp_done hbu j), .of_fatal h hf hfu hc hmc (by omega)⟩
      · obtain ⟨t, k, hrun, hr⟩ := ih u hmu hcbu (by omega)
        exact ⟨t, k + 1, (catchUp_step hb h j).trans hrun, .of_step h (hfu.trans hf.symm) hc hmc hr⟩

/-- With a mapper and clocks of unbounded width, `step(n)` is the budget loop after the master clock was raised. -/
theorem hostStep_eq {s : State} (n : Nat) (hm : s.mapper.isSome = true) (hcb : s.params.clockBits = none) :
    hostStep n s =
      catchUp (s.masterClock + n - s.internalClock) { s with masterClock := s.masterClock + n } := by
  have hn : ¬ s.mapper.isNone = true := by simpa [Option.isSome_iff_ne_none] using hm
  rw [hostStep, if_neg hn]
  simp only [clockValue, hcb]

/-- Settles O58: the loop has as many turns as the clocks differ, and every turn but a last one that records a fatal
condition counts one instruction. -/
theorem budgetIsExact : Obligations.BudgetIsExact := by
  intro s n hm hcb hle
  obtain ⟨t, k, he, hr⟩ := catchUp_caughtUp (s.masterClock + n - s.internalClock)
    { s with masterClock := s.masterClock + n } hm hcb (by dsimp only; omega)
  exact ⟨t, k, (hostStep_eq n hm hcb).trans he, hr.run, hr.counted, hr.masterClock, hr.notBefore, hr.notPast,
    hr.finished⟩

end Sys2Proof.Machine
end

section
/-! PROOFS. The rules of encoding and fetching: the table by opcode and the table by mnemonic of 30_encoding.md R83 are
inverse, and what a fetch gives where the bytes at PC are known, or where one of them is the missing top cell (R81, R89). -/

namespace Sys2Proof

/-! ## What the table makes -/

/-- The table's entry for an operand of a mode; the modes without one have none. -/
def Entry.ofMode (f : Operand → Instr) : Mode → Option Entry
  | .imm => some (Entry.imm f)
  | .zp => some (Entry.zp f)
  | .zpx => some (Entry.zpx f)
  | .zpy => some (Entry.zpy f)
  | .abs => some (Entry.abs f)
  | .absx => some (Entry.absx f)
  | .absy => some (Entry.absy f)
  | .ind => some (Entry.ind f)
  | .indx => some (Entry.indx f)
  | .indy => some (Entry.indy f)
  | .imp | .acc | .rel => none

/-- An entry of an operand's mode makes the instruction over that operand, from its bytes (30_encoding.md R82). -/
theorem Entry.make_ofMode {f : Operand → Instr} {o : Operand} {e : Entry} (h : Entry.ofMode f o.mode = some e) :
    ∃ lo hi, e.make lo hi = f o := by
  cases o with
  | imm b | zp b | zpx b | zpy b | indx b | indy b => cases h; exact ⟨b, 0, rfl⟩
  | abs w | absx w | absy w | ind w =>
    cases h
    refine ⟨lowByte w, highByte w, ?_⟩
    simp only [Entry.abs, Entry.absx, Entry.absy, Entry.ind, Machine.word_highByte_lowByte]

theorem opcodeEntry_nop_implied {op : Byte} (h : op ∈ nopOpcodes .imp) :
    (opcodeEntry op).make 0 0 = .nop op none := by
  fin_cases h <;> rfl

theorem opcodeEntry_nop {op : Byte} {o : Operand} (h : op ∈ nopOpcodes o.mode) :
    Entry.ofMode (Entry.nopOf op) o.mode = some (opcodeEntry op) := by
  cases o with
  | imm | zp | zpx | abs | absx => fin_cases h <;> rfl
  | zpy | absy | ind | indx | indy => cases h

theorem opcodeEntry_unknown {op : Byte} (h : op ∈ unknownOpcodes) :
    (opcodeEntry op).make 0 0 = .unknown op := by
  fin_cases h <;> rfl

/-- A no-op's opcode is the byte it carries, one of its mode's (30_encoding.md R86). -/
theorem opcode_nop {k op : Byte} {o : Option Operand} (h : (Instr.nop k o).opcode = some op) :
    k = op ∧ op ∈ nopOpcodes (nopMode o) := by
  simp only [Instr.opcode] at h
  split at h
  · rename_i hk; cases h; exact ⟨rfl, List.contains_iff_mem.1 hk⟩
  · cases h

/-- The table by mnemonic leads back through the table by opcode (30_encoding.md R83). -/
theorem opcodeEntry_of_opcode {i : Instr} {op : Byte} (h : i.opcode = some op) :
    ∃ lo hi, (opcodeEntry op).make lo hi = i := by
  cases i with
  | lda o | ldx o | ldy o | sta o | stx o | sty o | adc o | sbc o | and o | ora o | eor o | cmp o | cpx o | cpy o
  | bit o | inc o | dec o | slo o | rla o | sre o | rra o | isc o | dcp o | sax o | lax o | jmp o =>
    exact Entry.make_ofMode (by cases o <;> cases h <;> rfl)
  | asl t | lsr t | rol t | ror t =>
    cases t with
    | acc => cases h; exact ⟨0, 0, rfl⟩
    | mem o => exact Entry.make_ofMode (f := Entry.onMem _) (by cases o <;> cases h <;> rfl)
  | bpl d | bmi d | bvc d | bvs d | bcc d | bcs d | bne d | beq d => cases h; exact ⟨d, 0, rfl⟩
  | jsr w => cases h; exact ⟨lowByte w, highByte w, congrArg Instr.jsr (Machine.word_highByte_lowByte w)⟩
  | nop k o =>
    obtain ⟨rfl, hk⟩ := opcode_nop h
    cases o with
    | none => exact ⟨0, 0, opcodeEntry_nop_implied hk⟩
    | some o => exact Entry.make_ofMode (f := Entry.nopOf k) (opcodeEntry_nop hk)
  | jam k =>
    obtain ⟨rfl, hk⟩ := Machine.Instr.opcode_jam h
    exact ⟨0, 0, Machine.opcodeEntry_jam hk 0 0⟩
  | unknown k =>
    obtain ⟨rfl, hk⟩ := Machine.Instr.opcode_unknown h
    exact ⟨0, 0, opcodeEntry_unknown hk⟩
  | tax | tay | txa | tya | tsx | txs | inx | iny | dex | dey | rts | pha | pla | php | plp | clc | sec | cli | sei
  | cld | sed | clv | brk | rti => cases h; exact ⟨0, 0, rfl⟩

/-! ## Decoding -/

/-- An opcode and as many operand bytes as its mode has decode to what its entry makes of them. -/
theorem decode_make (op lo hi : Byte) (rest : List Byte) :
    decode (op :: ([lo, hi].take (opcodeEntry op).mode.operandBytes ++ rest)) =
      .ok ((opcodeEntry op).make lo hi, rest) := by
  revert op
  apply Byte.forall_of_numerals
  intro n hn
  interval_cases n <;> rfl

/-- Decoding an instruction's bytes gives it back, whatever follows (30_encoding.md R80, R82, R83). -/
theorem decode_operandBytes {i : Instr} {op : Byte} (h : i.opcode = some op) (rest : List Byte) :
    decode (op :: (i.operandBytes ++ rest)) = .ok (i, rest) := by
  obtain ⟨lo, hi, rfl⟩ := opcodeEntry_of_opcode h
  rw [(opcodeEntry_make op lo hi).2.2, decode_make]

/-- What decodes from an opcode byte has that opcode and the length of its mode, which is the number of bytes read. -/
theorem decode_lengths {op : Byte} {bytes rest : List Byte} {i : Instr} (h : decode (op :: bytes) = .ok (i, rest)) :
    i.opcode = some op ∧ i.length = 1 + (opcodeEntry op).mode.operandBytes ∧
      (op :: bytes).length = i.length + rest.length := by
  obtain ⟨lo, hi, rfl, hb⟩ := decode_eq_ok h
  obtain ⟨-, hop, hbytes⟩ := opcodeEntry_make op lo hi
  refine ⟨hop, ?_, ?_⟩
  · have := (opcodeEntry op).mode.operandBytes_le
    simp only [Instr.length, hbytes, List.length_take, List.length_cons, List.length_nil]
    omega
  · rw [← hb, List.length_cons, List.length_append, Instr.length]
    omega

/-- Two operand bytes are enough for every opcode (30_encoding.md R88). -/
theorem decode_two_bytes (op lo hi : Byte) (rest : List Byte) :
    ∃ left, decode (op :: lo :: hi :: rest) = .ok ((opcodeEntry op).make lo hi, left) := by
  have h := decode_make op lo hi ([lo, hi].drop (opcodeEntry op).mode.operandBytes ++ rest)
  rw [← List.append_assoc, List.take_append_drop] at h
  exact ⟨_, h⟩

end Sys2Proof

namespace Sys2Proof.Machine

open Sys2Proof.Claims

/-! ## Fetching known bytes -/

/-- A bus read does not look at PC (20_memory.md R51). -/
@[simp] theorem State.peek_with_pc (s : State) (w a : Word) : State.peek { s with pc := w } a = s.peek a := rfl

/-- Where the operand bytes of a mode can be read at PC, they are what is fetched (30_encoding.md R81). -/
theorem fetchOperand_of_peek {m : Mode} {s : State} {bytes : List Byte} (hl : bytes.length = m.operandBytes)
    (hb : ∀ k (h : k < bytes.length), s.peek (s.pc + BitVec.ofNat 16 k) = some bytes[k]) :
    ∃ t, fetchOperand m s = .ok bytes t := by
  cases m with
  | imp | acc =>
    obtain rfl := List.length_eq_zero_iff.1 hl
    exact ⟨s, rfl⟩
  | imm | rel =>
    obtain ⟨b, rfl⟩ := List.length_eq_one_iff.1 hl
    have h0 : s.peek s.pc = some b := by simpa using hb 0 Nat.zero_lt_one
    exact ⟨_, by simp only [fetchOperand, State.peek_with_pc, h0, Access.ofRead_some, Access.ok_andThen]; rfl⟩
  | zp | zpx | zpy | indx | indy =>
    obtain ⟨b, rfl⟩ := List.length_eq_one_iff.1 hl
    have h0 : s.peek s.pc = some b := by simpa using hb 0 Nat.zero_lt_one
    exact ⟨_, by simp only [fetchOperand, fetch8, h0, Access.ofRead_some, Access.ok_andThen]; rfl⟩
  | abs | absx | absy | ind =>
    obtain ⟨lo, hi, rfl⟩ := List.length_eq_two.1 hl
    have h0 : s.peek s.pc = some lo := by simpa using hb 0 (by simp)
    have h1 : s.peek (s.pc + 1) = some hi := by simpa using hb 1 (by simp)
    have hw := State.peekWord_eq h0 h1
    exact ⟨_, by
      simp only [fetchOperand, fetch16, hw, Access.ofRead_some, Access.ok_andThen, lowByte_word, highByte_word]; rfl⟩

theorem fetch_of_operand {s t : State} {op : Byte} {bytes rest : List Byte} {i : Instr} (hop : s.peek s.pc = some op)
    (ho : fetchOperand (opcodeEntry op).mode { s with pc := s.pc + 1 } = .ok bytes t)
    (hd : decode (op :: bytes) = .ok (i, rest)) : fetch s = .instr i := by
  simp only [fetch, fetch8, hop, Access.ofRead_some, Access.ok_andThen, ho, hd]

/-- A fetch where the bytes at PC are an instruction's gives that instruction (30_encoding.md R89). -/
theorem fetch_of_encode {s : State} {i : Instr} (hwf : i.wf = true)
    (hb : ∀ k (h : k < (encode i).length), s.peek (s.pc + BitVec.ofNat 16 k) = some ((encode i)[k]'h)) :
    fetch s = .instr i := by
  obtain ⟨op, ho⟩ := Instr.opcode_of_wf hwf
  have henc : encode i = op :: i.operandBytes := by simp [encode, ho]
  rw [henc] at hb
  have hd : decode (op :: i.operandBytes) = .ok (i, []) := by simpa using decode_operandBytes ho []
  have hl : i.operandBytes.length = (opcodeEntry op).mode.operandBytes := by
    have := (decode_lengths hd).2.1
    rw [Instr.length] at this
    omega
  have hop : s.peek s.pc = some op := BitVec.add_zero s.pc ▸ hb 0 (Nat.succ_pos _)
  obtain ⟨t, ht⟩ := fetchOperand_of_peek (s := { s with pc := s.pc + 1 }) hl fun k h => by
    have hk := hb (k + 1) (by simpa using h)
    rw [List.getElem_cons_succ, BitVec.ofNat_add, BitVec.add_comm (BitVec.ofNat 16 k), ← BitVec.add_assoc] at hk
    exact hk
  exact fetch_of_operand hop ht hd

/-! ## Fetching the missing top cell -/

/-- Where the first operand byte cannot be read, PC is past it for an immediate and a branch and before it otherwise (log
entry 16). -/
theorem fetchOperand_first_missing {m : Mode} {s : State} (hm : m.operandBytes ≠ 0) (h : s.peek s.pc = none) :
    fetchOperand m s =
      .fatal .topCellAccess { s with pc := if m = .imm ∨ m = .rel then s.pc + 1 else s.pc } := by
  cases m with
  | imp | acc => exact absurd rfl hm
  | imm | rel => simp [fetchOperand, h]
  | zp | zpx | zpy | indx | indy => simp [fetchOperand, fetch8, h]
  | abs | absx | absy | ind => simp [fetchOperand, fetch16, State.peekWord, h]

theorem State.peekWord_high_missing {s : State} {a : Word} (h : s.peek (a + 1) = none) : s.peekWord a = none := by
  rw [State.peekWord, h]
  cases s.peek a <;> rfl

/-- Where the second operand byte cannot be read, PC is before the first. -/
theorem fetchOperand_second_missing {m : Mode} {s : State} (hm : m.operandBytes = 2) (h : s.peek (s.pc + 1) = none) :
    fetchOperand m s = .fatal .topCellAccess s := by
  have hw := State.peekWord_high_missing h
  cases m with
  | imp | acc | imm | rel | zp | zpx | zpy | indx | indy => cases hm
  | abs | absx | absy | ind => simp [fetchOperand, fetch16, hw]

/-! ## The step of a fetch -/

/-- A step executes what it fetches (30_encoding.md R89). -/
theorem step_of_fetch {s : State} {i : Instr} (hs : s.runnable) (h : fetch s = .instr i) : step s = exec i s := by
  simp only [step, noStep_runnable hs, h]

/-- A step whose opcode cannot be read records that, with a free value for the opcode (log entry 9). -/
theorem step_opcode_missing {s : State} (hs : s.runnable) (h : s.peek s.pc = none) :
    step s = .next (State.raiseFatal { s with freeDraws := s.freeDraws + 1 } .topCellAccess
      (Config.unfetchedOpcode s.freeDraws) s.pc) := by
  simp only [step, noStep_runnable hs, fetch, fetch8, h, Access.ofRead_none, Access.fatal_andThen]

/-- A step whose operand cannot be read records that, with its opcode (60_exceptions.md R222). -/
theorem step_operand_missing {s left : State} {op : Byte} (hs : s.runnable) (hop : s.peek s.pc = some op)
    (h : fetchOperand (opcodeEntry op).mode { s with pc := s.pc + 1 } = .fatal .topCellAccess left) :
    step s = .next (left.raiseFatal .topCellAccess op s.pc) := by
  simp only [step, noStep_runnable hs, fetch, fetch8, hop, Access.ofRead_some, Access.ok_andThen, h]

/-! ## Instructions of one byte -/

/-- An instruction without operand bytes decodes from its opcode, whatever follows. -/
theorem decode_opcode {i : Instr} {op : Byte} (h : i.opcode = some op) (hb : i.operandBytes = []) (rest : List Byte) :
    decode (op :: rest) = .ok (i, rest) := by
  simpa [hb] using decode_operandBytes h rest

theorem opcode_jam_eq {op : Byte} (h : op ∈ jamOpcodes) : (Instr.jam op).opcode = some op := by
  simp [Instr.opcode, h]

theorem opcode_unknown_eq {op : Byte} (h : op ∈ unknownOpcodes) : (Instr.unknown op).opcode = some op := by
  simp [Instr.opcode, h]

/-- The halt class halts and is counted (45_undocumented.md R211). -/
theorem exec_jam_halts {op : Byte} (h : op ∈ jamOpcodes) (s : State) :
    exec (.jam op) s = .next { ran s (.jam op) with halted := true } :=
  (exec_jam op s).trans
    (perform_ok (t := { s.past (.jam op) with halted := true }) (List.contains_iff_mem.2 h) rfl)

/-- An opcode that is not implemented records the fatal condition, uncounted (60_exceptions.md R221, R228). -/
theorem exec_unimplemented {s : State} {i : Instr} {op : Byte} (h : i.opcode = some op)
    (hi : i = .unknown op ∨ s.params.brkRti = .fatal ∧ (i = .brk ∨ i = .rti)) :
    exec i s = .next { s with
      pc := s.pc + 1
      fault := some { kind := .unimplementedOpcode, opcode := op, addr := s.pc } } := by
  obtain rfl | ⟨hp, rfl | rfl⟩ := hi
  · exact (exec_unknown op s).trans (perform_fatal h rfl)
  · exact (exec_brk s).trans (perform_fatal (t := s.past .brk) h (by simp [hp]))
  · exact (exec_rti s).trans (perform_fatal (t := s.past .rti) h (by simp [hp]))

end Sys2Proof.Machine
end

section
/-! PROOFS. Encoding, decoding and the fetch (30_encoding.md R80 to R94), and the opcodes after which no step follows
(45_undocumented.md R211, 60_exceptions.md R221, R228). -/

namespace Sys2Proof.Machine

open Sys2Proof.Claims

/-- Settles O3: what decodes from an opcode byte is what its entry makes, so the length is that of the entry's mode. -/
theorem opcodeFixesLength : Obligations.OpcodeFixesLength := by
  refine fun op => ⟨fun lo hi rest => ⟨_, decode_two_bytes op lo hi rest⟩, fun bytes i rest h => ?_,
    fun bytes bytes' i i' rest rest' h h' => ?_⟩
  · exact (decode_lengths h).2.2
  · obtain ⟨hop, hlen, -⟩ := decode_lengths h
    obtain ⟨hop', hlen', -⟩ := decode_lengths h'
    have hle := (opcodeEntry op).mode.operandBytes_le
    exact ⟨hop, hop', by omega, by omega, by omega⟩

/-- Settles O4: by running the decoder on the nine words. -/
theorem specWordsDecode : Obligations.SpecWordsDecode :=
  ⟨rfl, rfl, rfl, rfl, rfl, rfl, rfl, rfl, rfl⟩

/-- Settles O43: the fetch reads the instruction's bytes, and decodes them to the instruction. -/
theorem stepRunsDecodedInstruction : Obligations.StepRunsDecodedInstruction :=
  fun _ _ hs hwf hb => step_of_fetch hs (fetch_of_encode hwf hb)

/-- Settles O39: the byte is the whole instruction, its effect sets `halted`, and `noStep` then finds it set. -/
theorem haltClassHalts : Obligations.HaltClassHalts := by
  intro s op rest h
  exact ⟨decode_opcode (opcode_jam_eq h) rfl rest, exec_jam_halts h s,
    fun hm hf => step_halted hm hf rfl⟩

/-- Settles O40: each of these opcodes is a whole instruction whose effect is the fatal condition itself, and `noStep`
then finds the record. -/
theorem unimplementedOpcodesAreFatal : Obligations.UnimplementedOpcodesAreFatal := by
  intro s i op h t
  obtain ⟨hop, hb, hi⟩ : i.opcode = some op ∧ i.operandBytes = [] ∧
      (i = .unknown op ∨ s.params.brkRti = .fatal ∧ (i = .brk ∨ i = .rti)) := by
    obtain ⟨rfl, hu⟩ | ⟨hp, hm⟩ := h
    · exact ⟨opcode_unknown_eq hu, rfl, .inl rfl⟩
    · simp only [List.mem_cons, Prod.mk.injEq, List.not_mem_nil, or_false] at hm
      obtain ⟨rfl, rfl⟩ | ⟨rfl, rfl⟩ := hm
      · exact ⟨rfl, rfl, .inr ⟨hp, .inl rfl⟩⟩
      · exact ⟨rfl, rfl, .inr ⟨hp, .inr rfl⟩⟩
  exact ⟨decode_opcode hop hb, exec_unimplemented hop hi, fun hm => step_faulted hm rfl⟩

/-- Settles O49: the top cell is the opcode's byte at 0xFFFF, the first operand byte at 0xFFFE, and the second at
0xFFFD. -/
theorem fetchMeetsTopCell : Obligations.FetchMeetsTopCell := by
  intro s hs hp
  have htop : s.peek 0xFFFF#16 = none := (s.peek_eq_none_iff _).2 ⟨hp, rfl⟩
  refine ⟨fun hpc => ⟨Config.unfetchedOpcode s.freeDraws, ?_⟩, fun op hpc hop hm => ?_, fun op hpc hop hm => ?_⟩
  · rw [step_opcode_missing hs (hpc ▸ htop), hpc]
    rfl
  · rw [← hpc] at hop
    rw [step_operand_missing hs hop (fetchOperand_first_missing hm (by simpa [hpc] using htop)), hpc]
    simp [State.raiseFatal]
  · rw [← hpc] at hop
    rw [step_operand_missing hs hop (fetchOperand_second_missing hm (by simpa [hpc] using htop)), hpc]
    rfl

end Sys2Proof.Machine
end

section
/-! PROOFS. The rules of addressing: indexed addresses as numbers, where the second byte of a pointer is read, the address
a pointer gives, and when an address is missing (40_addressing.md R103 to R117). -/

namespace Sys2Proof.Machine

/-! ## Addresses as numbers -/

/-- Indexing in the zero page wraps at 256 (40_addressing.md R105, R106). -/
theorem zext_add_toNat (b i : Byte) : (zext (b + i)).toNat = (b.toNat + i.toNat) % 256 :=
  (zext_toNat (b + i)).trans (BitVec.toNat_add b i)

/-- Indexing of a word wraps at 65536 (40_addressing.md R108, R109). -/
theorem add_zext_toNat (w : Word) (i : Byte) : (w + zext i).toNat = (w.toNat + i.toNat) % 65536 := by
  rw [← zext_toNat i]
  exact BitVec.toNat_add w (zext i)

theorem zext_eq_ofNat (b : Byte) : zext b = BitVec.ofNat 16 b.toNat := by
  rw [← zext_toNat b, BitVec.ofNat_toNat, BitVec.setWidth_eq]

/-- The second byte of a zero-page pointer, with and without `ZP_PTR_WRAP` (40_addressing.md R117). -/
theorem zpPointerHighAddr_eq_ofNat (wrap : Bool) (p : Byte) :
    (if wrap then zext (p + 1) else zext p + 1) =
      BitVec.ofNat 16 (if wrap then (p.toNat + 1) % 256 else p.toNat + 1) := by
  cases wrap with
  | true =>
    simp [zext_eq_ofNat]
  | false => simp [zext_eq_ofNat, BitVec.ofNat_add]

/-- The start of a word's page as a number. -/
theorem pageStart_toNat (w : Word) : (w &&& 0xFF00#16).toNat = w.toNat / 256 * 256 := by
  have hmask : 0xFF00#16 = BitVec.allOnes 16 <<< 8 := rfl
  have hlt := w.isLt
  rw [hmask, ← BitVec.shiftLeft_ushiftRight, BitVec.toNat_shiftLeft, BitVec.toNat_ushiftRight, Nat.shiftRight_eq_div_pow,
    Nat.shiftLeft_eq]
  omega

/-- The second byte of an indirect jump's pointer: the start of the page where the pointer ends it, and the next address
elsewhere (40_addressing.md R110). -/
theorem indirectHighAddr_toNat (w : Word) :
    (indirectHighAddr w).toNat = if w.toNat % 256 = 255 then w.toNat - 255 else w.toNat + 1 := by
  have hends : lowByte w = 0xFF#8 ↔ w.toNat % 256 = 255 := by
    rw [← BitVec.toNat_inj, lowByte_toNat]
    rfl
  simp only [indirectHighAddr, hends]
  split
  · rw [pageStart_toNat]
    omega
  · have hnext : (w + 1).toNat = (w.toNat + 1) % 65536 := BitVec.toNat_add w 1
    omega

/-! ## Pointers -/

/-- The address that a zero-page pointer gives is its two bytes (40_addressing.md R117). -/
theorem State.zpPointer_eq {s : State} {p lo hi : Byte} (hlo : s.peek (BitVec.ofNat 16 p.toNat) = some lo)
    (hhi : s.peek (BitVec.ofNat 16 (if s.params.zpPtrWrap then (p.toNat + 1) % 256 else p.toNat + 1)) = some hi) :
    s.zpPointer p = some (word hi lo) := by
  rw [State.zpPointer, zext_eq_ofNat, hlo, Option.bind_some, ← zext_eq_ofNat, zpPointerHighAddr_eq_ofNat, hhi,
    Option.map_some]

/-- Every address below the top cell reads (20_memory.md R79). -/
theorem State.exists_peek_of_lt (s : State) {a : Word} (h : a.toNat < 0xFFFF) : ∃ v, s.peek a = some v := by
  refine Option.ne_none_iff_exists'.1 fun hnone => ?_
  obtain ⟨-, rfl⟩ := (s.peek_eq_none_iff a).1 hnone
  exact absurd h (by decide)

/-- A zero-page pointer can always be read: its second byte lies at 0x0100 at most. -/
theorem State.exists_zpPointer (s : State) (p : Byte) : ∃ w, s.zpPointer p = some w := by
  have hhi : (BitVec.ofNat 16 (if s.params.zpPtrWrap then (p.toNat + 1) % 256 else p.toNat + 1)).toNat < 0xFFFF := by
    have := p.isLt
    rw [BitVec.toNat_ofNat]
    split <;> omega
  obtain ⟨hi, hhi⟩ := s.exists_peek_of_lt hhi
  exact ⟨_, State.zpPointer_eq (zext_eq_ofNat p ▸ s.peek_zext p) hhi⟩

theorem State.indirectTarget_eq {s : State} {w : Word} {lo hi : Byte} (hlo : s.peek w = some lo)
    (hhi : s.peek (indirectHighAddr w) = some hi) : s.indirectTarget w = some (word hi lo) := by
  rw [State.indirectTarget, hlo, Option.bind_some, hhi, Option.map_some]

/-- An indirect jump has no target exactly where one of its pointer's bytes is the missing top cell (40_addressing.md
R110, 20_memory.md R79). -/
theorem State.indirectTarget_eq_none_iff (s : State) (w : Word) :
    s.indirectTarget w = none ↔ s.params.topCell = .fault ∧ (w = 0xFFFF#16 ∨ indirectHighAddr w = 0xFFFF#16) := by
  rw [and_or_left, ← State.peek_eq_none_iff, ← State.peek_eq_none_iff, State.indirectTarget]
  cases s.peek w with
  | none => simp
  | some lo => simp

/-! ## Operands -/

/-- The operand of a mode other than the immediate one is read through the bus (40_addressing.md R114). -/
theorem State.operand_eq_bind (s : State) {o : Operand} (h : o.mode ≠ .imm) : s.operand o = (s.ea o).bind s.peek := by
  cases o with
  | imm v => exact absurd rfl h
  | _ => rfl

/-- Only an indirect jump can miss its address. -/
theorem State.exists_ea (s : State) {o : Operand} (h : o.mode ≠ .ind) : ∃ a, s.ea o = some a := by
  cases o with
  | ind w => exact absurd rfl h
  | indx b => exact s.exists_zpPointer (b + s.x)
  | indy b =>
    obtain ⟨w, hw⟩ := s.exists_zpPointer b
    exact ⟨w + zext s.y, by rw [State.ea, hw, Option.map_some]⟩
  | _ => exact ⟨_, rfl⟩

end Sys2Proof.Machine
end

section
/-! PROOFS. Addressing: the effective address of every mode, when it is missing, and the operand that stands there
(40_addressing.md). -/

namespace Sys2Proof.Machine

open Sys2Proof.Claims

/-- Settles O13: each pointer mode reads its two bytes where the rules of the pointers say, and only an indirect jump's
bytes can be the top cell. -/
theorem pointerModes : Obligations.PointerModes := by
  refine fun s => ⟨fun b lo hi => ?_, fun b lo hi => ?_, fun w => ?_, fun o h => s.exists_ea h⟩
  · have hp : (b + s.x).toNat = (b.toNat + s.x.toNat) % 256 := BitVec.toNat_add b s.x
    rw [← hp]
    intro p next hlo hhi
    rw [State.ea, State.zpPointer_eq hlo hhi, Option.map_some, word_toNat]
  · intro next hlo hhi
    rw [State.ea, State.zpPointer_eq hlo hhi, Option.map_some, Option.map_some, add_zext_toNat, word_toNat]
  · rw [← indirectHighAddr_toNat]
    refine ⟨fun lo hi hlo hhi => ?_, ?_⟩
    · rw [BitVec.ofNat_toNat, BitVec.setWidth_eq] at hhi
      rw [State.ea, State.indirectTarget_eq hlo hhi, Option.map_some, word_toNat]
    · rw [State.ea, State.indirectTarget_eq_none_iff, ← BitVec.toNat_inj, ← BitVec.toNat_inj]
      rfl

/-- Settles O14: only the missing top cell makes an address, a read or a store fail, and under `Cell` it exists. -/
theorem everyOperandReadableUnderCell : Obligations.EveryOperandReadableUnderCell := by
  refine fun s => ⟨fun v => rfl, fun o => s.operand_eq_bind, fun o hcell => ?_⟩
  have hfault : s.params.topCell ≠ .fault := by simp [hcell]
  exact ⟨Option.ne_none_iff_exists'.1 (mt State.ea_none hfault),
    Option.ne_none_iff_exists'.1 (mt State.operand_none hfault),
    fun a => Option.ne_none_iff_exists'.1 (mt State.peek_none hfault),
    fun a h => hfault h.1⟩

/-- Settles O12: an index is added before the byte is extended in the zero page, and after it to a word. -/
theorem effectiveAddressesWrap : Obligations.EffectiveAddressesWrap := fun s b w =>
  ⟨congrArg some (zext_toNat b), congrArg some (zext_add_toNat b s.x), congrArg some (zext_add_toNat b s.y), rfl,
    congrArg some (add_zext_toNat w s.x), congrArg some (add_zext_toNat w s.y)⟩

end Sys2Proof.Machine
end

section
/-! PROOFS. The rules of a whole instruction: one that reads its operand and one that stores a byte each need their shared
cases once, and the zero and negative flags have one rule (30_encoding.md R89, R90, 40_addressing.md R114, R116, 42_alu.md
R140). -/

namespace Sys2Proof.Machine

open Sys2Proof.Claims

/-- A term with an opcode has an encoding. -/
theorem Instr.wf_of_opcode {i : Instr} {op : Byte} (h : i.opcode = some op) : i.wf = true := by
  have hsome : i.opcode.isSome = i.wf := Laws.EncodingMatchesWf.all i
  rw [← hsome, h, Option.isSome_some]

/-- A status register that `SetZN(v)` left has the two flags of `v` and the others as they were (42_alu.md R140). -/
theorem flagsBecome_zn {s t : State} {v : Byte} (h : t.p = (s.setZN v).p) : FlagsBecome s t (zn v) := by
  intro f
  rw [State.flag_congr h, State.setZN_flag, Byte.bit7, Byte.isZero]
  cases f <;> rfl

/-- An instruction that performs a read, and then changes A, X, Y and the status at most, completes or fails as the read
does. -/
theorem reads_of_perform {f : Operand → Instr} {encodings : List (Mode × Byte)} {g : Byte → State → State}
    {result : State → Byte → State → Prop}
    (hop : ∀ o, (f o).opcode = encodings.lookup o.mode)
    (hexec : ∀ o s, exec (f o) s = perform (f o) (reading o g) s)
    (hframe : ∀ m s, g m s = { s with a := (g m s).a, x := (g m s).x, y := (g m s).y, p := (g m s).p })
    (hresult : ∀ s m i, result s m (g m (s.past i)).retire) : Reads f encodings result := by
  refine fun s o => ⟨hop o, fun op henc => ⟨fun m hm => ?_, fun hnone => ?_⟩⟩
  · rw [← State.operand_past s (f o)] at hm
    refine ⟨_, (hexec o s).trans (perform_ok (Instr.wf_of_opcode ((hop o).trans henc)) (reading_eq hm)), ?_,
      hresult s m (f o)⟩
    rw [hframe]
    rfl
  · rw [← State.operand_past s (f o)] at hnone
    exact (hexec o s).trans (perform_fatal ((hop o).trans henc) (reading_none hnone))

/-- An instruction that performs a store, in modes with an address in memory, completes or fails as the store does. -/
theorem stores_of_perform {f : Operand → Instr} {encodings : List (Mode × Byte)} {value : State → Byte}
    (hop : ∀ o, (f o).opcode = encodings.lookup o.mode)
    (himm : encodings.lookup .imm = none) (hind : encodings.lookup .ind = none)
    (hexec : ∀ o s, exec (f o) s = perform (f o) (fun s => storing o (value s) s) s)
    (hvalue : ∀ s i, value (s.past i) = value s) : Stores f encodings value := by
  refine fun s o => ⟨hop o, fun op henc => ?_⟩
  have hopcode : (f o).opcode = some op := (hop o).trans henc
  have hmode {m : Mode} (hm : encodings.lookup m = none) : o.mode ≠ m := by
    rintro rfl
    cases hm.symm.trans henc
  have hstore (a : Word) (ha : s.ea o = some a) :
      storing o (value (s.past (f o))) (s.past (f o)) = busWrite a (value s) (s.past (f o)) := by
    rw [storing_eq ((s.ea_past (f o) (hmode himm)).trans ha), hvalue]
  refine ⟨fun a ha hw => ?_, fun a ha hw => ?_, s.exists_ea (hmode hind)⟩
  · obtain ⟨t, he, ht, hst⟩ := busWrite_of_writable (s := s.past (f o)) (value s) hw
    refine ⟨t.retire, (hexec o s).trans (perform_ok (Instr.wf_of_opcode hopcode) ((hstore a ha).trans he)), ?_, hst⟩
    rw [ht]
    rfl
  · exact (hexec o s).trans
      (perform_fatal hopcode ((hstore a ha).trans (busWrite_of_not_writable (s := s.past (f o)) (value s) hw)))

end Sys2Proof.Machine
end

section
/-! PROOFS. Loads, stores and transfers (41_load_store_transfer.md R120 to R131, 45_undocumented.md R207, R208). -/

namespace Sys2Proof.Machine

open Sys2Proof.Claims

/-- Settles O15: each load performs a read, and what it does with the byte is to put it in its registers and to set Z and
N. -/
theorem loadsComplete : Obligations.LoadsComplete :=
  ⟨reads_of_perform (fun _ => rfl) exec_lda (fun _ _ => rfl) fun _ _ _ => ⟨rfl, rfl, rfl, flagsBecome_zn rfl⟩,
    reads_of_perform (fun _ => rfl) exec_ldx (fun _ _ => rfl) fun _ _ _ => ⟨rfl, rfl, rfl, flagsBecome_zn rfl⟩,
    reads_of_perform (fun _ => rfl) exec_ldy (fun _ _ => rfl) fun _ _ _ => ⟨rfl, rfl, rfl, flagsBecome_zn rfl⟩,
    reads_of_perform (fun _ => rfl) exec_lax (fun _ _ => rfl) fun _ _ _ => ⟨rfl, rfl, rfl, flagsBecome_zn rfl⟩⟩

/-- Settles O16: each store performs a store of its register's byte, and has neither an immediate nor an indirect mode. -/
theorem storesComplete : Obligations.StoresComplete :=
  ⟨stores_of_perform (fun _ => rfl) rfl rfl exec_sta fun _ _ => rfl,
    stores_of_perform (fun _ => rfl) rfl rfl exec_stx fun _ _ => rfl,
    stores_of_perform (fun _ => rfl) rfl rfl exec_sty fun _ _ => rfl,
    stores_of_perform (fun _ => rfl) rfl rfl exec_sax fun _ _ => rfl⟩

/-- Settles O17: a transfer has no operand and cannot fail, and its effect is one register, with Z and N in all but
TXS. -/
theorem transfersComplete : Obligations.TransfersComplete := fun s =>
  ⟨⟨_, (exec_tax s).trans (perform_ok rfl rfl), rfl, flagsBecome_zn rfl⟩,
    ⟨_, (exec_tay s).trans (perform_ok rfl rfl), rfl, flagsBecome_zn rfl⟩,
    ⟨_, (exec_txa s).trans (perform_ok rfl rfl), rfl, flagsBecome_zn rfl⟩,
    ⟨_, (exec_tya s).trans (perform_ok rfl rfl), rfl, flagsBecome_zn rfl⟩,
    ⟨_, (exec_tsx s).trans (perform_ok rfl rfl), rfl, flagsBecome_zn rfl⟩,
    (exec_txs s).trans (perform_ok (t := { s.past .txs with sp := s.x }) rfl rfl), rfl, rfl, rfl, rfl, rfl, rfl⟩

end Sys2Proof.Machine
end

section
/-! PROOFS. The rules of the adder (42_alu.md R141, R143, R158): its three outputs as numbers, its overflow as that of
signed numbers, and the addition of a complement. -/

namespace Sys2Proof.Machine

open Sys2Proof.Claims

theorem addWithCarry_byte_toNat (a m : Byte) (c : Bool) :
    (addWithCarry a m c).byte.toNat = (a.toNat + m.toNat + c.toNat) % 256 := rfl

theorem addWithCarry_carry (a m : Byte) (c : Bool) :
    (addWithCarry a m c).carry = decide (256 ≤ a.toNat + m.toNat + c.toNat) := rfl

theorem addWithCarry_overflow (a m : Byte) (c : Bool) :
    (addWithCarry a m c).overflow =
      (decide (128 ≤ a.toNat ↔ 128 ≤ m.toNat) &&
        decide (¬ (128 ≤ (a.toNat + m.toNat + c.toNat) % 256 ↔ 128 ≤ a.toNat))) := by
  rw [← addWithCarry_byte_toNat]
  simp only [addWithCarry, Byte.bit7]
  rw [Bool.eq_iff_iff]
  simp [iff_comm]

/-- A byte's complement as a number. -/
theorem Byte.not_toNat (m : Byte) : (~~~m).toNat = 255 - m.toNat := BitVec.toNat_not

/-- A byte's complement as a signed number. -/
theorem Byte.not_toInt (m : Byte) : (~~~m).toInt = -1 - m.toInt := by
  have := m.isLt
  simp only [BitVec.toInt_eq_toNat_cond, Byte.not_toNat]
  omega

/-- The overflow of R141 says that the signed sum lies outside a byte's range. -/
theorem addWithCarry_overflow_iff (a m : Byte) (c : Bool) :
    (addWithCarry a m c).overflow = true ↔
      a.toInt + m.toInt + c.toNat < -128 ∨ 127 < a.toInt + m.toInt + c.toNat := by
  have ha := a.isLt
  have hm := m.isLt
  have hc := c.toNat_le
  rw [addWithCarry_overflow, Bool.and_eq_true, decide_eq_true_iff, decide_eq_true_iff]
  simp only [BitVec.toInt_eq_toNat_cond]
  omega

/-- Adding the complement subtracts, the carry being the borrow's absence (R143). -/
theorem addWithCarry_not (a m : Byte) (c : Bool) :
    ((addWithCarry a (~~~m) c).byte.toNat : Int) = ((a.toNat : Int) - m.toNat - (1 - c.toNat)) % 256 ∧
      (addWithCarry a (~~~m) c).carry = decide (m.toNat + (1 - c.toNat) ≤ a.toNat) := by
  have hm := m.isLt
  have hc := c.toNat_le
  rw [addWithCarry_byte_toNat, addWithCarry_carry, Byte.not_toNat, decide_eq_decide]
  omega

/-- Adding a byte with a carry and then its complement with the opposite carry gives the first byte back (R158). -/
theorem addWithCarry_not_addWithCarry (a m : Byte) (c : Bool) :
    (addWithCarry (addWithCarry a m c).byte (~~~m) (!c)).byte = a := by
  have ha := a.isLt
  have hm := m.isLt
  have hc : c.toNat + (!c).toNat = 1 := by cases c <;> rfl
  apply BitVec.eq_of_toNat_eq
  rw [addWithCarry_byte_toNat, addWithCarry_byte_toNat, Byte.not_toNat]
  omega

/-! ## Steps by one -/

theorem Byte.add_one_toNat (v : Byte) : (v + 1).toNat = (v.toNat + 1) % 256 := BitVec.toNat_add v 1

theorem Byte.sub_one_toNat (v : Byte) : (v - 1).toNat = (v.toNat + 255) % 256 := by
  rw [BitVec.toNat_sub, Nat.add_comm]
  rfl

theorem increment_byte (o : Byte) (s : State) : (increment o s).1 = BitVec.ofNat 8 ((o.toNat + 1) % 256) := by
  rw [← Byte.add_one_toNat, BitVec.ofNat_toNat, BitVec.setWidth_eq, increment]

theorem decrement_byte (o : Byte) (s : State) : (decrement o s).1 = BitVec.ofNat 8 ((o.toNat + 255) % 256) := by
  rw [← Byte.sub_one_toNat, BitVec.ofNat_toNat, BitVec.setWidth_eq, decrement]

/-! ## The flags -/

/-- `SetZN(v)` reads the status register and nothing else. -/
theorem State.setZN_p_congr {s t : State} (h : s.p = t.p) (v : Byte) : (s.setZN v).p = (t.setZN v).p :=
  State.p_eq_of_flags fun f => by rw [State.setZN_flag, State.setZN_flag, State.flag_congr h]

/-- ADC of a byte leaves its sum in A and what R141 says in the flags (R142). -/
theorem added_addToA {s t : State} {m : Byte} (ha : t.a = (s.addToA m).a) (hp : t.p = (s.addToA m).p) :
    Added s m.toNat (s.flag .c) t := by
  rw [State.addToA_a] at ha
  refine ⟨by rw [ha, addWithCarry_byte_toNat], fun f => ?_⟩
  rw [State.flag_congr hp, State.addToA_flag, ha]
  simp only [Byte.bit7, Byte.isZero, addWithCarry_carry, addWithCarry_overflow]
  cases f <;> rfl

/-- A comparison leaves its results in the flags (R147). -/
theorem flagsBecome_compare {s t : State} {reg m : Byte} (h : t.p = (s.compare reg m).p) :
    FlagsBecome s t ((.c, decide (m.toNat ≤ reg.toNat)) :: zn (reg - m)) := by
  intro f
  rw [State.flag_congr h, State.compare_flag, Byte.bit7, Byte.isZero]
  cases f <;> rfl

/-- Bit 6 of a byte as a number (R151). -/
theorem Byte.bit6 (v : Byte) : v.getLsbD 6 = decide (64 ≤ v.toNat % 128) := by
  rw [BitVec.getLsbD, Nat.testBit_eq_decide_div_mod_eq, decide_eq_decide]
  omega

/-- The bit test leaves its results in the flags (R151). -/
theorem flagsBecome_bitTest {s t : State} {m : Byte} (h : t.p = (s.bitTest m).p) :
    FlagsBecome s t
      [(.z, s.a &&& m == 0x00#8), (.v, decide (64 ≤ m.toNat % 128)), (.n, decide (128 ≤ m.toNat))] := by
  intro f
  rw [State.flag_congr h, State.bitTest_flag, Byte.bit7, Byte.bit6]
  cases f <;> rfl

end Sys2Proof.Machine
end

section
/-! PROOFS. More rules of a whole instruction: the state that a completed read leads to, and the shared cases of the
read-modify-write instructions (30_encoding.md R89, R90, 40_addressing.md R114, R115). -/

namespace Sys2Proof.Machine

open Sys2Proof.Claims

/-- The state an instruction with a readable operand answers is the one its reading leads to, counted. -/
theorem perform_reading_next {i : Instr} {o : Operand} {g : Byte → State → State} {s t : State} {m : Byte}
    (hm : s.operand o = some m) (h : perform i (reading o g) s = .next t) : t = (g m (s.past i)).retire := by
  rw [← State.operand_past s i] at hm
  obtain ⟨op, hop, -⟩ := perform_next h
  exact Host.Outcome.next.inj (h.symm.trans (perform_ok (Instr.wf_of_opcode hop) (reading_eq hm)))

/-- An ADC of the byte `m` leaves the adder's byte in A and its overflow in V (42_alu.md R142). -/
theorem exec_adc_next {o : Operand} {s t : State} {m : Byte} (hm : s.operand o = some m)
    (h : exec (.adc o) s = .next t) :
    t.a = (addWithCarry s.a m (s.flag .c)).byte ∧ t.flag .v = (addWithCarry s.a m (s.flag .c)).overflow := by
  rw [perform_reading_next hm h]
  exact ⟨rfl, (s.past (.adc o)).addToA_flag m .v⟩

/-- An SBC of the byte `m` leaves what the adder gives for its complement (42_alu.md R143). -/
theorem exec_sbc_next {o : Operand} {s t : State} {m : Byte} (hm : s.operand o = some m)
    (h : exec (.sbc o) s = .next t) :
    t.a = (addWithCarry s.a (~~~m) (s.flag .c)).byte ∧ t.flag .v = (addWithCarry s.a (~~~m) (s.flag .c)).overflow := by
  rw [perform_reading_next hm h]
  exact ⟨rfl, (s.past (.sbc o)).subFromA_flag m .v⟩

/-- An instruction that reads its operand and compares a register with it writes three flags and no register (42_alu.md
R147). -/
theorem reads_of_compare {f : Operand → Instr} {encodings : List (Mode × Byte)} {reg : State → Byte}
    (hop : ∀ o, (f o).opcode = encodings.lookup o.mode)
    (hexec : ∀ o s, exec (f o) s = perform (f o) (reading o fun m s => s.compare (reg s) m) s)
    (hreg : ∀ s i, reg (s.past i) = reg s) :
    Reads f encodings fun s m t => t.x = s.x ∧ t.y = s.y ∧ Compared (reg s) m s t := by
  refine reads_of_perform hop hexec (fun _ _ => rfl) fun s m i => ?_
  simp only [hreg, Compared, State.retire_a, State.retire_x, State.retire_y, State.compare_a, State.compare_x,
    State.compare_y, State.past_a, State.past_x, State.past_y, true_and]
  exact flagsBecome_compare rfl

/-- A byte that can be read stands where a store is allowed (20_memory.md R79). -/
theorem writable_of_peek {s : State} {a : Word} {v : Byte} (h : s.peek a = some v) : writable s a := by
  rintro ⟨hp, ha, -⟩
  cases h.symm.trans ((s.peek_eq_none_iff a).2 ⟨hp, ha⟩)

/-- A read-modify-write fails where its address or its read does (40_addressing.md R115). -/
theorem rmw_none {o : Operand} {g : Byte → State → Byte × State} {s : State} (h : (s.ea o).bind s.peek = none) :
    rmw o g s = .fatal .topCellAccess s := by
  cases ha : s.ea o with
  | none => simp [rmw, ha]
  | some a =>
    rw [ha, Option.bind_some] at h
    simp [rmw, ha, h]

/-- A byte function of a read-modify-write instruction changes the status register at most. -/
theorem CarryOnly.eq_with_p {g : Byte → State → Byte × State} (hg : CarryOnly g) (old : Byte) (s : State) :
    (g old s).2 = { s with p := (g old s).2.p } := by
  obtain h | ⟨b, h⟩ := hg.only old s
  · rw [h]
  · rw [h]
    rfl

/-- A read-modify-write of a byte that can be read completes, and the new byte is stored (40_addressing.md R115). -/
theorem CarryOnly.rmw_stored {g : Byte → State → Byte × State} (hg : CarryOnly g) {o : Operand} {s : State} {a : Word}
    {old : Byte} (ha : s.ea o = some a) (hold : s.peek a = some old) :
    ∃ t, rmw o g s = .ok (g old s).1 t ∧ t = { s with p := (g old s).2.p, mem := t.mem, mapper := t.mapper } ∧
      Stored s t a (g old s).1 := by
  have hp := hg.eq_with_p old s
  have hw : writable (g old s).2 a := by
    rw [hp]
    exact writable_of_peek hold
  obtain ⟨t, he, ht, hst⟩ := busWrite_of_writable (g old s).1 hw
  rw [hp] at ht hst
  exact ⟨t, by rw [rmw_eq ha hold, he, Access.ok_andThen], ht, hst⟩

/-- An instruction that performs a read-modify-write, and then changes A and the status at most, completes or fails as
the read does. -/
theorem modifies_of_perform {f : Operand → Instr} {encodings : List (Mode × Byte)} {g : Byte → State → Byte × State}
    {h : Byte → State → State} {new : State → Byte → Byte} {result : State → Byte → State → Prop}
    (hop : ∀ o, (f o).opcode = encodings.lookup o.mode) (himm : encodings.lookup .imm = none)
    (hexec : ∀ o s, exec (f o) s = perform (f o) (combined o g h) s)
    (hg : CarryOnly g) (hnew : ∀ s i old, (g old (s.past i)).1 = new s old)
    (hframe : ∀ r s, h r s = { s with a := (h r s).a, p := (h r s).p })
    (hresult : ∀ s i old u, u.a = s.a → u.p = (g old (s.past i)).2.p → result s old (h (new s old) u).retire) :
    Modifies f encodings new result := by
  refine fun s o => ⟨hop o, fun op henc => ?_⟩
  have hopcode : (f o).opcode = some op := (hop o).trans henc
  have hea : (s.past (f o)).ea o = s.ea o := s.ea_past (f o) fun hm => by
    rw [hm] at henc
    cases himm.symm.trans henc
  refine ⟨fun a old ha hold => ?_, fun hnone => ?_⟩
  · obtain ⟨u, he, hu, hst⟩ := hg.rmw_stored (s := s.past (f o)) (hea.trans ha) hold
    rw [hnew] at he hst
    have heffect : combined o g h (s.past (f o)) = .ok () (h (new s old) u) := by
      rw [combined, he, Access.ok_andThen, Access.set_eq]
    refine ⟨_, (hexec o s).trans (perform_ok (Instr.wf_of_opcode hopcode) heffect), ?_, ?_, hresult s (f o) old u ?_ ?_⟩
    · rw [hframe, hu]
      rfl
    · rw [hframe]
      exact hst
    · rw [hu]
      rfl
    · rw [hu]
  · have hfail : rmw o g (s.past (f o)) = .fatal .topCellAccess (s.past (f o)) := rmw_none (by rw [hea]; exact hnone)
    have heffect : combined o g h (s.past (f o)) = .fatal .topCellAccess (s.past (f o)) := by
      rw [combined, hfail, Access.fatal_andThen]
    exact (hexec o s).trans (perform_fatal hopcode heffect)

end Sys2Proof.Machine
end

section
/-! PROOFS. The rules of the decimal flag (42_alu.md R159): which updates, accesses and effects neither read it nor write
it, so that it may be set before them or after them. -/

namespace Sys2Proof.Machine

/-! ## Updates of the state -/

/-- An update of the state that does the same whatever the decimal flag is, and leaves it as it was. -/
def State.DecimalBlind (g : State → State) : Prop := ∀ s b, g (s.setFlag .d b) = (g s).setFlag .d b

theorem State.DecimalBlind.comp {g f : State → State} (hg : State.DecimalBlind g) (hf : State.DecimalBlind f) :
    State.DecimalBlind fun s => g (f s) := fun s b => (congrArg g (hf s b)).trans (hg (f s) b)

theorem State.decimalBlind_setFlag {f : Flag} (v : Bool) (h : f ≠ .d) : State.DecimalBlind (·.setFlag f v) :=
  fun s b => s.setFlag_comm b v h.symm

theorem State.decimalBlind_setZN (v : Byte) : State.DecimalBlind (·.setZN v) := 
  (State.decimalBlind_setFlag (f := .n) _ nofun).comp (State.decimalBlind_setFlag (f := .z) _ nofun)

theorem State.decimalBlind_resultInA (v : Byte) : State.DecimalBlind (·.resultInA v) := fun s =>
  State.decimalBlind_setZN v { s with a := v }

theorem State.decimalBlind_resultInX (v : Byte) : State.DecimalBlind (·.resultInX v) := fun s =>
  State.decimalBlind_setZN v { s with x := v }

theorem State.decimalBlind_resultInY (v : Byte) : State.DecimalBlind (·.resultInY v) := fun s =>
  State.decimalBlind_setZN v { s with y := v }

theorem State.decimalBlind_compare (reg m : Byte) : State.DecimalBlind (·.compare reg m) := 
  (State.decimalBlind_setZN _).comp (State.decimalBlind_setFlag (f := .c) _ nofun)

theorem State.decimalBlind_bitTest (m : Byte) : State.DecimalBlind (·.bitTest m) := fun s =>
  ((State.decimalBlind_setFlag (f := .n) _ nofun).comp
    ((State.decimalBlind_setFlag (f := .v) _ nofun).comp
      (State.decimalBlind_setFlag (f := .z) (s.a &&& m == 0x00#8) nofun))) s

/-- The adder reads A and the carry, and no decimal flag. -/
theorem State.decimalBlind_addToA (m : Byte) : State.DecimalBlind (·.addToA m) := fun s b => by
  have hc : (s.setFlag .d b).flag .c = s.flag .c := s.setFlag_flag .d .c b
  simp only [State.addToA, State.setFlag_a, hc]
  exact ((State.decimalBlind_setZN _).comp
    ((State.decimalBlind_setFlag (f := .v) _ nofun).comp (State.decimalBlind_setFlag (f := .c) _ nofun)))
    { s with a := (addWithCarry s.a m (s.flag .c)).byte } b

theorem State.decimalBlind_subFromA (m : Byte) : State.DecimalBlind (·.subFromA m) :=
  State.decimalBlind_addToA (~~~m)

/-- The same of a byte function of a read-modify-write instruction, whose byte is the same too. -/
structure StepDecimalBlind (f : Byte → State → Byte × State) : Prop where
  byte : ∀ o s b, (f o (s.setFlag .d b)).1 = (f o s).1
  state : ∀ o s b, (f o (s.setFlag .d b)).2 = (f o s).2.setFlag .d b

theorem stepDecimalBlind_shiftL : StepDecimalBlind shiftL :=
  ⟨fun _ _ _ => rfl, fun _ => State.decimalBlind_setFlag _ nofun⟩
theorem stepDecimalBlind_shiftR : StepDecimalBlind shiftR :=
  ⟨fun _ _ _ => rfl, fun _ => State.decimalBlind_setFlag _ nofun⟩
theorem stepDecimalBlind_rotL : StepDecimalBlind rotL :=
  ⟨fun o s b => by simp [rotL], fun _ => State.decimalBlind_setFlag _ nofun⟩
theorem stepDecimalBlind_rotR : StepDecimalBlind rotR :=
  ⟨fun o s b => by simp [rotR], fun _ => State.decimalBlind_setFlag _ nofun⟩
theorem stepDecimalBlind_increment : StepDecimalBlind increment := ⟨fun _ _ _ => rfl, fun _ _ _ => rfl⟩
theorem stepDecimalBlind_decrement : StepDecimalBlind decrement := ⟨fun _ _ _ => rfl, fun _ _ _ => rfl⟩

/-! ## Parts of an instruction -/

/-- The decimal flag set in the state that a part of an instruction reached. -/
def Access.setDecimal {α : Type} (b : Bool) : Access α → Access α
  | .ok v s => .ok v (s.setFlag .d b)
  | .fatal kind s => .fatal kind (s.setFlag .d b)

/-- A part of an instruction that has the same outcome whatever the decimal flag is, and leaves it as it was. -/
def Access.DecimalBlind {α : Type} (e : State → Access α) : Prop := ∀ s b, e (s.setFlag .d b) = (e s).setDecimal b

theorem Access.DecimalBlind.andThen {α β : Type} {x : State → Access α} {f : α → State → Access β}
    (hx : Access.DecimalBlind x) (hf : ∀ v, Access.DecimalBlind (f v)) :
    Access.DecimalBlind fun s => (x s).andThen f := fun s b => by
  simp only [hx s b]
  cases x s with
  | ok v t => exact hf v t b
  | fatal kind t => rfl

theorem Access.DecimalBlind.set {g : State → State} (hg : State.DecimalBlind g) :
    Access.DecimalBlind fun s => .set (g s) := fun s b => congrArg (Access.ok ()) (hg s b)

theorem Access.DecimalBlind.ofRead {α : Type} {r : State → Option α} (hr : ∀ s b, r (s.setFlag .d b) = r s) :
    Access.DecimalBlind fun s => Access.ofRead (r s) s := fun s b => by
  simp only [hr s b]
  cases r s <;> rfl

/-- The bus reads no status register. -/
theorem decimalBlind_busWrite (a : Word) (v : Byte) : Access.DecimalBlind (busWrite a v) := fun s b => by
  rcases busWrite_cases a v s with ⟨hs, h⟩ | ⟨mp, hs, hw, h⟩ | ⟨hs, hw, ht, h⟩ | ⟨hs, hw, ht, h⟩ <;> rw [h]
  · exact busWrite_stub v _ hs
  · exact busWrite_window (s := s.setFlag .d b) v hs hw
  · exact busWrite_topCell (s := s.setFlag .d b) v hs hw ht
  · exact busWrite_cell (s := s.setFlag .d b) v hs hw ht

theorem decimalBlind_push (v : Byte) : Access.DecimalBlind (push v) := fun s =>
  decimalBlind_busWrite (zext (s.sp - 1)) v { s with sp := s.sp - 1 }

theorem decimalBlind_pull : Access.DecimalBlind pull :=
  .andThen (.ofRead fun _ _ => rfl) fun _ _ _ => rfl

theorem decimalBlind_pushWord (w : Word) : Access.DecimalBlind (pushWord w) :=
  (decimalBlind_push _).andThen fun _ => decimalBlind_push _

theorem decimalBlind_pullWord : Access.DecimalBlind pullWord :=
  decimalBlind_pull.andThen fun _ => decimalBlind_pull.andThen fun _ _ _ => rfl

/-! ## Operands -/

/-- Addresses come from X, Y, PC and the bus. -/
theorem State.ea_setFlag (s : State) (f : Flag) (b : Bool) (o : Operand) : (s.setFlag f b).ea o = s.ea o := by
  cases o <;> rfl

theorem State.operand_setFlag (s : State) (f : Flag) (b : Bool) (o : Operand) :
    (s.setFlag f b).operand o = s.operand o := by
  cases o <;> rfl

theorem decimalBlind_readEa (o : Operand) : Access.DecimalBlind fun s => Access.ofRead (s.ea o) s :=
  .ofRead fun s b => s.ea_setFlag .d b o

theorem decimalBlind_reading (o : Operand) {g : Byte → State → State} (hg : ∀ m, State.DecimalBlind (g m)) :
    Access.DecimalBlind (reading o g) :=
  .andThen (.ofRead fun s b => s.operand_setFlag .d b o) fun m => .set (hg m)

theorem decimalBlind_storing (o : Operand) (v : Byte) : Access.DecimalBlind (storing o v) :=
  (decimalBlind_readEa o).andThen fun ea => decimalBlind_busWrite ea v

theorem decimalBlind_rmw (o : Operand) {f : Byte → State → Byte × State} (hf : StepDecimalBlind f) :
    Access.DecimalBlind (rmw o f) :=
  (decimalBlind_readEa o).andThen fun ea =>
    Access.DecimalBlind.andThen (.ofRead fun _ _ => rfl) fun old s b => by
      rw [hf.byte, hf.state]
      exact (decimalBlind_busWrite ea _).andThen (f := fun _ t => .ok (f old s).1 t) (fun _ _ _ => rfl) (f old s).2 b

theorem decimalBlind_rmwTarget (t : Target) {f : Byte → State → Byte × State} (hf : StepDecimalBlind f) :
    Access.DecimalBlind (rmwTarget t f) := by
  cases t with
  | acc =>
    intro s b
    simp only [rmwTarget, State.setFlag_a, hf.byte, hf.state s.a s b]
    rfl
  | mem o => exact decimalBlind_rmw o hf

/-- A read-modify-write of memory, and then an update of the state. -/
theorem decimalBlind_combined (o : Operand) {f : Byte → State → Byte × State} {g : Byte → State → State}
    (hf : StepDecimalBlind f) (hg : ∀ r, State.DecimalBlind (g r)) : Access.DecimalBlind (combined o f g) :=
  (decimalBlind_rmw o hf).andThen fun r => .set (hg r)

/-- A shift or rotate, with its flags. -/
theorem decimalBlind_shift (t : Target) {f : Byte → State → Byte × State} (hf : StepDecimalBlind f) :
    Access.DecimalBlind fun s => (rmwTarget t f s).andThen fun r s => .set (s.setZN r) :=
  (decimalBlind_rmwTarget t hf).andThen fun r => .set (State.decimalBlind_setZN r)

/-- No branch tests the decimal flag. -/
theorem decimalBlind_branch (d : Byte) {cond : State → Bool} (hc : ∀ s b, cond (s.setFlag .d b) = cond s) :
    Access.DecimalBlind (branch d cond) :=
  .set fun s b => by
    rw [hc s b]
    cases cond s <;> rfl

/-! ## Whole instructions -/

/-- What an instruction answers, it answers with the decimal flag changed when its effect does not look at it. -/
theorem perform_setFlag_d {i : Instr} {effect : State → Access Unit} (he : Access.DecimalBlind effect) {s t : State}
    (b : Bool) (h : perform i effect s = .next t) :
    perform i effect (s.setFlag .d b) = .next (t.setFlag .d b) := by
  have hb : effect ((s.setFlag .d b).past i) = (effect (s.past i)).setDecimal b := he (s.past i) b
  obtain ⟨op, hop, ⟨u, hu, rfl⟩ | ⟨kind, u, hu, rfl⟩⟩ := perform_next h <;> rw [hu] at hb
  · exact perform_ok (Instr.wf_of_opcode hop) hb
  · exact perform_fatal hop hb

/-- Every instruction but the six that write the decimal flag or move the whole status is `perform` of an effect that
does not look at it. -/
theorem exec_decimalBlind {i : Instr} (h : i ∉ [Instr.sed, .cld, .php, .plp, .brk, .rti]) :
    ∃ effect, (∀ s, exec i s = perform i effect s) ∧ Access.DecimalBlind effect := by
  cases i with
  | lda o => exact ⟨_, exec_lda o, decimalBlind_reading o State.decimalBlind_resultInA⟩
  | ldx o => exact ⟨_, exec_ldx o, decimalBlind_reading o State.decimalBlind_resultInX⟩
  | ldy o => exact ⟨_, exec_ldy o, decimalBlind_reading o State.decimalBlind_resultInY⟩
  | sta o => exact ⟨_, exec_sta o, fun s => decimalBlind_storing o s.a s⟩
  | stx o => exact ⟨_, exec_stx o, fun s => decimalBlind_storing o s.x s⟩
  | sty o => exact ⟨_, exec_sty o, fun s => decimalBlind_storing o s.y s⟩
  | tax => exact ⟨_, exec_tax, .set fun s => State.decimalBlind_resultInX s.a s⟩
  | tay => exact ⟨_, exec_tay, .set fun s => State.decimalBlind_resultInY s.a s⟩
  | txa => exact ⟨_, exec_txa, .set fun s => State.decimalBlind_resultInA s.x s⟩
  | tya => exact ⟨_, exec_tya, .set fun s => State.decimalBlind_resultInA s.y s⟩
  | tsx => exact ⟨_, exec_tsx, .set fun s => State.decimalBlind_resultInX s.sp s⟩
  | txs => exact ⟨_, exec_txs, fun _ _ => rfl⟩
  | adc o => exact ⟨_, exec_adc o, decimalBlind_reading o State.decimalBlind_addToA⟩
  | sbc o => exact ⟨_, exec_sbc o, decimalBlind_reading o State.decimalBlind_subFromA⟩
  | and o => exact ⟨_, exec_and o, decimalBlind_reading o fun m s => State.decimalBlind_resultInA (s.a &&& m) s⟩
  | ora o => exact ⟨_, exec_ora o, decimalBlind_reading o fun m s => State.decimalBlind_resultInA (s.a ||| m) s⟩
  | eor o => exact ⟨_, exec_eor o, decimalBlind_reading o fun m s => State.decimalBlind_resultInA (s.a ^^^ m) s⟩
  | cmp o => exact ⟨_, exec_cmp o, decimalBlind_reading o fun m s => State.decimalBlind_compare s.a m s⟩
  | cpx o => exact ⟨_, exec_cpx o, decimalBlind_reading o fun m s => State.decimalBlind_compare s.x m s⟩
  | cpy o => exact ⟨_, exec_cpy o, decimalBlind_reading o fun m s => State.decimalBlind_compare s.y m s⟩
  | bit o => exact ⟨_, exec_bit o, decimalBlind_reading o State.decimalBlind_bitTest⟩
  | inc o => exact ⟨_, exec_inc o, decimalBlind_combined o stepDecimalBlind_increment State.decimalBlind_setZN⟩
  | dec o => exact ⟨_, exec_dec o, decimalBlind_combined o stepDecimalBlind_decrement State.decimalBlind_setZN⟩
  | inx => exact ⟨_, exec_inx, .set fun s => State.decimalBlind_resultInX (s.x + 1) s⟩
  | iny => exact ⟨_, exec_iny, .set fun s => State.decimalBlind_resultInY (s.y + 1) s⟩
  | dex => exact ⟨_, exec_dex, .set fun s => State.decimalBlind_resultInX (s.x - 1) s⟩
  | dey => exact ⟨_, exec_dey, .set fun s => State.decimalBlind_resultInY (s.y - 1) s⟩
  | asl t => exact ⟨_, exec_asl t, decimalBlind_shift t stepDecimalBlind_shiftL⟩
  | lsr t => exact ⟨_, exec_lsr t, decimalBlind_shift t stepDecimalBlind_shiftR⟩
  | rol t => exact ⟨_, exec_rol t, decimalBlind_shift t stepDecimalBlind_rotL⟩
  | ror t => exact ⟨_, exec_ror t, decimalBlind_shift t stepDecimalBlind_rotR⟩
  | bpl d => exact ⟨_, exec_bpl d, decimalBlind_branch d fun s b => congrArg not (s.setFlag_flag .d .n b)⟩
  | bmi d => exact ⟨_, exec_bmi d, decimalBlind_branch d fun s b => s.setFlag_flag .d .n b⟩
  | bvc d => exact ⟨_, exec_bvc d, decimalBlind_branch d fun s b => congrArg not (s.setFlag_flag .d .v b)⟩
  | bvs d => exact ⟨_, exec_bvs d, decimalBlind_branch d fun s b => s.setFlag_flag .d .v b⟩
  | bcc d => exact ⟨_, exec_bcc d, decimalBlind_branch d fun s b => congrArg not (s.setFlag_flag .d .c b)⟩
  | bcs d => exact ⟨_, exec_bcs d, decimalBlind_branch d fun s b => s.setFlag_flag .d .c b⟩
  | bne d => exact ⟨_, exec_bne d, decimalBlind_branch d fun s b => congrArg not (s.setFlag_flag .d .z b)⟩
  | beq d => exact ⟨_, exec_beq d, decimalBlind_branch d fun s b => s.setFlag_flag .d .z b⟩
  | jmp o => exact ⟨_, exec_jmp o, (decimalBlind_readEa o).andThen fun _ _ _ => rfl⟩
  | jsr target => exact ⟨_, exec_jsr target, .andThen (fun s => decimalBlind_pushWord (s.pc - 1) s) fun _ _ _ => rfl⟩
  | rts => exact ⟨_, exec_rts, decimalBlind_pullWord.andThen fun _ _ _ => rfl⟩
  | pha => exact ⟨_, exec_pha, fun s => decimalBlind_push s.a s⟩
  | pla => exact ⟨_, exec_pla, decimalBlind_pull.andThen fun v => .set (State.decimalBlind_resultInA v)⟩
  | clc => exact ⟨_, exec_clc, .set (State.decimalBlind_setFlag _ nofun)⟩
  | sec => exact ⟨_, exec_sec, .set (State.decimalBlind_setFlag _ nofun)⟩
  | cli => exact ⟨_, exec_cli, .set (State.decimalBlind_setFlag _ nofun)⟩
  | sei => exact ⟨_, exec_sei, .set (State.decimalBlind_setFlag _ nofun)⟩
  | clv => exact ⟨_, exec_clv, .set (State.decimalBlind_setFlag _ nofun)⟩
  | slo o =>
    refine ⟨_, exec_slo o, ?_⟩
    exact decimalBlind_combined o stepDecimalBlind_shiftL fun r s => State.decimalBlind_resultInA (s.a ||| r) s
  | rla o =>
    refine ⟨_, exec_rla o, ?_⟩
    exact decimalBlind_combined o stepDecimalBlind_rotL fun r s => State.decimalBlind_resultInA (s.a &&& r) s
  | sre o =>
    refine ⟨_, exec_sre o, ?_⟩
    exact decimalBlind_combined o stepDecimalBlind_shiftR fun r s => State.decimalBlind_resultInA (s.a ^^^ r) s
  | rra o => exact ⟨_, exec_rra o, decimalBlind_combined o stepDecimalBlind_rotR State.decimalBlind_addToA⟩
  | isc o => exact ⟨_, exec_isc o, decimalBlind_combined o stepDecimalBlind_increment State.decimalBlind_subFromA⟩
  | dcp o =>
    refine ⟨_, exec_dcp o, ?_⟩
    exact decimalBlind_combined o stepDecimalBlind_decrement fun r s => State.decimalBlind_compare s.a r s
  | sax o => exact ⟨_, exec_sax o, fun s => decimalBlind_storing o (s.a &&& s.x) s⟩
  | lax o =>
    refine ⟨_, exec_lax o, ?_⟩
    exact decimalBlind_reading o fun m s => State.decimalBlind_setZN m { s with a := m, x := m }
  | nop op o =>
    refine ⟨_, exec_nop op o, ?_⟩
    cases o with
    | none => exact fun _ _ => rfl
    | some o => exact decimalBlind_reading o fun _ _ _ => rfl
  | jam op => exact ⟨_, exec_jam op, fun _ _ => rfl⟩
  | unknown op => exact ⟨_, exec_unknown op, fun _ _ => rfl⟩
  | sed | cld | php | plp | brk | rti => exact absurd (by decide) h

end Sys2Proof.Machine
end

section
/-! PROOFS. Arithmetic, logic, comparison, bit test, increment and decrement (42_alu.md R142 to R159). -/

namespace Sys2Proof.Machine

open Sys2Proof.Claims

/-- Settles O18: ADC performs a read, and gives the byte to the adder. -/
theorem addWithCarryCompletes : Obligations.AddWithCarryCompletes :=
  reads_of_perform (fun _ => rfl) exec_adc (fun _ _ => rfl) fun _ _ _ => ⟨rfl, rfl, added_addToA rfl rfl⟩

/-- Settles O19: SBC performs a read, and gives the complement of the byte to the adder, which subtracts. -/
theorem subtractWithCarryCompletes : Obligations.SubtractWithCarryCompletes := by
  refine reads_of_perform (fun _ => rfl) exec_sbc (fun _ _ => rfl) fun s m i => ?_
  have hadd : Added s (~~~m).toNat (s.flag .c) ((s.past i).subFromA m).retire := added_addToA rfl rfl
  obtain ⟨ha, hc⟩ := addWithCarry_not s.a m (s.flag .c)
  rw [Byte.not_toNat] at hadd
  exact ⟨rfl, rfl, hadd, ha, ((s.past i).subFromA_flag m .c).trans hc⟩

/-- Settles O20: the flag is the adder's overflow, and the complement that SBC adds is `-1 - m`. -/
theorem overflowIsSigned : Obligations.OverflowIsSigned := by
  refine fun s t o m hm => ⟨fun h => ?_, fun h => ?_⟩
  · rw [(exec_adc_next hm h).2, addWithCarry_overflow_iff]
  · rw [(exec_sbc_next hm h).2, addWithCarry_overflow_iff, Byte.not_toInt]
    omega

/-- Settles O21: the two instructions add the byte and then its complement, with opposite carries. -/
theorem subtractUndoesAdd : Obligations.SubtractUndoesAdd := by
  intro s t u v o o' m hm hm' hadc ha hc hsbc
  rw [(exec_sbc_next hm' hsbc).1, ha, hc, (exec_adc_next hm hadc).1, addWithCarry_not_addWithCarry]

/-- Settles O22: each performs a read, and puts its result in A. -/
theorem logicCompletes : Obligations.LogicCompletes :=
  ⟨reads_of_perform (fun _ => rfl) exec_and (fun _ _ => rfl) fun _ _ _ => ⟨rfl, rfl, rfl, flagsBecome_zn rfl⟩,
    reads_of_perform (fun _ => rfl) exec_ora (fun _ _ => rfl) fun _ _ _ => ⟨rfl, rfl, rfl, flagsBecome_zn rfl⟩,
    reads_of_perform (fun _ => rfl) exec_eor (fun _ _ => rfl) fun _ _ _ => ⟨rfl, rfl, rfl, flagsBecome_zn rfl⟩⟩

/-- Settles O23: each performs a read, and compares its register with the byte. -/
theorem comparesComplete : Obligations.ComparesComplete :=
  ⟨reads_of_compare (reg := State.a) (fun _ => rfl) exec_cmp fun _ _ => rfl,
    reads_of_compare (reg := State.x) (fun _ => rfl) exec_cpx fun _ _ => rfl,
    reads_of_compare (reg := State.y) (fun _ => rfl) exec_cpy fun _ _ => rfl⟩

/-- Settles O24: BIT performs a read, and tests the byte. -/
theorem bitTestCompletes : Obligations.BitTestCompletes :=
  reads_of_perform (fun _ => rfl) exec_bit (fun _ _ => rfl) fun _ _ _ =>
    ⟨by simp, by simp, by simp, flagsBecome_bitTest rfl⟩

/-- Settles O25: each performs a read-modify-write that steps the byte and leaves the flags, and then sets Z and N. -/
theorem memoryStepsComplete : Obligations.MemoryStepsComplete :=
  ⟨modifies_of_perform (fun _ => rfl) rfl exec_inc carryOnly_increment (fun s i old => increment_byte old (s.past i))
      (fun _ _ => rfl) fun _ _ _ _ ha hp => ⟨by simpa using ha, flagsBecome_zn (State.setZN_p_congr hp _)⟩,
    modifies_of_perform (fun _ => rfl) rfl exec_dec carryOnly_decrement (fun s i old => decrement_byte old (s.past i))
      (fun _ _ => rfl) fun _ _ _ _ ha hp => ⟨by simpa using ha, flagsBecome_zn (State.setZN_p_congr hp _)⟩⟩

/-- Settles O26: each has no operand and cannot fail, and its effect is one register, with Z and N. -/
theorem indexStepsComplete : Obligations.IndexStepsComplete := fun s =>
  ⟨⟨_, (exec_inx s).trans (perform_ok rfl rfl), rfl, Byte.add_one_toNat s.x, flagsBecome_zn rfl⟩,
    ⟨_, (exec_iny s).trans (perform_ok rfl rfl), rfl, Byte.add_one_toNat s.y, flagsBecome_zn rfl⟩,
    ⟨_, (exec_dex s).trans (perform_ok rfl rfl), rfl, Byte.sub_one_toNat s.x, flagsBecome_zn rfl⟩,
    ⟨_, (exec_dey s).trans (perform_ok rfl rfl), rfl, Byte.sub_one_toNat s.y, flagsBecome_zn rfl⟩,
    rfl, rfl, rfl, rfl⟩

/-- Settles O55: the instruction performs an effect that does not look at the decimal flag. -/
theorem decimalFlagHasNoEffect : Obligations.DecimalFlagHasNoEffect := by
  intro s t i b hi h
  obtain ⟨effect, hexec, hblind⟩ := exec_decimalBlind hi
  rw [hexec] at h ⊢
  exact perform_setFlag_d hblind b h

end Sys2Proof.Machine
end

section
/-! PROOFS. The rules of the shift primitives (43_shift_rotate.md R165): the new byte of each as a number, and the carry it
leaves; and the shared cases of the instructions on memory and on A (R166 to R169). -/

namespace Sys2Proof.Machine

open Sys2Proof.Claims

theorem carryByte_toNat (c : Bool) : (carryByte c).toNat = c.toNat := by cases c <;> rfl

theorem Byte.shiftLeft_one_toNat (o : Byte) : (o <<< 1).toNat = 2 * o.toNat % 256 := by
  rw [BitVec.toNat_shiftLeft, Nat.shiftLeft_eq, Nat.mul_comm]

theorem Byte.shiftRight_one_toNat (o : Byte) : (o >>> 1).toNat = o.toNat / 2 := by
  rw [BitVec.toNat_ushiftRight, Nat.shiftRight_eq_div_pow]

/-- A carry moved to bit 7 as a number. -/
theorem carryByte_shiftLeft_toNat (c : Bool) : (carryByte c <<< 7).toNat = 2 ^ 7 * c.toNat := by cases c <;> rfl

theorem shiftL_byte (o : Byte) (s : State) : (shiftL o s).1 = shiftedLeft o := by
  rw [shiftedLeft, ← Byte.shiftLeft_one_toNat, BitVec.ofNat_toNat, BitVec.setWidth_eq, shiftL]

theorem shiftR_byte (o : Byte) (s : State) : (shiftR o s).1 = shiftedRight o := by
  rw [shiftedRight, ← Byte.shiftRight_one_toNat, BitVec.ofNat_toNat, BitVec.setWidth_eq, shiftR]

/-- The bit rotated in from the right takes the place that the left shift cleared. -/
theorem rotL_byte (o : Byte) (s : State) : (rotL o s).1 = rotatedLeft o (s.flag .c) := by
  have hor : (o <<< 1 ||| carryByte (s.flag .c)).toNat = 2 * o.toNat % 256 + (s.flag .c).toNat := by
    have heven : 2 * o.toNat % 256 = 2 ^ 1 * (o.toNat % 128) := by omega
    rw [BitVec.toNat_or, Byte.shiftLeft_one_toNat, carryByte_toNat, heven,
      Nat.two_pow_add_eq_or_of_lt (s.flag .c).toNat_lt]
  rw [rotatedLeft, ← hor, BitVec.ofNat_toNat, BitVec.setWidth_eq, rotL]

/-- The bit rotated in from the left takes the place that the right shift cleared. -/
theorem rotR_byte (o : Byte) (s : State) : (rotR o s).1 = rotatedRight o (s.flag .c) := by
  have hor : (o >>> 1 ||| carryByte (s.flag .c) <<< 7).toNat = o.toNat / 2 + 128 * (s.flag .c).toNat := by
    have hlow : o.toNat / 2 < 2 ^ 7 := by omega
    rw [BitVec.toNat_or, Byte.shiftRight_one_toNat, carryByte_shiftLeft_toNat, Nat.or_comm,
      ← Nat.two_pow_add_eq_or_of_lt hlow, Nat.add_comm]
  rw [rotatedRight, ← hor, BitVec.ofNat_toNat, BitVec.setWidth_eq, rotR]

/-- A shift primitive (R165): its new byte from the old one and the carry, and the carry it leaves from the old byte. -/
structure ShiftPrimitive (g : Byte → State → Byte × State) (new : Byte → Bool → Byte) (carry : Byte → Bool) : Prop where
  byte : ∀ o s, (g o s).1 = new o (s.flag .c)
  state : ∀ o s, (g o s).2 = s.setFlag .c (carry o)

theorem shiftPrimitive_shiftL : ShiftPrimitive shiftL (fun o _ => shiftedLeft o) (fun o => (leftCarry o).2) :=
  ⟨shiftL_byte, fun o s => congrArg (s.setFlag .c) (Byte.bit7 o)⟩

theorem shiftPrimitive_shiftR : ShiftPrimitive shiftR (fun o _ => shiftedRight o) (fun o => (rightCarry o).2) :=
  ⟨shiftR_byte, fun o s => congrArg (s.setFlag .c) (Byte.bit0 o)⟩

theorem shiftPrimitive_rotL : ShiftPrimitive rotL rotatedLeft (fun o => (leftCarry o).2) :=
  ⟨rotL_byte, fun o s => congrArg (s.setFlag .c) (Byte.bit7 o)⟩

theorem shiftPrimitive_rotR : ShiftPrimitive rotR rotatedRight (fun o => (rightCarry o).2) :=
  ⟨rotR_byte, fun o s => congrArg (s.setFlag .c) (Byte.bit0 o)⟩

theorem ShiftPrimitive.carryOnly {g : Byte → State → Byte × State} {new : Byte → Bool → Byte} {carry : Byte → Bool}
    (hg : ShiftPrimitive g new carry) : CarryOnly g :=
  ⟨fun o s => .inr ⟨carry o, hg.state o s⟩⟩

/-- A carry written before `SetZN(v)` stays, and the other flags are as they were. -/
theorem flagsBecome_carry_zn {s u t : State} {b : Bool} {v : Byte} (hu : u.p = (s.setFlag .c b).p)
    (ht : t.p = (u.setZN v).p) : FlagsBecome s t ((.c, b) :: zn v) := by
  intro f
  rw [flagsBecome_zn ht, State.flag_congr hu, State.setFlag_flag]
  cases f <;> rfl

/-! ## Whole instructions -/

/-- No operand in memory has the accumulator mode. -/
theorem lookup_mode_acc_cons {α : Type} {v : α} {l : List (Mode × α)} (o : Operand) :
    ((Mode.acc, v) :: l).lookup o.mode = l.lookup o.mode := by
  cases o <;> rfl

/-- What ASL, LSR, ROL and ROR do with their primitive (43_shift_rotate.md R166 to R169). -/
def shifting (t : Target) (g : Byte → State → Byte × State) (s : State) : Access Unit :=
  (rmwTarget t g s).andThen fun r s => .set (s.setZN r)

/-- In memory, a shift is a read-modify-write that leaves its carry, and then sets Z and N. -/
theorem modifies_of_shift {f : Target → Instr} {encodings : List (Mode × Byte)} {g : Byte → State → Byte × State}
    {new : Byte → Bool → Byte} {carry : Byte → Bool} (hg : ShiftPrimitive g new carry)
    (hop : ∀ o, (f (.mem o)).opcode = encodings.lookup o.mode) (himm : encodings.lookup .imm = none)
    (hexec : ∀ t s, exec (f t) s = perform (f t) (shifting t g) s) :
    Modifies (fun o => f (.mem o)) encodings (fun s old => new old (s.flag .c))
      (fun s old t => t.a = s.a ∧ FlagsBecome s t ((.c, carry old) :: zn (new old (s.flag .c)))) := by
  refine modifies_of_perform hop himm (fun o => hexec (.mem o)) hg.carryOnly (fun s i old => hg.byte old (s.past i))
    (fun _ _ => rfl) fun s i old u ha hp => ⟨by simpa using ha, ?_⟩
  rw [hg.state] at hp
  exact flagsBecome_carry_zn hp rfl

/-- On A, a shift cannot fail, and writes A, its carry, Z and N. -/
theorem exec_shift_acc {f : Target → Instr} {g : Byte → State → Byte × State} {new : Byte → Bool → Byte}
    {carry : Byte → Bool} (hg : ShiftPrimitive g new carry) (hwf : (f .acc).wf = true)
    (hexec : ∀ t s, exec (f t) s = perform (f t) (shifting t g) s) (s : State) :
    ∃ t, exec (f .acc) s = .next t ∧ t = { ran s (f .acc) with a := new s.a (s.flag .c), p := t.p } ∧
      FlagsBecome s t ((.c, carry s.a) :: zn (new s.a (s.flag .c))) := by
  have hbyte : (g s.a (s.past (f .acc))).1 = new s.a (s.flag .c) := hg.byte s.a (s.past (f .acc))
  have heffect : shifting .acc g (s.past (f .acc)) =
      .ok () (State.setZN { (s.past (f .acc)).setFlag .c (carry s.a) with a := new s.a (s.flag .c) }
        (new s.a (s.flag .c))) := by
    rw [← hbyte, ← hg.state]
    rfl
  exact ⟨_, (hexec .acc s).trans (perform_ok hwf heffect), rfl,
    flagsBecome_carry_zn (u := State.setFlag { s with a := new s.a (s.flag .c) } .c (carry s.a)) rfl rfl⟩

end Sys2Proof.Machine
end

section
/-! PROOFS. Shifts and rotates (43_shift_rotate.md R166 to R169). -/

namespace Sys2Proof.Machine

open Sys2Proof.Claims

/-- Settles O27: each instruction shifts the byte with its primitive, in memory and on A. -/
theorem shiftsComplete : Obligations.ShiftsComplete := by
  refine ⟨modifies_of_shift shiftPrimitive_shiftL lookup_mode_acc_cons rfl exec_asl,
    modifies_of_shift shiftPrimitive_shiftR lookup_mode_acc_cons rfl exec_lsr,
    modifies_of_shift shiftPrimitive_rotL lookup_mode_acc_cons rfl exec_rol,
    modifies_of_shift shiftPrimitive_rotR lookup_mode_acc_cons rfl exec_ror, fun s i op new carry h => ?_⟩
  simp only [List.mem_cons, Prod.mk.injEq, List.not_mem_nil, or_false] at h
  obtain ⟨rfl, rfl, rfl, rfl⟩ | ⟨rfl, rfl, rfl, rfl⟩ | ⟨rfl, rfl, rfl, rfl⟩ | ⟨rfl, rfl, rfl, rfl⟩ := h
  · exact ⟨rfl, exec_shift_acc shiftPrimitive_shiftL rfl exec_asl s⟩
  · exact ⟨rfl, exec_shift_acc shiftPrimitive_shiftR rfl exec_lsr s⟩
  · exact ⟨rfl, exec_shift_acc shiftPrimitive_rotL rfl exec_rol s⟩
  · exact ⟨rfl, exec_shift_acc shiftPrimitive_rotR rfl exec_ror s⟩

end Sys2Proof.Machine
end

section
/-! PROOFS. The rules of control transfer, the stack and single flags (44_control_stack_flags.md R175 to R197): the PC
past an instruction and after a branch as numbers, what pushes and pulls do in terms of the stack bytes, and one flag
written alone. -/

namespace Sys2Proof.Machine

open Sys2Proof.Claims

/-! ## PC as a number -/

theorem State.past_pc_toNat (s : State) (i : Instr) : (s.past i).pc.toNat = (s.pc.toNat + i.length) % 65536 := by
  rw [State.past_pc, BitVec.toNat_add, BitVec.toNat_ofNat, Nat.add_mod_mod]

/-- A displacement is added as a signed number (R175). -/
theorem add_sext_toNat (w : Word) (d : Byte) : ((w + sext d).toNat : Int) = ((w.toNat : Int) + d.toInt) % 65536 := by
  have hadd : (w + sext d).toNat = (w.toNat + (sext d).toNat) % 65536 := BitVec.toNat_add w (sext d)
  rw [hadd, ← sext_toInt d, BitVec.toInt_eq_toNat_cond]
  omega

/-- The word that JSR pushes is the address of its last byte (R185). -/
theorem past_jsr_pc_sub_one_toNat (s : State) (target : Word) :
    ((s.past (.jsr target)).pc - 1).toNat = (s.pc.toNat + 2) % 65536 := by
  have hlength : (Instr.jsr target).length = 3 := rfl
  have hsub : ((s.past (.jsr target)).pc - 1).toNat = (65535 + (s.past (.jsr target)).pc.toNat) % 65536 :=
    BitVec.toNat_sub _ 1
  rw [hsub, State.past_pc_toNat, hlength]
  omega

/-! ## Branches -/

/-- `Branch(cond)` moves PC and nothing else (R175). -/
theorem branch_eq (d : Byte) (cond : State → Bool) (s : State) :
    branch d cond s = .ok () { s with pc := if cond s then s.pc + sext d else s.pc } := by
  unfold branch
  split <;> rfl

/-- An instruction of two bytes that performs a branch completes, at the target or past its bytes. -/
theorem exec_branch {i : Instr} {d : Byte} {cond : State → Bool} {s : State} (hwf : i.wf = true)
    (hlength : i.length = 2) (hexec : exec i s = perform i (branch d cond) s) (hcond : cond (s.past i) = cond s) :
    ∃ t, exec i s = .next t ∧ t = { ran s i with pc := t.pc } ∧
      (t.pc.toNat : Int) = ((s.pc.toNat : Int) + 2 + if cond s then d.toInt else 0) % 65536 := by
  have hpast := s.past_pc_toNat i
  rw [hlength] at hpast
  refine ⟨_, hexec.trans (perform_ok hwf (branch_eq d cond _)), rfl, ?_⟩
  simp only [State.retire_pc, hcond]
  cases cond s with
  | true =>
    simp only [if_true, add_sext_toNat, hpast]
    omega
  | false =>
    simp only [Bool.false_eq_true, if_false, hpast]
    omega

/-! ## The stack -/

/-- A push by an instruction: PC being past the instruction's bytes makes no difference to it (20_memory.md R57). -/
theorem push_past (v : Byte) (s : State) (i : Instr) :
    ∃ t, push v (s.past i) = .ok () (t.past i) ∧ Pushed s t v := by
  obtain ⟨t, he, ht, hsp, hst⟩ := push_pushed v (s.past i)
  have hpast : t = State.past { t with pc := s.pc } i := by
    rw [ht]
    rfl
  refine ⟨{ t with pc := s.pc }, he.trans (congrArg _ hpast), ?_, hsp, hst⟩
  rw [ht]
  rfl

/-- A push of a word by an instruction is two pushes, the high byte first (R185). -/
theorem pushWord_past (w : Word) (s : State) (i : Instr) :
    ∃ u v, pushWord w (s.past i) = .ok () (v.past i) ∧ Pushed s u (highByte w) ∧ Pushed u v (lowByte w) := by
  obtain ⟨u, he, hu⟩ := push_past (highByte w) s i
  obtain ⟨v, he', hv⟩ := push_past (lowByte w) u i
  exact ⟨u, v, by rw [pushWord, he, Access.ok_andThen, he'], hu, hv⟩

/-- An instruction that pushes a byte, and does nothing else, completes (R187, R189). -/
theorem exec_push {i : Instr} {value : State → Byte} {s : State} (hwf : i.wf = true)
    (hexec : exec i s = perform i (fun s => push (value s) s) s) (hvalue : value (s.past i) = value s) :
    ∃ u, exec i s = .next (ran u i) ∧ Pushed s u (value s) := by
  obtain ⟨u, he, hu⟩ := push_past (value s) s i
  rw [← hvalue] at he
  exact ⟨u, hexec.trans (perform_ok hwf he), hu⟩

/-- With no register window a push writes the cell that SP moves to, and every other cell reads as before
(20_memory.md R57). -/
theorem read_of_pushed {s t : State} {v : Byte} (hw : s.noWindow) (h : Pushed s t v) :
    t.mapper = s.mapper ∧ ∀ b, t.mem.read b = if b = t.sp.toNat then v else s.mem.read b := by
  obtain ⟨-, hsp, hst⟩ := h
  rw [stackCell_below, ← hsp] at hst
  simpa [Stored, mirror_zext, isStub_zext, State.windowMapper_of_noWindow hw] using hst

theorem stackByte_zero (s : State) : stackByte s 0 = s.mem.read s.sp.toNat := by
  rw [stackByte, Nat.add_zero, Nat.mod_eq_of_lt s.sp.isLt]

/-- The byte above SP, which at the page's end is the page's first (20_memory.md R59). -/
theorem stackByte_one (s : State) : stackByte s 1 = s.mem.read (s.sp + 1).toNat := by
  rw [stackByte, Byte.add_one_toNat]

/-- With no register window two pushes leave their bytes at SP and above it, and SP is two lower. -/
theorem stackBytes_of_pushed_pushed {s u t : State} {v w : Byte} (hw : s.noWindow) (h : Pushed s u v)
    (h' : Pushed u t w) : stackByte t 0 = w ∧ stackByte t 1 = v ∧ t.sp + 2 = s.sp := by
  obtain ⟨hm, hu⟩ := read_of_pushed hw h
  obtain ⟨-, ht⟩ := read_of_pushed (noWindow_of_mapper_eq hm hw) h'
  obtain ⟨-, hsp, -⟩ := h
  obtain ⟨-, hsp', -⟩ := h'
  have habove : t.sp + 1 = u.sp := by rw [hsp', BitVec.sub_add_cancel]
  have hne : u.sp.toNat ≠ t.sp.toNat := by
    rw [← habove, Byte.add_one_toNat]
    omega
  refine ⟨?_, ?_, ?_⟩
  · rw [stackByte_zero, ht, if_pos rfl]
  · rw [stackByte_one, habove, ht, if_neg hne, hu, if_pos rfl]
  · have htwo : t.sp + 2 = t.sp + 1 + 1 := (BitVec.add_assoc t.sp 1 1).symm
    rw [htwo, habove, hsp, BitVec.sub_add_cancel]

theorem pull_stackByte (s : State) : pull s = .ok (stackByte s 0) { s with sp := s.sp + 1 } := by
  rw [pull_eq, stackByte_zero]

theorem pullWord_stackBytes (s : State) :
    pullWord s = .ok (word (stackByte s 1) (stackByte s 0)) { s with sp := s.sp + 2 } := by
  rw [pullWord_eq, stackByte_zero, stackByte_one]

/-- An instruction that pulls a byte, and then changes registers with it, completes (R188, R190). -/
theorem exec_pull {i : Instr} {g : Byte → State → State} {s : State} (hwf : i.wf = true)
    (hexec : exec i s = perform i (fun s => (pull s).andThen fun v s => .set (g v s)) s) :
    exec i s = .next (g (stackByte s 0) { s.past i with sp := s.sp + 1 }).retire := by
  refine hexec.trans (perform_ok hwf ?_)
  rw [pull_stackByte, Access.ok_andThen, Access.set_eq]
  rfl

/-! ## One flag -/

/-- A status register in which one flag was written has every other flag as it was (10_state.md R25). -/
theorem flagsBecome_setFlag {s t : State} {f : Flag} {b : Bool} (h : t.p = (s.setFlag f b).p) :
    FlagsBecome s t [(f, b)] := by
  intro g
  rw [State.flag_congr h, State.setFlag_flag]
  by_cases hg : f = g
  · simp [hg]
  · have hbeq : (g == f) = false := beq_false_of_ne (Ne.symm hg)
    simp [hg, hbeq, List.lookup_cons]

/-- An instruction that writes one flag, and does nothing else, completes (R191 to R197). -/
theorem exec_setFlag {i : Instr} {f : Flag} {b : Bool} {s : State} (hwf : i.wf = true)
    (hexec : exec i s = perform i (fun s => .set (s.setFlag f b)) s) :
    ∃ t, exec i s = .next t ∧ t = { ran s i with p := t.p } ∧ FlagsBecome s t [(f, b)] :=
  ⟨_, hexec.trans (perform_ok hwf rfl), rfl, flagsBecome_setFlag rfl⟩

end Sys2Proof.Machine
end

section
/-! PROOFS. Branches, jumps, subroutines, and the stack and flag instructions (44_control_stack_flags.md R175 to R197). -/

namespace Sys2Proof.Machine

open Sys2Proof.Claims

/-- Settles O28: each branch tests its flag, which the move past its two bytes leaves alone. -/
theorem branchesComplete : Obligations.BranchesComplete := by
  intro s d i op taken h
  simp only [List.mem_cons, Prod.mk.injEq, List.not_mem_nil, or_false] at h
  obtain ⟨rfl, rfl, rfl⟩ | ⟨rfl, rfl, rfl⟩ | ⟨rfl, rfl, rfl⟩ | ⟨rfl, rfl, rfl⟩ | ⟨rfl, rfl, rfl⟩ | ⟨rfl, rfl, rfl⟩ |
    ⟨rfl, rfl, rfl⟩ | ⟨rfl, rfl, rfl⟩ := h
  · exact ⟨rfl, exec_branch (cond := fun s => !s.flag .n) rfl rfl (exec_bpl d s) rfl⟩
  · exact ⟨rfl, exec_branch (cond := fun s => s.flag .n) rfl rfl (exec_bmi d s) rfl⟩
  · exact ⟨rfl, exec_branch (cond := fun s => !s.flag .v) rfl rfl (exec_bvc d s) rfl⟩
  · exact ⟨rfl, exec_branch (cond := fun s => s.flag .v) rfl rfl (exec_bvs d s) rfl⟩
  · exact ⟨rfl, exec_branch (cond := fun s => !s.flag .c) rfl rfl (exec_bcc d s) rfl⟩
  · exact ⟨rfl, exec_branch (cond := fun s => s.flag .c) rfl rfl (exec_bcs d s) rfl⟩
  · exact ⟨rfl, exec_branch (cond := fun s => !s.flag .z) rfl rfl (exec_bne d s) rfl⟩
  · exact ⟨rfl, exec_branch (cond := fun s => s.flag .z) rfl rfl (exec_beq d s) rfl⟩

/-- Settles O29: the jump's one effect reads its address, which does not depend on PC, and it fails where that read
does. -/
theorem jumpCompletes : Obligations.JumpCompletes := by
  refine fun s o op => ⟨rfl, fun henc => ?_⟩
  have hopcode : (Instr.jmp o).opcode = some op := henc
  have hea : (s.past (.jmp o)).ea o = s.ea o := s.ea_past (.jmp o) fun hm => by
    rw [hm] at henc
    cases henc
  refine ⟨fun a ha => ?_, fun hnone => ?_⟩
  · refine (exec_jmp o s).trans
      (perform_ok (t := { s.past (.jmp o) with pc := a }) (Instr.wf_of_opcode hopcode) ?_)
    rw [hea, ha, Access.ofRead_some, Access.ok_andThen, Access.set_eq]
  · refine (exec_jmp o s).trans (perform_fatal (t := s.past (.jmp o)) hopcode ?_)
    rw [hea, hnone, Access.ofRead_none, Access.fatal_andThen]

/-- Settles O30: both pushes complete, and the word they push is the address of the last byte of the JSR. -/
theorem subroutineCallCompletes : Obligations.SubroutineCallCompletes := by
  intro s target
  obtain ⟨u, v, hpush, hu, hv⟩ := pushWord_past ((s.past (.jsr target)).pc - 1) s (.jsr target)
  rw [highByte, past_jsr_pc_sub_one_toNat] at hu
  rw [lowByte, past_jsr_pc_sub_one_toNat, Nat.mod_mod_of_dvd _ (by decide)] at hv
  refine ⟨rfl, u, v, _, (exec_jsr target s).trans
    (perform_ok (t := { v.past (.jsr target) with pc := target }) rfl ?_), hu, hv, rfl⟩
  rw [hpush, Access.ok_andThen, Access.set_eq]

/-- Settles O31: a pull of a word always completes. -/
theorem subroutineReturnCompletes : Obligations.SubroutineReturnCompletes := by
  intro s
  have hpull : pullWord (s.past .rts) =
      .ok (word (stackByte s 1) (stackByte s 0)) { s.past .rts with sp := s.sp + 2 } := pullWord_stackBytes _
  refine ⟨rfl, _, (exec_rts s).trans (perform_ok (t := { s.past .rts with
    sp := s.sp + 2
    pc := word (stackByte s 1) (stackByte s 0) + 1 }) rfl ?_), rfl, ?_⟩
  · rw [hpull, Access.ok_andThen, Access.set_eq]
  · rw [← word_toNat]
    exact BitVec.toNat_add _ 1

/-- Settles O32: the two pushes of the JSR leave the address of its last byte in the two bytes that the RTS pulls. -/
theorem returnAfterCall : Obligations.ReturnAfterCall := by
  intro s t u target hw hcall hreturn
  obtain ⟨-, p, q, _, hcall', hp, hq, rfl⟩ := subroutineCallCompletes s target
  obtain ⟨-, _, hreturn', hu, hpc⟩ := subroutineReturnCompletes t
  obtain rfl := Host.Outcome.next.inj (hcall.symm.trans hcall')
  obtain rfl := Host.Outcome.next.inj (hreturn.symm.trans hreturn')
  obtain ⟨hlow, hhigh, hsp⟩ := stackBytes_of_pushed_pushed hw hp hq
  have hregisters : q.a = s.a ∧ q.x = s.x ∧ q.y = s.y ∧ q.p = s.p := by
    rw [hq.1, hp.1]
    exact ⟨rfl, rfl, rfl, rfl⟩
  have hpc : u.pc.toNat = ((stackByte q 1).toNat * 256 + (stackByte q 0).toNat + 1) % 65536 := hpc
  rw [hhigh, hlow, BitVec.toNat_ofNat, BitVec.toNat_ofNat] at hpc
  refine ⟨by omega, ?_⟩
  rw [hu]
  exact ⟨hsp, hregisters⟩

/-- Settles O33: each performs one push, and the flags are the bits of the status in their order. -/
theorem pushesComplete : Obligations.PushesComplete := fun s =>
  ⟨rfl, rfl, rfl, exec_push (value := State.a) rfl (exec_pha s) rfl,
    exec_push (value := fun s => pushedStatus s.p) rfl (exec_php s) rfl⟩

/-- Settles O34: a pull always completes, and its byte goes to A with Z and N, or to the status. -/
theorem pullsComplete : Obligations.PullsComplete := fun s =>
  ⟨rfl, rfl, ⟨_, exec_pull rfl (exec_pla s), rfl, flagsBecome_zn rfl⟩, exec_pull rfl (exec_plp s)⟩

/-- Settles O35: each performs the write of its one flag. -/
theorem flagInstructionsComplete : Obligations.FlagInstructionsComplete := by
  intro s i op f b h
  simp only [List.mem_cons, Prod.mk.injEq, List.not_mem_nil, or_false] at h
  obtain ⟨rfl, rfl, rfl, rfl⟩ | ⟨rfl, rfl, rfl, rfl⟩ | ⟨rfl, rfl, rfl, rfl⟩ | ⟨rfl, rfl, rfl, rfl⟩ |
    ⟨rfl, rfl, rfl, rfl⟩ | ⟨rfl, rfl, rfl, rfl⟩ | ⟨rfl, rfl, rfl, rfl⟩ := h
  · exact ⟨rfl, exec_setFlag rfl (exec_clc s)⟩
  · exact ⟨rfl, exec_setFlag rfl (exec_sec s)⟩
  · exact ⟨rfl, exec_setFlag rfl (exec_cli s)⟩
  · exact ⟨rfl, exec_setFlag rfl (exec_sei s)⟩
  · exact ⟨rfl, exec_setFlag rfl (exec_cld s)⟩
  · exact ⟨rfl, exec_setFlag rfl (exec_sed s)⟩
  · exact ⟨rfl, exec_setFlag rfl (exec_clv s)⟩

end Sys2Proof.Machine
end

section
/-! PROOFS. The rules of the combined instructions and the no-ops (45_undocumented.md R200 to R210): the flags and the sum
of a second primitive that runs after the first one has written the carry, and the opcodes of the no-ops. -/

namespace Sys2Proof.Machine

open Sys2Proof.Claims

/-! ## The second primitive -/

/-- Written flags may be told from an earlier state, if the flags that are not written were the same in it. -/
theorem flagsBecome_of_unwritten {s u t : State} {l : List (Flag × Bool)}
    (hu : ∀ f, l.lookup f = none → u.flag f = s.flag f) (h : FlagsBecome u t l) : FlagsBecome s t l := by
  intro f
  rw [h f]
  cases hf : l.lookup f with
  | some b => rfl
  | none => exact hu f hf

/-- An addition writes the carry, so it may be told from the state before the carry it adds was put there. -/
theorem added_addToA_of_carry {s u : State} {c : Bool} (m : Byte) (ha : u.a = s.a) (hp : u.p = (s.setFlag .c c).p) :
    Added s m.toNat c (u.addToA m).retire := by
  have hflag (f : Flag) : u.flag f = if .c = f then c else s.flag f := by rw [State.flag_congr hp, State.setFlag_flag]
  obtain ⟨hbyte, hflags⟩ : Added u m.toNat (u.flag .c) (u.addToA m).retire := added_addToA rfl rfl
  rw [hflag, if_pos rfl, ha] at hbyte hflags
  refine ⟨hbyte, flagsBecome_of_unwritten (fun f hf => ?_) hflags⟩
  rw [hflag, if_neg]
  rintro rfl
  cases hf

/-- A flag written with its own value leaves the status register as it was. -/
theorem State.setFlag_flag_self (s : State) (f : Flag) : (s.setFlag f (s.flag f)).p = s.p :=
  State.p_eq_of_flags fun g => by
    rw [State.setFlag_flag]
    split
    · rename_i h
      rw [h]
    · rfl

/-- A shift of memory, and then a logic operation of A with the new byte: the shift's carry stays (R201 to R203). -/
theorem modifies_of_shift_logic {f : Operand → Instr} {encodings : List (Mode × Byte)}
    {g : Byte → State → Byte × State} {new : Byte → Bool → Byte} {carry : Byte → Bool} {logic : Byte → Byte → Byte}
    (hg : ShiftPrimitive g new carry)
    (hop : ∀ o, (f o).opcode = encodings.lookup o.mode) (himm : encodings.lookup .imm = none)
    (hexec : ∀ o s, exec (f o) s = perform (f o) (combined o g fun r s => s.resultInA (logic s.a r)) s) :
    Modifies f encodings (fun s old => new old (s.flag .c))
      (fun s old t => t.a = logic s.a (new old (s.flag .c)) ∧ FlagsBecome s t ((.c, carry old) :: zn t.a)) := by
  refine modifies_of_perform hop himm hexec hg.carryOnly (fun s i old => hg.byte old (s.past i)) (fun _ _ => rfl)
    fun s i old u ha hp => ⟨by rw [← ha]; rfl, ?_⟩
  rw [hg.state] at hp
  exact flagsBecome_carry_zn (u := { u with a := logic u.a (new old (s.flag .c)) }) hp rfl

/-! ## The no-ops -/

theorem opcode_nop_eq {op : Byte} {o : Option Operand} (h : op ∈ nopOpcodes (nopMode o)) :
    (Instr.nop op o).opcode = some op := by
  simp [Instr.opcode, h]

/-- A no-op without an operand does nothing (R209). -/
theorem exec_nop_implied {op : Byte} (h : (Instr.nop op none).opcode = some op) (s : State) :
    exec (.nop op none) s = .next (ran s (.nop op none)) :=
  (exec_nop op none s).trans (perform_ok (t := s.past (.nop op none)) (Instr.wf_of_opcode h) rfl)

/-- A no-op with an operand performs a read, and does nothing with the byte (R210). -/
theorem exec_nop_operand (op : Byte) (o : Operand) (s : State) :
    exec (.nop op (some o)) s = perform (.nop op (some o)) (reading o fun _ s => s) s := exec_nop op (some o) s

/-- A no-op whose operand can be read does nothing (R210). -/
theorem exec_nop_of_operand {op : Byte} {o : Operand} {s : State} {m : Byte}
    (h : (Instr.nop op (some o)).opcode = some op) (hm : s.operand o = some m) :
    exec (.nop op (some o)) s = .next (ran s (.nop op (some o))) := by
  rw [← State.operand_past s (.nop op (some o))] at hm
  exact (exec_nop_operand op o s).trans (perform_ok (Instr.wf_of_opcode h) (reading_eq hm))

/-- A no-op whose operand cannot be read fails (60_exceptions.md R222). -/
theorem exec_nop_of_operand_none {op : Byte} {o : Operand} {s : State}
    (h : (Instr.nop op (some o)).opcode = some op) (hm : s.operand o = none) :
    exec (.nop op (some o)) s = .next (failed s (.nop op (some o)) .topCellAccess op) := by
  rw [← State.operand_past s (.nop op (some o))] at hm
  exact (exec_nop_operand op o s).trans (perform_fatal h (reading_none hm))

end Sys2Proof.Machine
end

section
/-! PROOFS. The combined instructions and the no-ops (45_undocumented.md R201 to R206, R209, R210). -/

namespace Sys2Proof.Machine

open Sys2Proof.Claims

/-- Settles O36: each shifts the byte in memory with its primitive, and then combines A with the new byte. -/
theorem shiftThenLogicComplete : Obligations.ShiftThenLogicComplete :=
  ⟨modifies_of_shift_logic (logic := (· ||| ·)) shiftPrimitive_shiftL (fun _ => rfl) rfl exec_slo,
    modifies_of_shift_logic (logic := (· &&& ·)) shiftPrimitive_rotL (fun _ => rfl) rfl exec_rla,
    modifies_of_shift_logic (logic := (· ^^^ ·)) shiftPrimitive_shiftR (fun _ => rfl) rfl exec_sre⟩

/-- Settles O37: RRA adds after its rotate has put the carry in, ISC adds the complement with a carry that its increment
left, and DCP compares with an A and flags that its decrement left. -/
theorem modifyThenArithmeticComplete : Obligations.ModifyThenArithmeticComplete := by
  refine ⟨?rra, ?isc, ?dcp⟩
  case rra =>
    refine modifies_of_perform (fun _ => rfl) rfl exec_rra carryOnly_rotR (fun s i old => rotR_byte old (s.past i))
      (fun _ _ => rfl) fun s i old u ha hp => ?_
    rw [shiftPrimitive_rotR.state] at hp
    exact added_addToA_of_carry _ ha hp
  case isc =>
    refine modifies_of_perform (fun _ => rfl) rfl exec_isc carryOnly_increment
      (fun s i old => increment_byte old (s.past i)) (fun _ _ => rfl) fun s i old u ha hp => ?_
    have hadd := added_addToA_of_carry (~~~BitVec.ofNat 8 ((old.toNat + 1) % 256)) ha
      (hp.trans (s.setFlag_flag_self .c).symm)
    rw [Byte.not_toNat, BitVec.toNat_ofNat, Nat.mod_mod] at hadd
    exact hadd
  case dcp =>
    refine modifies_of_perform (fun _ => rfl) rfl exec_dcp carryOnly_decrement
      (fun s i old => decrement_byte old (s.past i)) (fun _ _ => rfl) fun s i old u ha hp => ⟨by simpa using ha, ?_⟩
    rw [← ha]
    exact flagsBecome_of_unwritten (fun f _ => State.flag_congr hp f) (flagsBecome_compare rfl)

/-- Settles O38: a no-op performs nothing or a read, and the listed bytes are the opcodes of its mode. -/
theorem noOpsComplete : Obligations.NoOpsComplete := by
  refine ⟨fun s op h => ?_, fun s op o h => ?_⟩
  · have hop : (Instr.nop op none).opcode = some op := opcode_nop_eq h
    exact ⟨hop, exec_nop_implied hop s⟩
  · have hmem : op ∈ nopOpcodes o.mode := by
      cases o with
      | imm | zp | zpx | abs | absx => simpa [Operand.mode, nopOpcodes] using h
      | zpy | absy | ind | indx | indy => simp [Operand.mode] at h
    have hop : (Instr.nop op (some o)).opcode = some op := opcode_nop_eq hmem
    exact ⟨hop, fun m => exec_nop_of_operand hop, exec_nop_of_operand_none hop⟩

end Sys2Proof.Machine
end

section
/-! PROOFS. The rules of fatal conditions and of BRK and RTI under `BRK_RTI_MODE = Standard` (60_exceptions.md R221 to
R235): the halt-class bytes have no operand byte to fetch, a push keeps every cell above the stack's page, and what the
break entry and the return from it do. -/

namespace Sys2Proof.Machine

open Sys2Proof.Claims

/-! ## The halt class -/

/-- No operand byte of a halt-class instruction can be the missing top cell (30_encoding.md R88). -/
theorem operandBytes_jam {op : Byte} (h : op ∈ jamOpcodes) : (opcodeEntry op).mode.operandBytes = 0 := by
  fin_cases h <;> rfl

/-- The byte at PC is not of the halt class where a read of it gives another one. -/
theorem not_jam_at_pc {s : State} {op : Byte} (hop : s.peek s.pc = some op) (hj : op ∉ jamOpcodes) :
    ¬ ∃ k, s.peek s.pc = some k ∧ k ∈ twelveJam := by
  rintro ⟨k, hk, hkj⟩
  obtain rfl := Option.some.inj (hop.symm.trans hk)
  exact hj hkj

/-- The byte at PC is not of the halt class where a fetch meets the missing top cell. -/
theorem not_jam_at_pc_of_missing {s : State} {op : Byte}
    (hop : s.peek s.pc = none ∨ s.peek s.pc = some op ∧ (opcodeEntry op).mode.operandBytes ≠ 0) :
    ¬ ∃ k, s.peek s.pc = some k ∧ k ∈ twelveJam := by
  obtain hnone | ⟨hop, hne⟩ := hop
  · simp [hnone]
  · exact not_jam_at_pc hop fun hj => hne (operandBytes_jam hj)

/-! ## Pushes, and the vector above the stack's page -/

/-- A push neither reads nor moves PC (20_memory.md R57). -/
theorem push_with_pc (v : Byte) (s : State) (c : Word) :
    ∃ t, push v { s with pc := c } = .ok () { t with pc := c } ∧ Pushed s t v := by
  obtain ⟨t, he, ht, hsp, hst⟩ := push_pushed v { s with pc := c }
  have hpc : t = { t with pc := c } := by rw [ht]
  refine ⟨{ t with pc := s.pc }, he.trans (congrArg _ hpc), ?_, hsp, hst⟩
  rw [ht]

/-- What pushes keep that the break entry uses after them: the status, the parameters, and every cell above the
stack's page (20_memory.md R57, R59). -/
structure KeptByPush (s t : State) : Prop where
  p : t.p = s.p
  params : t.params = s.params
  read : ∀ b, 256 ≤ b → t.mem.read b = s.mem.read b

theorem KeptByPush.trans {s t u : State} (h : KeptByPush s t) (h' : KeptByPush t u) : KeptByPush s u where
  p := h'.p.trans h.p
  params := h'.params.trans h.params
  read b hb := (h'.read b hb).trans (h.read b hb)

/-- A push writes no cell above the stack's page, whether or not a mapper takes it. -/
theorem read_above_of_pushed {s t : State} {v : Byte} (h : Pushed s t v) {b : Nat} (hb : 256 ≤ b) :
    t.mem.read b = s.mem.read b := by
  obtain ⟨-, -, hst⟩ := h
  rw [stackCell_below, Stored, mirror_zext, isStub_zext, if_neg Bool.false_ne_true] at hst
  split at hst
  · rw [hst.1]
  · have hne : b ≠ (zext (s.sp - 1)).toNat := by
      have := (s.sp - 1).isLt
      rw [zext_toNat]
      omega
    rw [hst.2, if_neg hne]

theorem keptByPush_of_pushed {s t : State} {v : Byte} (h : Pushed s t v) : KeptByPush s t where
  p := by rw [h.1]
  params := by rw [h.1]
  read _ hb := read_above_of_pushed h hb

/-- Where the top cell exists, the word at the vector is its two cells (60_exceptions.md R226). -/
theorem State.peekWord_vector {s : State} (hp : s.params.topCell = .cell) :
    s.peekWord 0xFFFE#16 = some (word (s.mem.read 0xFFFF) (s.mem.read 0xFFFE)) := by
  have hcell (m : Word) : s.topCellFaults m = false := by simp [State.topCellFaults, hp]
  exact State.peekWord_eq (State.peek_cell (by decide) (hcell _)) (State.peek_cell (by decide) (hcell _))

/-- Where the top cell is missing, so is the vector's high byte. -/
theorem State.peekWord_vector_missing {s : State} (hp : s.params.topCell = .fault) : s.peekWord 0xFFFE#16 = none :=
  State.peekWord_high_missing ((s.peek_eq_none_iff _).2 ⟨hp, rfl⟩)

/-- Pushes leave the vector as it was. -/
theorem KeptByPush.peekWord_vector {s t : State} (h : KeptByPush s t) :
    t.peekWord 0xFFFE#16 = s.peekWord 0xFFFE#16 := by
  cases hp : s.params.topCell with
  | cell =>
    rw [State.peekWord_vector hp, State.peekWord_vector ((congrArg _ h.params).trans hp), h.read _ (by decide),
      h.read _ (by decide)]
  | fault => rw [State.peekWord_vector_missing hp, State.peekWord_vector_missing ((congrArg _ h.params).trans hp)]

/-! ## BRK and RTI under Standard -/

/-- What an instruction does depends on its effect after its bytes only. -/
theorem perform_congr {i : Instr} {e f : State → Access Unit} {s : State} (h : e (s.past i) = f (s.past i)) :
    perform i e s = perform i f s := by
  simp only [perform, h]

theorem exec_brk_standard {s : State} (hp : s.params.brkRti = .standard) : exec .brk s = perform .brk enterBreak s :=
  (exec_brk s).trans (perform_congr (by simp only [State.past_params, hp]))

theorem exec_rti_standard {s : State} (hp : s.params.brkRti = .standard) :
    exec .rti s = perform .rti returnFromBreak s :=
  (exec_rti s).trans (perform_congr (by simp only [State.past_params, hp]))

/-- The break entry begins with the padding byte, which moves PC only if it can be read (30_encoding.md R81). -/
theorem enterBreak_padding_missing {s : State} (h : s.peek s.pc = none) : enterBreak s = .fatal .topCellAccess s := by
  simp [enterBreak, fetch8, h]

/-- Past the padding byte the break entry pushes PC and the status and sets I, and then reads the vector: the three
pushes leave `w`, apart from PC (60_exceptions.md R226). -/
theorem enterBreak_pushed {s : State} {c : Word} (h : s.peek c ≠ none) :
    ∃ u v w, Pushed s u (highByte (c + 1)) ∧ Pushed u v (lowByte (c + 1)) ∧ Pushed v w (pushedStatus s.p) ∧
      KeptByPush s w ∧
      enterBreak { s with pc := c } =
        (Access.ofRead (s.peekWord 0xFFFE#16) { w with pc := c + 1, p := w.p ||| 0x04#8 }).andThen
          fun target t => .set { t with pc := target } := by
  obtain ⟨pad, hpad⟩ := Option.ne_none_iff_exists'.1 h
  obtain ⟨u, hpu, hu⟩ := push_with_pc (highByte (c + 1)) s (c + 1)
  obtain ⟨v, hpv, hv⟩ := push_with_pc (lowByte (c + 1)) u (c + 1)
  obtain ⟨w, hpw, hw⟩ := push_with_pc (pushedStatus v.p) v (c + 1)
  have hkv : KeptByPush s v := (keptByPush_of_pushed hu).trans (keptByPush_of_pushed hv)
  have hkw : KeptByPush s w := hkv.trans (keptByPush_of_pushed hw)
  refine ⟨u, v, w, hu, hv, hkv.p ▸ hw, hkw, ?_⟩
  rw [← hkw.peekWord_vector]
  simp only [enterBreak, fetch8, pushWord, State.peek_with_pc, hpad, hpu, hpv, hpw, Access.ofRead_some,
    Access.ok_andThen]
  rfl

/-- Once SP has moved up, a byte above it is one nearer, whatever the status (20_memory.md R58). -/
theorem stackByte_sp_add_one (s : State) (p : Byte) (k : Nat) :
    stackByte { s with sp := s.sp + 1, p := p } k = stackByte s (k + 1) := by
  have hcell : ((s.sp + 1).toNat + k) % 256 = (s.sp.toNat + (k + 1)) % 256 := by
    rw [Byte.add_one_toNat]
    omega
  simp only [stackByte, hcell]

/-- The return from a break always completes (60_exceptions.md R227). -/
theorem returnFromBreak_stackBytes (s : State) :
    returnFromBreak s = .ok () { s with
      sp := s.sp + 3
      p := pulledStatus (stackByte s 0) s.p
      pc := word (stackByte s 2) (stackByte s 1) } := by
  have hsp : s.sp + 1 + 2 = s.sp + 3 := BitVec.add_assoc s.sp 1 2
  simp only [returnFromBreak, pull_stackByte, pullWord_stackBytes, stackByte_sp_add_one, Access.ok_andThen,
    Access.set_eq, hsp]

end Sys2Proof.Machine
end

section
/-! PROOFS. Halting, fatal conditions, BRK and RTI (60_exceptions.md R221 to R235). -/

namespace Sys2Proof.Machine

open Sys2Proof.Claims

/-- Settles O47: of the ways a step can end, the halt-class one alone sets `halted`, and the byte at PC is in the others
not of the halt class. -/
theorem onlyHaltClassHalts : Obligations.OnlyHaltClassHalts := by
  rintro s t ⟨-, -, hhalted⟩ h
  have running {u : State} (hu : u.halted = s.halted) : ¬ u.halted = true := by simp [hu, hhalted]
  cases step_next h with
  | fetchFault op u hu _ hop ht =>
    exact iff_of_false (running (by rw [ht, State.raiseFatal_halted, hu])) (not_jam_at_pc_of_missing hop)
  | done op u hop hj hk ht =>
    exact iff_of_false (running (by rw [ht, State.retire_halted, hk.halted])) (not_jam_at_pc hop hj)
  | jam op hop hj ht => exact iff_of_true (by rw [ht, State.retire_halted]) ⟨op, hop, hj⟩
  | topCell op u hop hj hk _ ht =>
    exact iff_of_false (running (by rw [ht, State.raiseFatal_halted, hk.halted])) (not_jam_at_pc hop hj)
  | absent op i hop hj _ ht =>
    exact iff_of_false (running (by rw [ht, State.raiseFatal_halted, State.past_halted])) (not_jam_at_pc hop hj)

/-- Settles O48: a step that completes records nothing, and each of the others records its own kind at PC. -/
theorem fatalConditionCauses : Obligations.FatalConditionCauses := by
  rintro s t r ⟨-, hfault, -⟩ h hr
  cases step_next h with
  | fetchFault op u _ hp _ ht =>
    subst ht
    cases hr
    exact ⟨rfl, nofun, fun _ => hp⟩
  | done op u _ _ hk ht =>
    rw [ht, State.retire_fault, hk.fault, hfault] at hr
    cases hr
  | jam op _ _ ht =>
    rw [ht, State.retire_fault, State.past_fault, hfault] at hr
    cases hr
  | topCell op u _ _ _ hp ht =>
    subst ht
    cases hr
    exact ⟨rfl, nofun, fun _ => hp⟩
  | absent op i hop _ hc ht =>
    subst ht
    cases hr
    exact ⟨rfl, fun _ => ⟨hop, hc⟩, nofun⟩

/-- Settles O41: the padding byte is missing at the top cell alone. Where it is not, the three pushes complete, and the
vector, which they leave alone, is read or missing by the policy. -/
theorem breakStandardEntry : Obligations.BreakStandardEntry := by
  intro s hs
  refine ⟨rfl, fun hp hpc => ?_, fun hpad => ?_⟩
  · have htop : (s.past .brk).peek (s.past .brk).pc = none :=
      (State.peek_eq_none_iff _ _).2 ⟨hp, by rw [State.past_pc, hpc]; rfl⟩
    exact (exec_brk_standard hs).trans (perform_fatal rfl (enterBreak_padding_missing htop))
  · have hread : s.peek (s.pc + 1) ≠ none := by
      rw [ne_eq, State.peek_eq_none_iff]
      rintro ⟨hp, hpc⟩
      obtain hp' | hpc' := hpad
      · cases hp.symm.trans hp'
      · exact hpc' (by bv_omega)
    obtain ⟨u, v, w, hu, hv, hw, hk, he⟩ := enterBreak_pushed hread
    have hpast : s.pc + 1 + 1 = s.pc + 2 := BitVec.add_assoc s.pc 1 1
    have hnum : (s.pc + 2).toNat = (s.pc.toNat + 2) % 65536 := BitVec.toNat_add s.pc 2
    rw [hpast] at hu hv he
    rw [highByte, hnum] at hu
    rw [lowByte, hnum, Nat.mod_mod_of_dvd _ (by decide)] at hv
    have hflag {t : State} (ht : t.p = w.p ||| 0x04#8) : FlagsBecome s t [(.i, true)] :=
      flagsBecome_setFlag (by rw [ht, hk.p]; rfl)
    cases hp : s.params.topCell with
    | cell =>
      rw [State.peekWord_vector hp, Access.ofRead_some, Access.ok_andThen, Access.set_eq] at he
      exact ⟨u, v, w, _, (exec_brk_standard hs).trans (perform_ok rfl he), hu, hv, hw, hflag rfl,
        fun _ => ⟨rfl, word_toNat _ _⟩, nofun⟩
    | fault =>
      rw [State.peekWord_vector_missing hp, Access.ofRead_none, Access.fatal_andThen] at he
      exact ⟨u, v, w, _, (exec_brk_standard hs).trans (perform_fatal rfl he), hu, hv, hw, hflag rfl,
        nofun, fun _ => rfl⟩

/-- Settles O42: the three pulls always complete, and what they leave is in the status and in PC. -/
theorem returnFromBreakStandard : Obligations.ReturnFromBreakStandard := fun s hs =>
  ⟨rfl, (exec_rti_standard hs).trans (perform_ok rfl (returnFromBreak_stackBytes (s.past .rti)))⟩

end Sys2Proof.Machine
end

section
/-! PROOFS. The host's operations (70_reset_and_hazards.md R240 to R248): what `power_on` writes, the order of the boot, and
that every operation keeps the invariants of a step together. -/

namespace Sys2Proof.Machine

/-- The four invariants together, under parameters that nothing writes (00_scope.md R9). -/
structure State.Invariant (params : Params) (s : State) : Prop where
  storage : s.mem.wf = true
  forced : s.forcedBits
  window : s.noWindow
  clocks : s.clocksFit
  parameters : s.params = params

theorem State.Invariant.conditions {params : Params} {s : State} (hi : s.Invariant params) :
    s.mem.wf = true ∧ s.forcedBits ∧ s.noWindow ∧ s.clocksFit :=
  ⟨hi.storage, hi.forced, hi.window, hi.clocks⟩

/-! ## Power-on -/

theorem clockFits_zero (params : Params) : clockFits params 0 := fun bits _ => Nat.two_pow_pos bits

/-- The status that `power_on` writes has bits B and U (10_state.md R30, R31). -/
theorem State.forcedBits_of_status {s : State} (h : s.p = 0x34#8) : s.forcedBits := by
  constructor <;> rw [State.flag, h] <;> decide

theorem State.atPowerOn_invariant (params : Params) {ram : Memory} (h : ram.wf = true) :
    (State.atPowerOn params ram).Invariant params where
  storage := h
  forced := State.forcedBits_of_status rfl
  window := nofun
  clocks := ⟨clockFits_zero params, clockFits_zero params⟩
  parameters := rfl

/-- Settles O54: 0x34 has bits B and U, no mapper is installed yet, and both clocks are 0; the reset state is a power-on
with nothing listed in the storage array. -/
theorem powerOnMeetsInvariants : Obligations.PowerOnMeetsInvariants :=
  ⟨fun params _ hram => (State.atPowerOn_invariant params hram).conditions,
    (State.atPowerOn_invariant Params.default rfl).conditions⟩

/-- Settles O56: `power_on` is the power-on state of the same parameters and storage, with the mapper put back. -/
theorem powerOnWrites : Obligations.PowerOnWrites :=
  fun _ => ⟨rfl, rfl, rfl, rfl, rfl, rfl, rfl, rfl, rfl, rfl, rfl, rfl⟩

/-- A later `power_on` keeps storage and mapper and writes the rest as the first one did (70_reset_and_hazards.md R240,
R241). -/
theorem State.Invariant.powerOn {params : Params} {s : State} (hi : s.Invariant params) :
    s.powerOn.Invariant params where
  storage := hi.storage
  forced := State.forcedBits_of_status rfl
  window := hi.window
  clocks := ⟨clockFits_zero s.params, clockFits_zero s.params⟩
  parameters := hi.parameters

/-! ## Loading a program -/

/-- NROM declares an empty register window (20_memory.md R70). -/
theorem State.noWindow_of_nrom {s : State} {prg chr : List Byte} (h : s.mapper = some (nrom prg chr)) :
    s.noWindow := by
  intro mp hmp
  cases h.symm.trans hmp
  exact ⟨rfl, rfl⟩

/-- A load that succeeds projected a program of one of the two sizes (70_reset_and_hazards.md R242, R243). -/
theorem State.loadCartridge_eq_ok {s t : State} {c : Cartridge} (h : s.loadCartridge c = .ok t) :
    (c.prg.length = 16384 ∨ c.prg.length = 32768) ∧
      t = { s with
        mapper := some (nrom c.prg c.chr)
        mem := nromProject c.prg s.mem
        pc := nromDesc.resetVector
        halted := false } := by
  obtain ⟨hmapper, hsize, -⟩ := loadRomProjects s c
  have hid : c.mapperId = 0x00#8 := by
    by_contra hid
    cases (hmapper hid).symm.trans h
  have hl : c.prg.length = 16384 ∨ c.prg.length = 32768 := by
    by_contra hl
    obtain ⟨h16, h32⟩ := not_or.1 hl
    cases (hsize hid h16 h32).symm.trans h
  exact ⟨hl, Except.ok.inj (h.symm.trans (s.loadCartridge_ok hid hl))⟩

/-- A file that loads is one that parses (70_reset_and_hazards.md R242, R244). -/
theorem State.loadRom_eq_ok {s t : State} {file : Option (List Byte)} (h : s.loadRom file = .ok t) :
    ∃ c, s.loadCartridge c = .ok t := by
  unfold State.loadRom at h
  split at h
  · cases h
  · split at h
    · cases h
    · exact ⟨_, h⟩

/-- Programs of both sizes fit in the storage array (20_memory.md R69), and status, clocks and parameters are left
alone. -/
theorem State.Invariant.loadRom {params : Params} {s t : State} {file : Option (List Byte)} (hi : s.Invariant params)
    (h : s.loadRom file = .ok t) : t.Invariant params := by
  obtain ⟨c, hc⟩ := State.loadRom_eq_ok h
  obtain ⟨hl, rfl⟩ := State.loadCartridge_eq_ok hc
  exact { hi with
    storage := nromProject_wf hi.storage (by omega)
    window := State.noWindow_of_nrom rfl }

/-! ## Steps under a budget -/

theorem step_params {s t : State} (h : step s = .next t) : t.params = s.params := by
  obtain ⟨u, hk, ⟨_, rfl⟩ | ⟨_, _, _, rfl⟩⟩ := step_retires_or_raises h
  · exact hk.params
  · exact hk.params

theorem State.Invariant.step {params : Params} {s t : State} (hi : s.Invariant params) (h : step s = .next t) :
    t.Invariant params where
  storage := stepKeepsStorageCanonical s t hi.storage h
  forced := stepKeepsForcedBits s t hi.forced h
  window := (stepKeepsWindowlessMapper s t hi.window h).2
  clocks := stepKeepsClocksInWidth s t hi.clocks h
  parameters := (step_params h).trans hi.parameters

/-- The budget loop keeps what every step keeps: by induction on its turns. -/
theorem State.Invariant.catchUp {params : Params} {t : State} (k : Nat) :
    ∀ {s : State}, s.Invariant params → catchUp k s = .next t → t.Invariant params := by
  induction k with
  | zero =>
    rintro s hi ⟨⟩
    exact hi
  | succ k ih =>
    intro s hi h
    unfold Machine.catchUp at h
    split at h
    · split at h
      · next u hu => exact ih (hi.step hu) h
      · next hstop => exact absurd h (hstop t)
    · cases h
      exact hi

theorem hostStep_noMapper {s : State} (n : Nat) (hm : s.mapper = none) : hostStep n s = .refused .noMapper := by
  simp [hostStep, hm]

/-- Raising the master clock leaves a value that `CLOCK_BITS` bits hold, and the budget loop runs from there. -/
theorem State.Invariant.hostStep {params : Params} {s t : State} {n : Nat} (hi : s.Invariant params)
    (h : hostStep n s = .next t) : t.Invariant params := by
  unfold Machine.hostStep at h
  split at h
  · cases h
  · have hraised : State.Invariant params { s with masterClock := clockValue s.params (s.masterClock + n) } :=
      { hi with clocks := ⟨hi.clocks.1, clockFits_clockValue s.params (s.masterClock + n)⟩ }
    exact hraised.catchUp _ h

/-! ## The block -/

theorem Block.apply_loadRom_eq_ok {s t : State} {file : Option (List Byte)} :
    (Block.powered s).apply (.loadRom file) = .ok (.powered t) ↔ s.loadRom file = .ok t := by
  cases h : s.loadRom file <;> simp [Block.apply, h]

theorem Block.apply_step_eq_ok {s t : State} {n : Nat} :
    (Block.powered s).apply (.step n) = .ok (.powered t) ↔ hostStep n s = .next t := by
  cases h : hostStep n s <;> simp [Block.apply, h]

theorem State.Invariant.apply {params : Params} {s t : State} {op : HostOp} (hi : s.Invariant params)
    (h : (Block.powered s).apply op = .ok (.powered t)) : t.Invariant params := by
  cases op with
  | powerOn =>
    cases h
    exact hi.powerOn
  | loadRom file => exact hi.loadRom (Block.apply_loadRom_eq_ok.1 h)
  | step n => exact hi.hostStep (Block.apply_step_eq_ok.1 h)

/-- Settles O59: the operations keep the invariant that joins the four and names the parameters. -/
theorem hostOperationsKeepInvariants : Obligations.HostOperationsKeepInvariants := by
  intro s t op h hstorage hforced hwindow hclocks
  have hi : t.Invariant s.params := State.Invariant.apply ⟨hstorage, hforced, hwindow, hclocks, rfl⟩ h
  exact ⟨hi.storage, hi.forced, hi.window, hi.clocks, hi.parameters⟩

/-- Settles O60: an unpowered block has its answers by definition, and without a mapper the budget loop is not
entered. -/
theorem bootOrder : Obligations.BootOrder := by
  refine ⟨fun _ _ _ _ => ⟨rfl, rfl, rfl⟩, fun s n hm => ?_⟩
  rw [Block.apply, hostStep_noMapper n hm]

end Sys2Proof.Machine
end

section
/-! PROOFS. Encoder and decoder are inverse (30_encoding.md R80, R82, R83). -/

namespace Sys2Proof.Machine

theorem encode_of_opcode {i : Instr} {op : Byte} (h : i.opcode = some op) : encode i = op :: i.operandBytes := by
  rw [encode, h]

/-- Settles O1: a well-formed instruction has an opcode, whose table entry makes that instruction of its operand
bytes. -/
theorem decodeOfEncode : Obligations.DecodeOfEncode := by
  intro i rest hwf
  obtain ⟨op, hop⟩ := Instr.opcode_of_wf hwf
  rw [encode_of_opcode hop]
  exact decode_operandBytes hop rest

/-- Settles O2: what decodes is what its opcode's entry makes, which is well-formed and keeps the opcode and the operand
bytes read. -/
theorem encodeOfDecode : Obligations.EncodeOfDecode := by
  intro bytes rest i h
  cases bytes with
  | nil => cases h
  | cons op bytes =>
    obtain ⟨lo, hi, rfl, hbytes⟩ := decode_eq_ok h
    obtain ⟨hwf, hop, -⟩ := opcodeEntry_make op lo hi
    refine ⟨hwf, ?_⟩
    rw [encode_of_opcode hop, List.cons_append, hbytes]

end Sys2Proof.Machine
end
